-- ==== Sys2Proof/Word.lean ====
section
/-! DEFINITION. The widths of CASHADDR-CORE's values (10_state.md rules R21 to R34). All of them are unsigned
(00_scope.md rule R9). -/

namespace Sys2Proof

/-- A buffer element or an 8-bit data register (R34, R27 to R32). -/
abbrev Byte := BitVec 8

/-- The checksum accumulator ACC (R26). -/
abbrev Acc := BitVec 40

/-- A length register (R33). -/
abbrev Length := BitVec 16

/-- A datum of the host bus and a command word (20_memory.md R61, 30_encoding.md R80). -/
abbrev Datum := BitVec 32

/-- A byte offset in the 4096-byte register window (20_memory.md R60). -/
abbrev Offset := BitVec 12

end Sys2Proof
end

