-- ==== Sys2Proof/Config.lean ====
section
/-! DEFINITION. What one implementation fixes, and the free values the spec leaves open (93_implementation_defined.md
part 1). An opaque constant has no body: no proof can see its value. -/

namespace Sys2Proof

/-- CAP_PFX (00_scope.md R6). -/
def Config.capPfx : Nat := 64
/-- CAP_NET (R6). -/
def Config.capNet : Nat := 64
/-- CAP_HASH (R6). -/
def Config.capHash : Nat := 64
/-- CAP_BYTES (R6). -/
def Config.capBytes : Nat := 80
/-- CAP_WORDS (R6). -/
def Config.capWords : Nat := 128
/-- CAP_STR (R6). -/
def Config.capStr : Nat := 256
/-- N_CK, fixed by the algorithm (R6, R8). -/
def Config.nCk : Nat := 8

/-- The free value of the `n`-th draw: what a host read returns where the spec says "an unconstrained value (a draw)"
(10_state.md R50, 20_memory.md R70). DESIGN CHOICE, log 4: safe. -/
opaque Config.draw : Nat → Datum

/-- The free value of the `n`-th latency: how many host statements are taken between an accepted CMD write and its
completion, finite and otherwise unspecified (70_reset_and_hazards.md R280). DESIGN CHOICE, log 5: safe. -/
opaque Config.latency : Nat → Nat

/-- WINDOW_BASE in units of 4096 bytes: a platform parameter, left open (20_memory.md R60, 92_eei_decisions.md D36).
DESIGN CHOICE, log 13: safe. -/
opaque Config.windowPage : Nat

/-- WINDOW_BASE, a multiple of 4096 (R60). -/
def Config.windowBase : Nat := 4096 * Config.windowPage

end Sys2Proof
end

