-- ==== Sys2Proof/Machine/Window.lean ====
section
/-! DEFINITION. The register window: which register or buffer element stands at which offset (10_state.md R21, R34;
20_memory.md R60 to R63), and the statements a host issues (30_encoding.md R86, R87). -/

namespace Sys2Proof.Machine

/-- The registers of 10_state.md R21, in the order of their offsets. -/
inductive Reg where
  | id | cmd | status | errcode | accLo | accHi | operand | typebits | sizebits | vbyte | outType | sizelen
  | pfxLen | netLen | hashLen | byteLen | wordLen | strLen
  deriving DecidableEq, Repr

/-- The buffers of 10_state.md R34. -/
inductive Buf where
  | pfx | net | hash | bytes | words | str | ckw | exp
  deriving DecidableEq, Repr

/-- A mapped 32-bit slot of the window: a register, or an element of a buffer (20_memory.md R62). -/
inductive Slot where
  | reg (r : Reg)
  | elem (b : Buf) (i : Nat)
  deriving DecidableEq, Repr

/-- The registers in the order of their offsets. -/
def Reg.all : List Reg :=
  [.id, .cmd, .status, .errcode, .accLo, .accHi] ++ [.operand, .typebits, .sizebits, .vbyte, .outType, .sizelen]
    ++ [.pfxLen, .netLen, .hashLen, .byteLen, .wordLen, .strLen]

/-- The buffers in the order of their bases. -/
def Buf.all : List Buf := [.pfx, .net, .hash, .bytes, .words, .str, .ckw, .exp]

/-- A register's offset (R21). -/
def Reg.offset : Reg → Nat
  | .id => 0x000 | .cmd => 0x004 | .status => 0x008 | .errcode => 0x00C | .accLo => 0x010 | .accHi => 0x014
  | .operand => 0x018 | .typebits => 0x01C | .sizebits => 0x020 | .vbyte => 0x024 | .outType => 0x028
  | .sizelen => 0x02C | .pfxLen => 0x030 | .netLen => 0x034 | .hashLen => 0x038 | .byteLen => 0x03C
  | .wordLen => 0x040 | .strLen => 0x044

/-- The registers whose reset contents are unspecified and which the host may write: the data and length registers
(R21's RW rows). -/
def Reg.isData : Reg → Bool
  | .id | .cmd | .status | .errcode => false
  | _ => true

/-- A buffer's base offset (R34). -/
def Buf.base : Buf → Nat
  | .pfx => 0x100 | .net => 0x200 | .hash => 0x300 | .bytes => 0x400 | .words => 0x600 | .str => 0x800
  | .ckw => 0xC00 | .exp => 0xC40

/-- A buffer's capacity (R34, 00_scope.md R6). -/
def Buf.cap : Buf → Nat
  | .pfx => Config.capPfx | .net => Config.capNet | .hash => Config.capHash | .bytes => Config.capBytes
  | .words => Config.capWords | .str => Config.capStr | .ckw => Config.nCk | .exp => Config.nCk

/-- CKW and EXP are read-only to the host (R34, R39). -/
def Buf.readOnly : Buf → Bool
  | .ckw | .exp => true
  | _ => false

/-- The offset of element `i` of a buffer: `base + 4*i` (R34). -/
def Buf.slot (b : Buf) (i : Nat) : Nat := b.base + 4 * i

/-- The length register of a buffer that has one (R33). -/
def Buf.lenReg : Buf → Option Reg
  | .pfx => some .pfxLen | .net => some .netLen | .hash => some .hashLen | .bytes => some .byteLen
  | .words => some .wordLen | .str => some .strLen | .ckw => none | .exp => none

/-- Offset `o` lies in buffer `b` (R62: `base + 4*i` for `0 <= i < capacity`). -/
def Buf.covers (b : Buf) (o : Nat) : Bool := decide (b.base ≤ o) && decide (o < b.base + 4 * b.cap)

/-- The slot at a byte offset: none for an offset that is not a multiple of 4 (R61) or is unmapped (R62). -/
def slotAt (o : Nat) : Option Slot :=
  if o % 4 != 0 then none
  else
    match Reg.all.find? (fun r => r.offset == o) with
    | some r => some (.reg r)
    | none => (Buf.all.find? (fun b => b.covers o)).map fun b => .elem b ((o - b.base) / 4)

/-- The slot's offset. -/
def Slot.offset : Slot → Nat
  | .reg r => r.offset
  | .elem b i => b.slot i

/-- The window offset of a system address, none outside the window (20_memory.md R60). -/
def windowOffset (a : Nat) : Option Nat :=
  if Config.windowBase ≤ a ∧ a < Config.windowBase + 4096 then some (a - Config.windowBase) else none

/-- The width of a bus access; only 32 bits are allowed (20_memory.md R61). -/
inductive Width where
  | w8 | w16 | w32 | w64
  deriving DecidableEq, Repr

/-- What the host may do next: a bus read or write (30_encoding.md R86), the poll loop WAIT (R87), asserting the reset
input (70_reset_and_hazards.md R270), or a statement with no bus encoding (60_exceptions.md R261, REFUSED). -/
inductive HostStmt where
  | rd (width : Width) (off : Offset)
  | wr (width : Width) (off : Offset) (data : Datum)
  | wait
  | reset
  | inexpressible
  deriving DecidableEq, Repr

end Sys2Proof.Machine
end

