-- ==== Sys2Proof/Syntax.lean ====
section
/-! DEFINITION. The commands of CASHADDR-CORE: one constructor per row of spec/opcode_table.json, in the order of
30_encoding.md rule R83. -/

namespace Sys2Proof

/-- A command. The only operand field of a command word is NOPFX, and only FRM.ENC, ADDR.ENCRAW and ADDR.ENC have it
(30_encoding.md R80, R82); every other operand is read from the registers and buffers. -/
inductive Instr where
  | cfgNet
  | chrEnc
  | chrDec
  | cvt8to5
  | cvt5to8
  | accInit
  | polyStep
  | polyFeedw
  | polyFeedc
  | polyFinal
  | checksum
  | frmEnc (nopfx : Bool)
  | frmDec
  | vbPack
  | vbUnpack
  | vbEncts
  | vbDects
  | addrEncraw (nopfx : Bool)
  | addrEnc (nopfx : Bool)
  | addrDecraw
  | addrDec
  deriving DecidableEq, Repr

end Sys2Proof
end

