-- ==== Sys2Proof/WellFormed.lean ====
section
/-! DEFINITION. Well-formed terms. The syntax of commands leaves no ill-formed command: its one operand field is one
bit wide and stands only where it is legal (30_encoding.md R82). The statements of the host can be ill-formed, and each
check here names the rule that a term breaks. -/

namespace Sys2Proof

/-- Every term of the command syntax is well formed (30_encoding.md R80, R84). -/
def Instr.wellFormed : Instr → Bool
  | .cfgNet | .chrEnc | .chrDec | .cvt8to5 | .cvt5to8 => true
  | .accInit | .polyStep | .polyFeedw | .polyFeedc | .polyFinal | .checksum => true
  | .frmEnc _ | .frmDec => true
  | .vbPack | .vbUnpack | .vbEncts | .vbDects => true
  | .addrEncraw _ | .addrEnc _ | .addrDecraw | .addrDec => true

namespace Machine

/-- A bus access that the block answers: 32 bits wide, at an aligned and mapped offset (20_memory.md R61, R62). -/
def accessOk (width : Width) (off : Offset) : Bool := width == .w32 && (slotAt off.toNat).isSome

/-- A host statement that has a bus encoding which the block answers (20_memory.md R61, R62; 30_encoding.md R86, R87;
60_exceptions.md R261). -/
def HostStmt.wellFormed : HostStmt → Bool
  | .rd width off => accessOk width off
  | .wr width off _ => accessOk width off
  | .wait => true
  | .reset => true
  | .inexpressible => false

end Machine
end Sys2Proof
end

