-- ==== Sys2Proof/Decode.lean ====
section
/-! DEFINITION. Decoding of a command word (30_encoding.md R80 to R85), total, with a named reason for each rejection;
then the encoder, written from the same table. -/

namespace Sys2Proof

/-- Why a command word is illegal (30_encoding.md R84). Every reason ends in the one error IllegalCommand. -/
inductive Illegal where
  | reservedBits
  | unknownOpcode
  | nopfxNotAllowed
  deriving DecidableEq, Repr

/-- OPC, bits [7:0] (R80). -/
def opcOf (w : Datum) : BitVec 8 := w.extractLsb' 0 8

/-- NOPFX, bit [8] (R80). -/
def nopfxOf (w : Datum) : Bool := w.getLsbD 8

/-- RSV, bits [31:9] (R80). -/
def rsvOf (w : Datum) : BitVec 23 := w.extractLsb' 9 23

/-- The opcode map (R83): the command a code stands for, given NOPFX; none for a code outside the table. -/
def opcodeMap (opc : BitVec 8) (nopfx : Bool) : Option Instr :=
  match opc.toNat with
  | 0x01 => some .cfgNet
  | 0x10 => some .chrEnc
  | 0x11 => some .chrDec
  | 0x18 => some .cvt8to5
  | 0x19 => some .cvt5to8
  | 0x20 => some .accInit
  | 0x21 => some .polyStep
  | 0x22 => some .polyFeedw
  | 0x23 => some .polyFeedc
  | 0x24 => some .polyFinal
  | 0x28 => some .checksum
  | 0x30 => some (.frmEnc nopfx)
  | 0x31 => some .frmDec
  | 0x38 => some .vbPack
  | 0x39 => some .vbUnpack
  | 0x3A => some .vbEncts
  | 0x3B => some .vbDects
  | 0x40 => some (.addrEncraw nopfx)
  | 0x41 => some (.addrEnc nopfx)
  | 0x42 => some .addrDecraw
  | 0x43 => some .addrDec
  | _ => none

/-- The codes with which NOPFX = 1 is legal: FRM.ENC, ADDR.ENCRAW, ADDR.ENC (R80, R85). -/
def nopfxLegal (opc : BitVec 8) : Bool := opc == 0x30 || opc == 0x40 || opc == 0x41

/-- Decoding of the accepted value of PEND, in the order of R85. -/
def decode (w : Datum) : Except Illegal Instr :=
  if rsvOf w != 0 then .error .reservedBits
  else
    match opcodeMap (opcOf w) (nopfxOf w) with
    | none => .error .unknownOpcode
    | some i => if nopfxOf w && !nopfxLegal (opcOf w) then .error .nopfxNotAllowed else .ok i

/-- Decoding of a bus datum's four byte lanes, lane 0 first (20_memory.md R64: little-endian), with the lanes that
follow. A command is exactly one 32-bit datum (30_encoding.md R81), so fewer lanes are no command. -/
def decodeLanes : List Byte → Option (Except Illegal Instr × List Byte)
  | b0 :: b1 :: b2 :: b3 :: rest => some (decode (b3 ++ b2 ++ b1 ++ b0), rest)
  | _ => none

/-- The decoder on a word numbered as spec/opcode_table.json numbers its bits. A row wider than 32 bits is no command
(R81). -/
def decodeTableWord (nbits w : Nat) : Option Instr :=
  if nbits ≤ 32 then (decode (BitVec.ofNat 32 (w % 2 ^ nbits))).toOption else none

/-- OPC of a command (R83). -/
def opcode : Instr → BitVec 8
  | .cfgNet => 0x01
  | .chrEnc => 0x10
  | .chrDec => 0x11
  | .cvt8to5 => 0x18
  | .cvt5to8 => 0x19
  | .accInit => 0x20
  | .polyStep => 0x21
  | .polyFeedw => 0x22
  | .polyFeedc => 0x23
  | .polyFinal => 0x24
  | .checksum => 0x28
  | .frmEnc _ => 0x30
  | .frmDec => 0x31
  | .vbPack => 0x38
  | .vbUnpack => 0x39
  | .vbEncts => 0x3A
  | .vbDects => 0x3B
  | .addrEncraw _ => 0x40
  | .addrEnc _ => 0x41
  | .addrDecraw => 0x42
  | .addrDec => 0x43

/-- NOPFX of a command: 0 where the command has no such operand (R80). -/
def nopfxBit : Instr → Bool
  | .frmEnc n | .addrEncraw n | .addrEnc n => n
  | .cfgNet | .chrEnc | .chrDec | .cvt8to5 | .cvt5to8 | .accInit | .polyStep | .polyFeedw | .polyFeedc | .polyFinal
  | .checksum | .frmDec | .vbPack | .vbUnpack | .vbEncts | .vbDects | .addrDecraw | .addrDec => false

/-- The command word: RSV = 0, NOPFX, OPC (R80). -/
def encode (i : Instr) : Datum := (0 : BitVec 23) ++ (BitVec.ofBool (nopfxBit i) ++ opcode i)

end Sys2Proof
end

