-- ==== Sys2Proof/Machine/State.lean ====
section
/-! DEFINITION. The state of CASHADDR-CORE as plain data (10_state.md R20 to R38), the two stops of a run, and the state
after reset (70_reset_and_hazards.md R270). -/

namespace Sys2Proof.Machine

/-- Buffer contents: the byte of each buffer element, keyed by its window offset (10_state.md R34), strictly rising,
with no entry equal to what an unlisted offset reads as. -/
abbrev Memory := List Host.Cell

/-- A set of window offsets, strictly rising. -/
abbrev OffsetSet := List Nat

/-- The pending command (10_state.md R38): the accepted value of CMD, and the number of host statements that are still
taken before the command completes (70_reset_and_hazards.md R280; the model's own, log 5). -/
structure Pending where
  word  : Datum
  delay : Nat
  deriving DecidableEq, Repr

/-- What a host read returned (00_scope.md R19). -/
structure ReadReply where
  off   : Offset
  value : Datum
  deriving DecidableEq, Repr

/-- Why the machine stops with a fault. -/
inductive Fault where
  /-- BUSERR (20_memory.md R61, R62; 60_exceptions.md R261): the host's access is not 32 bits wide, not aligned, or at
  an unmapped offset. Raised by a host step. Safe: the block answers a bus error and changes nothing, and the model
  admits no run past it. -/
  | busErr
  deriving DecidableEq, Repr

/-- Why the machine refuses a step. -/
inductive Refusal where
  /-- Raised by exec for a command that has no meaning yet. Safe: no run goes past it. -/
  | notModelled (mnemonic : String)
  /-- REFUSED (60_exceptions.md R261): a host statement that has no bus encoding. Raised by a host step. Safe: no run
  goes past it. -/
  | inexpressible
  deriving DecidableEq, Repr

/-- The state: control registers (10_state.md R24, R25), hidden state (R38), data registers (R26 to R32), length
registers (R33), buffers (R34); then the fields that are the model's own. STATUS.BUSY is not stored: it is 1 exactly
when PEND is not none (R38). -/
structure State where
  /-- PEND (R38). -/
  pend         : Option Pending
  /-- STATUS.DONE (R24). -/
  done         : Bool
  /-- STATUS.ERR (R24). -/
  err          : Bool
  /-- STATUS.NET_VALID (R24). -/
  netValid     : Bool
  /-- STATUS.OVR (R24). -/
  ovr          : Bool
  /-- ERRCODE (R25). -/
  errcode      : BitVec 8
  /-- ACC (R26). -/
  acc          : Acc
  /-- OPERAND (R27). -/
  operand      : Byte
  /-- TYPEBITS (R28). -/
  typebits     : Byte
  /-- SIZEBITS (R29). -/
  sizebits     : Byte
  /-- VBYTE (R30). -/
  vbyte        : Byte
  /-- TYPE (R31). -/
  outType      : Byte
  /-- SIZELEN (R32). -/
  sizelen      : Byte
  /-- PFX_LEN (R33). -/
  pfxLen       : Length
  /-- NET_LEN (R33). -/
  netLen       : Length
  /-- HASH_LEN (R33). -/
  hashLen      : Length
  /-- BYTE_LEN (R33). -/
  byteLen      : Length
  /-- WORD_LEN (R33). -/
  wordLen      : Length
  /-- STR_LEN (R33). -/
  strLen       : Length
  /-- PFX, NET, HASH, BYTES, WORDS, STR, CKW, EXP (R34). -/
  mem          : Memory
  /-- The model's own: the registers and elements written since reset (R50). -/
  written      : OffsetSet
  /-- The model's own: since power-on a command has read a register or element that nothing had written, so the spec's
  models have entered their fault UNWRITTEN (R50, 60_exceptions.md R254, R261). Never cleared. Log 2. -/
  unwrittenUse : Bool
  /-- The model's own: how many free values have been taken. Log 4. -/
  draws        : Nat
  /-- The host agent (00_scope.md R17): its statements not yet taken, oldest first. Log 6. -/
  host         : List HostStmt
  /-- What the host's reads returned, newest first (00_scope.md R19). Log 9. -/
  readLog      : List ReadReply
  deriving DecidableEq, Repr

/-- Reset (70_reset_and_hazards.md R270): STATUS, ERRCODE and PEND are cleared. The spec leaves every data register,
length register and buffer element unspecified; each is 0 here. DESIGN CHOICE, log 1: unsafe. -/
def State.reset : State where
  pend := none
  done := false
  err := false
  netValid := false
  ovr := false
  errcode := 0
  acc := 0
  operand := 0
  typebits := 0
  sizebits := 0
  vbyte := 0
  outType := 0
  sizelen := 0
  pfxLen := 0
  netLen := 0
  hashLen := 0
  byteLen := 0
  wordLen := 0
  strLen := 0
  mem := []
  written := []
  unwrittenUse := false
  draws := 0
  host := []
  readLog := []

end Sys2Proof.Machine
end

