-- ==== Sys2Proof/Machine/Flags.lean ====
section
/-! DEFINITION. Error codes and the STATUS flags (10_state.md R24, R25; 60_exceptions.md R241). -/

namespace Sys2Proof.Machine

/-- The errors of 60_exceptions.md R241. ChecksumMismatch carries the expected checksum's characters, the only other
information an error records (R243). -/
inductive Err where
  | illegalCommand | invalidWord | invalidCharacter | invalidPadding | invalidPrefixChar | emptyPrefix | mixedCase
  | missingSeparator | payloadTooShort
  | checksumMismatch (expected : List Byte)
  | invalidPrefix | prefixMismatch | invalidTypeBits | invalidSizeBits | unknownType | unsupportedHashSize
  | invalidType | invalidSize | hashLengthMismatch | networkNotConfigured | lengthExceeded | missingVersionByte
  deriving DecidableEq, Repr

/-- ERRCODE of an error (R241). -/
def Err.code : Err → BitVec 8
  | .illegalCommand => 1
  | .invalidWord => 2
  | .invalidCharacter => 3
  | .invalidPadding => 4
  | .invalidPrefixChar => 5
  | .emptyPrefix => 6
  | .mixedCase => 7
  | .missingSeparator => 8
  | .payloadTooShort => 9
  | .checksumMismatch _ => 10
  | .invalidPrefix => 11
  | .prefixMismatch => 12
  | .invalidTypeBits => 13
  | .invalidSizeBits => 14
  | .unknownType => 15
  | .unsupportedHashSize => 16
  | .invalidType => 17
  | .invalidSize => 18
  | .hashLengthMismatch => 19
  | .networkNotConfigured => 20
  | .lengthExceeded => 21
  | .missingVersionByte => 22

/-- STATUS.BUSY: 1 exactly when PEND is not none (10_state.md R38). -/
def State.busy (s : State) : Bool := s.pend.isSome

/-- STATUS as the host reads it (R24): BUSY, DONE, ERR, NET_VALID, OVR at bits 0 to 4, bits [31:5] always 0. -/
def State.status (s : State) : Datum :=
  (0 : BitVec 27) ++ (BitVec.ofBool s.ovr ++ (BitVec.ofBool s.netValid ++ (BitVec.ofBool s.err ++
    (BitVec.ofBool s.done ++ BitVec.ofBool s.busy))))

/-- A command's completion (60_exceptions.md R254): ERRCODE and ERR say how it ended, DONE is set, PEND becomes none
and so BUSY is 0. NET_VALID and OVR keep their values. -/
def State.complete (code : BitVec 8) (s : State) : State :=
  { s with pend := none, done := true, err := code != 0, errcode := code }

end Sys2Proof.Machine
end

