-- ==== Sys2Proof/Machine/Ops.lean ====
section
/-! DEFINITION. The named operations over buffers and registers, and how a command ends: without error, or with an
error (60_exceptions.md R240, R248, R254), the block's one form of taking an exception. There is no handler and nothing
to return from (R251). -/

namespace Sys2Proof.Machine

/-! ### Buffer contents -/

/-- What an offset that nothing has been written to reads as. The spec gives buffers no reset contents (10_state.md
R49). DESIGN CHOICE, log 12: unsafe. -/
def unlistedByte : Byte := 0

/-- The byte at an offset. -/
def Memory.read : Memory → Nat → Byte
  | [], _ => unlistedByte
  | c :: m, a => if c.1 = a then c.2 else Memory.read m a

/-- Store a byte at an offset, keeping the offsets rising and listing no byte equal to `unlistedByte`. -/
def Memory.write : Memory → Nat → Byte → Memory
  | [], a, v => if v = unlistedByte then [] else [(a, v)]
  | c :: m, a, v =>
    if c.1 < a then c :: Memory.write m a v
    else if c.1 = a then (if v = unlistedByte then m else (a, v) :: m)
    else if v = unlistedByte then c :: m else (a, v) :: c :: m

/-- Store bytes in consecutive 32-bit slots, the first at offset `a` (20_memory.md R65). -/
def Memory.writeSlots : Memory → Nat → List Byte → Memory
  | m, _, [] => m
  | m, a, v :: vs => Memory.writeSlots (Memory.write m a v) (a + 4) vs

/-- The canonical form of buffer contents. -/
def Memory.wf : Memory → Bool
  | [] => true
  | [c] => c.2 != unlistedByte
  | c :: d :: m => c.2 != unlistedByte && decide (c.1 < d.1) && Memory.wf (d :: m)

/-- Put an offset into a set. -/
def OffsetSet.insert : OffsetSet → Nat → OffsetSet
  | [], a => [a]
  | o :: os, a => if o < a then o :: OffsetSet.insert os a else if o = a then o :: os else a :: o :: os

/-- Put the offsets of `n` consecutive 32-bit slots into a set, the first at `a`. -/
def OffsetSet.insertSlots : OffsetSet → Nat → Nat → OffsetSet
  | os, _, 0 => os
  | os, a, n + 1 => OffsetSet.insertSlots (OffsetSet.insert os a) (a + 4) n

/-- The canonical form of a set of offsets. -/
def OffsetSet.wf : OffsetSet → Bool
  | [] => true
  | [_] => true
  | a :: b :: os => decide (a < b) && OffsetSet.wf (b :: os)

/-! ### Registers and buffers -/

/-- Element `i` of a buffer (10_state.md R34). -/
def State.elem (s : State) (b : Buf) (i : Nat) : Byte := s.mem.read (b.slot i)

/-- Elements `0..n-1` of a buffer. -/
def State.seq (s : State) (b : Buf) (n : Nat) : List Byte := (List.range n).map (s.elem b)

/-- The value of a buffer's length register (R33); CKW and EXP hold 8 elements (R34). -/
def State.len (s : State) : Buf → Nat
  | .pfx => s.pfxLen.toNat
  | .net => s.netLen.toNat
  | .hash => s.hashLen.toNat
  | .bytes => s.byteLen.toNat
  | .words => s.wordLen.toNat
  | .str => s.strLen.toNat
  | .ckw | .exp => Config.nCk

/-- Record that a register or element has been written since reset (R50). -/
def State.mark (s : State) (o : Nat) : State := { s with written := s.written.insert o }

/-- Write one element of a buffer. -/
def State.setElem (s : State) (b : Buf) (i : Nat) (v : Byte) : State :=
  { s with mem := s.mem.write (b.slot i) v, written := s.written.insert (b.slot i) }

/-- Write elements `0..` of a buffer; the elements past the sequence keep their values (00_scope.md R12,
93_implementation_defined.md U18). -/
def State.setElems (s : State) (b : Buf) (vs : List Byte) : State :=
  { s with mem := s.mem.writeSlots b.base vs, written := s.written.insertSlots b.base vs.length }

/-- Write a buffer's length register (R33); CKW and EXP have none. -/
def State.setLen (s : State) (b : Buf) (n : Length) : State :=
  match b with
  | .pfx => { s with pfxLen := n, written := s.written.insert Reg.pfxLen.offset }
  | .net => { s with netLen := n, written := s.written.insert Reg.netLen.offset }
  | .hash => { s with hashLen := n, written := s.written.insert Reg.hashLen.offset }
  | .bytes => { s with byteLen := n, written := s.written.insert Reg.byteLen.offset }
  | .words => { s with wordLen := n, written := s.written.insert Reg.wordLen.offset }
  | .str => { s with strLen := n, written := s.written.insert Reg.strLen.offset }
  | .ckw | .exp => s

/-- `BUF <- s` (00_scope.md R12): the elements, and the length register where the buffer has one. -/
def State.setSeq (s : State) (b : Buf) (vs : List Byte) : State :=
  (s.setElems b vs).setLen b (BitVec.ofNat 16 vs.length)

/-- Write ACC, both bus halves (R26). -/
def State.setAcc (s : State) (a : Acc) : State :=
  { s with acc := a, written := (s.written.insert Reg.accLo.offset).insert Reg.accHi.offset }

/-- Write TYPEBITS (R28). -/
def State.setTypebits (s : State) (v : Byte) : State :=
  { s with typebits := v, written := s.written.insert Reg.typebits.offset }

/-- Write SIZEBITS (R29). -/
def State.setSizebits (s : State) (v : Byte) : State :=
  { s with sizebits := v, written := s.written.insert Reg.sizebits.offset }

/-- Write VBYTE (R30). -/
def State.setVbyte (s : State) (v : Byte) : State :=
  { s with vbyte := v, written := s.written.insert Reg.vbyte.offset }

/-- Write TYPE (R31). -/
def State.setOutType (s : State) (v : Byte) : State :=
  { s with outType := v, written := s.written.insert Reg.outType.offset }

/-- Write SIZELEN (R32). -/
def State.setSizelen (s : State) (v : Byte) : State :=
  { s with sizelen := v, written := s.written.insert Reg.sizelen.offset }

/-! ### The bus view of the registers -/

/-- The value of ID (10_state.md R22). -/
def idValue : Datum := 0x43410001

/-- A register as the host reads it, unused bits zero (R21, R40). CMD reads 0 (R23). -/
def State.regValue (s : State) : Reg → Datum
  | .id => idValue
  | .cmd => 0
  | .status => s.status
  | .errcode => s.errcode.setWidth 32
  | .accLo => s.acc.extractLsb' 0 32
  | .accHi => (s.acc.extractLsb' 32 8).setWidth 32
  | .operand => s.operand.setWidth 32
  | .typebits => s.typebits.setWidth 32
  | .sizebits => s.sizebits.setWidth 32
  | .vbyte => s.vbyte.setWidth 32
  | .outType => s.outType.setWidth 32
  | .sizelen => s.sizelen.setWidth 32
  | .pfxLen => s.pfxLen.setWidth 32
  | .netLen => s.netLen.setWidth 32
  | .hashLen => s.hashLen.setWidth 32
  | .byteLen => s.byteLen.setWidth 32
  | .wordLen => s.wordLen.setWidth 32
  | .strLen => s.strLen.setWidth 32

/-- A slot as the host reads it (R34, R40). -/
def State.slotValue (s : State) : Slot → Datum
  | .reg r => s.regValue r
  | .elem b i => (s.elem b i).setWidth 32

/-- Store a host datum in a data or length register, ignoring the bits the register does not use (R21); ID, CMD, STATUS
and ERRCODE store nothing (R23, R39). A write to one half of ACC leaves the other (R26). -/
def State.storeReg (s : State) (r : Reg) (d : Datum) : State :=
  match r with
  | .id | .cmd | .status | .errcode => s
  | .accLo => { s with acc := s.acc.extractLsb' 32 8 ++ d, written := s.written.insert Reg.accLo.offset }
  | .accHi => { s with acc := d.extractLsb' 0 8 ++ s.acc.extractLsb' 0 32, written := s.written.insert Reg.accHi.offset }
  | .operand => { s with operand := d.setWidth 8, written := s.written.insert Reg.operand.offset }
  | .typebits => s.setTypebits (d.setWidth 8)
  | .sizebits => s.setSizebits (d.setWidth 8)
  | .vbyte => s.setVbyte (d.setWidth 8)
  | .outType => s.setOutType (d.setWidth 8)
  | .sizelen => s.setSizelen (d.setWidth 8)
  | .pfxLen => s.setLen .pfx (d.setWidth 16)
  | .netLen => s.setLen .net (d.setWidth 16)
  | .hashLen => s.setLen .hash (d.setWidth 16)
  | .byteLen => s.setLen .bytes (d.setWidth 16)
  | .wordLen => s.setLen .words (d.setWidth 16)
  | .strLen => s.setLen .str (d.setWidth 16)

/-! ### How a command ends -/

/-- What an error writes beside STATUS and ERRCODE: EXP on ChecksumMismatch, nothing otherwise (60_exceptions.md R243,
R248; 10_state.md R37). -/
def State.errorOutputs (e : Err) (s : State) : State :=
  match e with
  | .checksumMismatch expected => s.setElems .exp expected
  | _ => s

/-- A command ends with an error (60_exceptions.md R240, R248, R254): ERRCODE holds its code, and every output register
and buffer keeps its value. -/
def State.raise (e : Err) (s : State) : State := (s.errorOutputs e).complete e.code

/-- A command ends without error: its outputs stand, ERRCODE is 0 (R241, R254). -/
def State.finish (s : State) : State := s.complete 0

/-- The outcome of a command whose checks and outputs are `r`: the state with its outputs written, or an error on the
state as it was (00_scope.md R13). -/
def conclude (s : State) (r : Except Err State) : Host.Outcome State Fault Refusal :=
  match r with
  | .ok t => .next t.finish
  | .error e => .next (s.raise e)

/-- A check of a command's pseudocode: the error if the condition fails. -/
def require (cond : Bool) (e : Err) : Except Err Unit := if cond then .ok () else .error e

end Sys2Proof.Machine
end

