-- ==== Sys2Proof/Machine/Bus.lean ====
section
/-! DEFINITION. The host's transitions: bus reads and writes (20_memory.md R60 to R70), the start of a command
(60_exceptions.md R254), the busy hazard (70_reset_and_hazards.md R276, R277), reset (R270, R271) and the poll loop
WAIT (30_encoding.md R87). -/

namespace Sys2Proof.Machine

/-- Put a reply on the read log (00_scope.md R19). -/
def State.logRead (s : State) (off : Offset) (value : Datum) : State :=
  { s with readLog := { off := off, value := value } :: s.readLog }

/-- The bits a slot uses; its other bits read as zero and ignore writes (10_state.md R21, R34, R44). -/
def Slot.usedBits : Slot → Datum
  | .reg .id | .reg .accLo => 0xFFFFFFFF
  | .reg .cmd => 0x1FF
  | .reg .status => 0x1F
  | .reg .pfxLen | .reg .netLen | .reg .hashLen | .reg .byteLen | .reg .wordLen | .reg .strLen => 0xFFFF
  | .reg .errcode | .reg .accHi | .reg .operand | .reg .typebits | .reg .sizebits | .reg .vbyte | .reg .outType
  | .reg .sizelen | .elem _ _ => 0xFF

/-- A read that returns an unconstrained value in the bits `bits` and zero in the others: a fresh draw. -/
def State.drawRead (s : State) (off : Offset) (bits : Datum) : State :=
  { s with readLog := { off := off, value := Config.draw s.draws &&& bits } :: s.readLog, draws := s.draws + 1 }

/-- The bits that are unconstrained in a read that is not exact: in a slot not written since reset the bits it uses
(10_state.md R21, R50); while BUSY = 1 all of them (20_memory.md R70, 70_reset_and_hazards.md R277). Log 3. -/
def State.freeBits (s : State) (slot : Slot) : Datum := if s.busy then 0xFFFFFFFF else slot.usedBits

/-- The slots whose read is exact while BUSY = 1: ID, CMD and STATUS (70_reset_and_hazards.md R277). -/
def Slot.exactWhileBusy : Slot → Bool
  | .reg .id | .reg .cmd | .reg .status => true
  | _ => false

/-- The slots that hold no value the host or a command must first write: ID, CMD, STATUS and ERRCODE (10_state.md R49). -/
def Slot.alwaysDefined : Slot → Bool
  | .reg r => !r.isData
  | .elem _ _ => false

/-- The read of a slot is exact (10_state.md R40, R50; 70_reset_and_hazards.md R277): while BUSY = 1 only ID, CMD and
STATUS; otherwise every slot written since reset and every control register. -/
def State.readExact (s : State) (slot : Slot) : Bool :=
  if s.busy then slot.exactWhileBusy else slot.alwaysDefined || s.written.contains slot.offset

/-- A host read of a mapped slot. It changes no state of the block (20_memory.md R66). -/
def State.readSlot (s : State) (off : Offset) (slot : Slot) : State :=
  if s.readExact slot then s.logRead off (s.slotValue slot) else s.drawRead off (s.freeBits slot)

/-- An accepted CMD write (60_exceptions.md R254): PEND holds the word, DONE and ERR are cleared, and BUSY is 1. How
many host statements come before the completion is a free value (70_reset_and_hazards.md R280). -/
def State.accept (s : State) (w : Datum) : State :=
  { s with pend := some { word := w, delay := Config.latency s.draws }, done := false, err := false,
           draws := s.draws + 1 }

/-- A host write to a slot while BUSY = 0: CMD starts a command (10_state.md R23); ID, STATUS, ERRCODE, CKW and EXP
ignore it (R39); NET_LEN and NET elements also clear NET_VALID (R24, 46_address.md R211). -/
def State.writeIdle (s : State) (slot : Slot) (d : Datum) : State :=
  match slot with
  | .reg .cmd => s.accept d
  | .reg .netLen => { s.storeReg .netLen d with netValid := false }
  | .reg r => s.storeReg r d
  | .elem .net i => { s.setElem .net i (d.setWidth 8) with netValid := false }
  | .elem b i => if b.readOnly then s else s.setElem b i (d.setWidth 8)

/-- A host write to a slot (70_reset_and_hazards.md R276): while BUSY = 1 it is ignored, and sets OVR unless the slot is
STATUS. -/
def State.writeSlot (s : State) (slot : Slot) (d : Datum) : State :=
  if s.busy then (if slot = .reg .status then s else { s with ovr := true }) else s.writeIdle slot d

/-- The slot a bus access reaches: none when the block answers a bus error (20_memory.md R61, R62). -/
def accessSlot (width : Width) (off : Offset) : Option Slot :=
  if width == .w32 then slotAt off.toNat else none

/-- A host read, `BusRead` (00_scope.md R12). -/
def busRead (width : Width) (off : Offset) (s : State) : Host.Outcome State Fault Refusal :=
  match accessSlot width off with
  | none => .fault .busErr
  | some slot => .next (s.readSlot off slot)

/-- A host write, `BusWrite` (00_scope.md R12). -/
def busWrite (width : Width) (off : Offset) (d : Datum) (s : State) : Host.Outcome State Fault Refusal :=
  match accessSlot width off with
  | none => .fault .busErr
  | some slot => .next (s.writeSlot slot d)

/-- Reset of the block (70_reset_and_hazards.md R270, R271): every register as in `State.reset`, a pending command
abandoned. The host, its log, the draw counter and the UNWRITTEN mark are not the block's and stay (log 9). -/
def State.resetBlock (s : State) : State :=
  { State.reset with host := s.host, readLog := s.readLog, draws := s.draws, unwrittenUse := s.unwrittenUse }

/-- One turn of WAIT (30_encoding.md R87): read STATUS, and go on with `rest` once BUSY = 0. -/
def State.poll (s : State) (rest : List HostStmt) : State :=
  let t := s.logRead (BitVec.ofNat 12 Reg.status.offset) s.status
  if s.busy then t else { t with host := rest }

/-- A host turn that has been taken brings the completion of a pending command nearer (70_reset_and_hazards.md R280). -/
def State.tick (s : State) : State :=
  { s with pend := s.pend.map fun p => { p with delay := p.delay - 1 } }

/-- The block with the host's current statement taken, `rest` being what is left. -/
def State.advance (s : State) (rest : List HostStmt) : State := { s.tick with host := rest }

/-- The host's next transition. With no statement left the block idles with all state held (60_exceptions.md R260). -/
def hostStep (s : State) : Host.Outcome State Fault Refusal :=
  match s.host with
  | [] => .next s
  | .rd width off :: rest => busRead width off (s.advance rest)
  | .wr width off d :: rest => busWrite width off d (s.advance rest)
  | .wait :: rest => .next (s.tick.poll rest)
  | .reset :: rest => .next { s.resetBlock with host := rest }
  | .inexpressible :: _ => .refused .inexpressible

end Sys2Proof.Machine
end

