-- ==== Sys2Proof/Machine/Operands.lean ====
section
/-! DEFINITION. Reading a command's operands: a sequence from a buffer and its length register, with the input length
check (60_exceptions.md R245), and the character classes (10_state.md R48). -/

namespace Sys2Proof.Machine

/-- The input length check: LengthExceeded when a length register exceeds its buffer's capacity (60_exceptions.md R245 (a)). -/
def State.lengthOk (s : State) (b : Buf) : Bool := decide (s.len b ≤ b.cap)

/-- The sequence a buffer and its length register describe: elements `0..LEN-1` (10_state.md R34). -/
def State.input (s : State) (b : Buf) : List Byte := s.seq b (s.len b)

/-! ### Character classes (10_state.md R48) -/

/-- `Upper(c)`: 'A' to 'Z'. -/
def isUpper (c : Byte) : Bool := decide (0x41 ≤ c.toNat) && decide (c.toNat ≤ 0x5A)

/-- `LowerLetter(c)`: 'a' to 'z'. -/
def isLowerLetter (c : Byte) : Bool := decide (0x61 ≤ c.toNat) && decide (c.toNat ≤ 0x7A)

/-- `LowerC(c)`. -/
def lowerC (c : Byte) : Byte := if isUpper c then c + 0x20 else c

/-- `Lower(s)`. -/
def lower (s : List Byte) : List Byte := s.map lowerC

/-- `Mixed(s)`: an uppercase letter and a lowercase letter both occur. -/
def mixed (s : List Byte) : Bool := s.any isUpper && s.any isLowerLetter

/-- `PrefixCharOK(c)` (R48). It admits ':' (43_checksum.md R148). That the ADDR commands therefore take a network
prefix with a ':', where a corner case of 46_address.md R210 says they fail, is DESIGN CHOICE, log 15: unsafe. -/
def prefixCharOk (c : Byte) : Bool := decide (33 ≤ c.toNat) && decide (c.toNat ≤ 126) && !isUpper c

/-- A word element is in range (10_state.md R35). -/
def wordOk (w : Byte) : Bool := decide (w.toNat ≤ 31)

end Sys2Proof.Machine
end

