-- ==== Sys2Proof/Machine/Charset.lean ====
section
/-! DEFINITION. The base-32 charset codec: CHR.ENC and CHR.DEC (41_charset.md). -/

namespace Sys2Proof.Machine

/-- The alphabet "qpzry9x8gf2tvdw0s3jn54khce6mua7l" in ASCII, position `v` holding the character of word `v` (R100). -/
def charset : List Byte :=
  [0x71, 0x70, 0x7A, 0x72, 0x79, 0x39, 0x78, 0x38] ++ [0x67, 0x66, 0x32, 0x74, 0x76, 0x64, 0x77, 0x30]
    ++ [0x73, 0x33, 0x6A, 0x6E, 0x35, 0x34, 0x6B, 0x68] ++ [0x63, 0x65, 0x36, 0x6D, 0x75, 0x61, 0x37, 0x6C]

/-- The character of a word, for a word in range (R100). -/
def charAt (w : Byte) : Byte := charset.getD w.toNat 0

/-- `CharIndex(c)` (R103). -/
def charIndex (c : Byte) : Option Byte := (charset.findIdx? (· == c)).map (BitVec.ofNat 8)

/-- `CharEnc(ws)` (R101). -/
def charEnc : List Byte → Except Err (List Byte)
  | [] => .ok []
  | w :: ws => if wordOk w then (charEnc ws).map (charAt w :: ·) else .error .invalidWord

/-- `CharDec(s)` (R104). -/
def charDec : List Byte → Except Err (List Byte)
  | [] => .ok []
  | c :: cs =>
    match charIndex c with
    | none => .error .invalidCharacter
    | some v => (charDec cs).map (v :: ·)

/-- The checks and outputs of CHR.ENC (R102). -/
def chrEncResult (s : State) : Except Err State := do
  require (s.lengthOk .words) .lengthExceeded
  let str ← charEnc (s.input .words)
  return s.setSeq .str str

/-- CHR.ENC (R102). -/
def execChrEnc (s : State) : Host.Outcome State Fault Refusal := conclude s (chrEncResult s)

/-- The checks and outputs of CHR.DEC (R105); the output capacity is checked last (60_exceptions.md R245 (b)). -/
def chrDecResult (s : State) : Except Err State := do
  require (s.lengthOk .str) .lengthExceeded
  let ws ← charDec (s.input .str)
  require (ws.length ≤ Buf.cap .words) .lengthExceeded
  return s.setSeq .words ws

/-- CHR.DEC (R105). -/
def execChrDec (s : State) : Host.Outcome State Fault Refusal := conclude s (chrDecResult s)

end Sys2Proof.Machine
end

