-- ==== Sys2Proof/Machine/Checksum.lean ====
section
/-! DEFINITION. The checksum polynomial engine: ACC.INIT, POLY.STEP, POLY.FEEDW, POLY.FEEDC, POLY.FINAL and CHECKSUM
(43_checksum.md). -/

namespace Sys2Proof.Machine

/-- The five generators (R140). -/
def gen : Nat → Acc
  | 0 => 0x98F2BC8E61
  | 1 => 0x79B76D99E2
  | 2 => 0xF33E5FB3C4
  | 3 => 0xAE2EABE2A8
  | 4 => 0x1E4F43E470
  | _ => 0

/-- Generator `i` if bit `i` of `b = pre[39:35]` is set (R140). -/
def genTerm (pre : Acc) (i : Nat) : Acc := if pre.getLsbD (35 + i) then gen i else 0

/-- `Step(pre)` (R140): the low 35 bits shifted left by 5, XORed with the generators the top 5 bits select. -/
def polyStep (pre : Acc) : Acc :=
  ((pre.extractLsb' 0 35).setWidth 40 <<< 5) ^^^ genTerm pre 0 ^^^ genTerm pre 1 ^^^ genTerm pre 2 ^^^ genTerm pre 3
    ^^^ genTerm pre 4

/-- `Step` applied `n` times. -/
def polySteps : Nat → Acc → Acc
  | 0, a => a
  | n + 1, a => polySteps n (polyStep a)

/-- One step, then absorb a word (R146). -/
def absorbWord (a : Acc) (w : Byte) : Acc := polyStep a ^^^ w.setWidth 40

/-- One step, then absorb the low 5 bits of a prefix character (R148). -/
def absorbChar (a : Acc) (c : Byte) : Acc := polyStep a ^^^ (c &&& 0x1F).setWidth 40

/-- Step 2 of `Checksum` (R147): absorb the prefix characters in order. -/
def absorbPrefix (a : Acc) : List Byte → Except Err Acc
  | [] => .ok a
  | c :: cs => if prefixCharOk c then absorbPrefix (absorbChar a c) cs else .error .invalidPrefixChar

/-- Step 4 of `Checksum` (R147): absorb the words in order. -/
def absorbWords (a : Acc) : List Byte → Except Err Acc
  | [] => .ok a
  | w :: ws => if wordOk w then absorbWords (absorbWord a w) ws else .error .invalidWord

/-- Digit `i` of a finished accumulator, most significant first: `a[39-5i : 35-5i]` (R145). -/
def ckDigit (a : Acc) (i : Nat) : Byte := (a.extractLsb' (35 - 5 * i) 5).setWidth 8

/-- The 8 checksum words of a finished accumulator (R145). -/
def ckWords (a : Acc) : List Byte := (List.range Config.nCk).map (ckDigit a)

/-- `Checksum(p, ws)`, steps 1 to 7 (R147): the final accumulator; its 8 words are `ckWords` of it. -/
def checksumAcc (p ws : List Byte) : Except Err Acc := do
  let a ← absorbPrefix 1 p
  let a ← absorbWords (polyStep a) ws
  return polySteps 8 a ^^^ 1

/-- ACC.INIT (R143). -/
def execAccInit (s : State) : Host.Outcome State Fault Refusal := conclude s (.ok (s.setAcc 1))

/-- POLY.STEP (R144). -/
def execPolyStep (s : State) : Host.Outcome State Fault Refusal := conclude s (.ok (s.setAcc (polyStep s.acc)))

/-- The checks and outputs of POLY.FEEDW (R146). -/
def polyFeedwResult (s : State) : Except Err State := do
  require (wordOk s.operand) .invalidWord
  return s.setAcc (absorbWord s.acc s.operand)

/-- POLY.FEEDW (R146). -/
def execPolyFeedw (s : State) : Host.Outcome State Fault Refusal := conclude s (polyFeedwResult s)

/-- The checks and outputs of POLY.FEEDC (R148). -/
def polyFeedcResult (s : State) : Except Err State := do
  require (prefixCharOk s.operand) .invalidPrefixChar
  return s.setAcc (absorbChar s.acc s.operand)

/-- POLY.FEEDC (R148). -/
def execPolyFeedc (s : State) : Host.Outcome State Fault Refusal := conclude s (polyFeedcResult s)

/-- Write a finished accumulator to ACC and its words to CKW (R145, R149). -/
def State.setChecksum (s : State) (a : Acc) : State := (s.setAcc a).setElems .ckw (ckWords a)

/-- POLY.FINAL (R145). -/
def execPolyFinal (s : State) : Host.Outcome State Fault Refusal := conclude s (.ok (s.setChecksum (s.acc ^^^ 1)))

/-- The checks and outputs of CHECKSUM (R149). -/
def checksumResult (s : State) : Except Err State := do
  require (s.lengthOk .pfx && s.lengthOk .words) .lengthExceeded
  let a ← checksumAcc (s.input .pfx) (s.input .words)
  return s.setChecksum a

/-- CHECKSUM (R149). -/
def execChecksum (s : State) : Host.Outcome State Fault Refusal := conclude s (checksumResult s)

end Sys2Proof.Machine
end

