-- ==== Sys2Proof/Machine/Framer.lean ====
section
/-! DEFINITION. The cashaddr framer: FRM.ENC and FRM.DEC (44_framer.md). -/

namespace Sys2Proof.Machine

/-- The separator ':' (R173). -/
def sep : Byte := 0x3A

/-- `FrameEnc(p, ws, inc)` (R170). -/
def frameEnc (p ws : List Byte) (inc : Bool) : Except Err (List Byte) := do
  require (!p.isEmpty) .emptyPrefix
  let lp := lower p
  let a ← checksumAcc lp ws
  let body ← charEnc ws
  let ck ← charEnc (ckWords a)
  return if inc then lp ++ sep :: (body ++ ck) else body ++ ck

/-- The index of the last ':' (R173), none where there is no ':'. -/
def lastSep : List Byte → Option Nat
  | [] => none
  | c :: cs =>
    match lastSep cs with
    | some k => some (k + 1)
    | none => if c = sep then some 0 else none

/-- `FrameDec(s)` from its fourth line on (R175): the lowercased string `t` with its last ':' at index `k`. The expected
checksum is reported as its 8 characters. -/
def frameDecAt (t : List Byte) (k : Nat) : Except Err (List Byte × List Byte) := do
  require (k != 0) .missingSeparator
  let p := t.take k
  let q := t.drop (k + 1)
  require (decide (8 ≤ q.length)) .payloadTooShort
  let v ← charDec q
  let d := v.take (v.length - 8)
  let c := v.drop (v.length - 8)
  let a ← checksumAcc p d
  require (ckWords a == c) (.checksumMismatch ((ckWords a).map charAt))
  return (p, d)

/-- `FrameDec(s)` (R175): prefix and data words. -/
def frameDec (s : List Byte) : Except Err (List Byte × List Byte) :=
  if mixed s then .error .mixedCase
  else
    match lastSep (lower s) with
    | none => .error .missingSeparator
    | some k => frameDecAt (lower s) k

/-- The checks and outputs of FRM.ENC (R171). -/
def frmEncResult (nopfx : Bool) (s : State) : Except Err State := do
  require (s.lengthOk .pfx && s.lengthOk .words) .lengthExceeded
  let str ← frameEnc (s.input .pfx) (s.input .words) (!nopfx)
  return s.setSeq .str str

/-- FRM.ENC (R171). -/
def execFrmEnc (nopfx : Bool) (s : State) : Host.Outcome State Fault Refusal := conclude s (frmEncResult nopfx s)

/-- The checks and outputs of FRM.DEC (R176). -/
def frmDecResult (s : State) : Except Err State := do
  require (s.lengthOk .str) .lengthExceeded
  let r ← frameDec (s.input .str)
  require (decide (r.1.length ≤ Buf.cap .pfx) && decide (r.2.length ≤ Buf.cap .words)) .lengthExceeded
  return (s.setSeq .pfx r.1).setSeq .words r.2

/-- FRM.DEC (R176). -/
def execFrmDec (s : State) : Host.Outcome State Fault Refusal := conclude s (frmDecResult s)

end Sys2Proof.Machine
end

