-- ==== Sys2Proof/Machine/Radix.lean ====
section
/-! DEFINITION. The 8-bit to 5-bit radix converter: CVT.8TO5 and CVT.5TO8 (42_radix.md). The bit order is the one the
spec decides (R120). -/

namespace Sys2Proof.Machine

/-- The live bits of a conversion: at most 12 (R121). -/
abbrev RadixAcc := BitVec 12

/-- The body of the `while` loops of R121 and R126: while at least `width` bits are live, cut the topmost `width` of
them off as one output element. Answers the elements and the number of bits left. `fuel` bounds the turns. -/
def cutGroups (width : Nat) : Nat → RadixAcc → Nat → List Byte × Nat
  | 0, _, bits => ([], bits)
  | fuel + 1, acc, bits =>
    if width ≤ bits then
      let cut := cutGroups width fuel acc (bits - width)
      (((acc >>> (bits - width)).setWidth width).setWidth 8 :: cut.1, cut.2)
    else ([], bits)

/-- The loop of `B2W` over the bytes, with the live bits `acc` and their number `bits`; at most two words come out of
one byte (R121). -/
def b2wLoop (acc : RadixAcc) (bits : Nat) : List Byte → List Byte
  | [] => if bits > 0 then [((acc <<< (5 - bits)).setWidth 5).setWidth 8] else []
  | b :: bs =>
    let acc' := (acc <<< 8) ||| b.setWidth 12
    let cut := cutGroups 5 2 acc' (bits + 8)
    cut.1 ++ b2wLoop acc' cut.2 bs

/-- `B2W(bs)` (R121). -/
def b2w (bs : List Byte) : List Byte := b2wLoop 0 0 bs

/-- The loop of `W2B` over the words (R126), with its two padding checks at the end (R124). -/
def w2bLoop (acc : RadixAcc) (bits : Nat) : List Byte → Except Err (List Byte)
  | [] =>
    if bits ≥ 5 then .error .invalidPadding
    else if acc &&& ((1 <<< bits) - 1) != 0 then .error .invalidPadding
    else .ok []
  | w :: ws =>
    if wordOk w then
      let acc' := (acc <<< 5) ||| w.setWidth 12
      let cut := cutGroups 8 1 acc' (bits + 5)
      (w2bLoop acc' cut.2 ws).map (cut.1 ++ ·)
    else .error .invalidWord

/-- `W2B(ws)` (R126). -/
def w2b (ws : List Byte) : Except Err (List Byte) := w2bLoop 0 0 ws

/-- The checks and outputs of CVT.8TO5 (R123). -/
def cvt8to5Result (s : State) : Except Err State := do
  require (s.lengthOk .bytes) .lengthExceeded
  return s.setSeq .words (b2w (s.input .bytes))

/-- CVT.8TO5 (R123). -/
def execCvt8to5 (s : State) : Host.Outcome State Fault Refusal := conclude s (cvt8to5Result s)

/-- The checks and outputs of CVT.5TO8 (R129). -/
def cvt5to8Result (s : State) : Except Err State := do
  require (s.lengthOk .words) .lengthExceeded
  let bs ← w2b (s.input .words)
  return s.setSeq .bytes bs

/-- CVT.5TO8 (R129). -/
def execCvt5to8 (s : State) : Host.Outcome State Fault Refusal := conclude s (cvt5to8Result s)

end Sys2Proof.Machine
end

