-- ==== Sys2Proof/Machine/VersionByte.lean ====
section
/-! DEFINITION. The version byte and the type and size codes: VB.PACK, VB.UNPACK, VB.ENCTS and VB.DECTS
(45_version_byte.md). -/

namespace Sys2Proof.Machine

/-- `SIZES`: the hash length of each size code (R191). -/
def sizes : List Nat := [20, 24, 28, 32, 40, 48, 56, 64]

/-- The size code of a hash length, none where the length is not in `SIZES` (R191, R194). -/
def sizeCode (n : Nat) : Option Byte := (sizes.findIdx? (· == n)).map (BitVec.ofNat 8)

/-- The hash length of a size code 0 to 7 (R191). -/
def sizeLength (sb : Byte) : Nat := sizes.getD sb.toNat 0

/-- A type code in range (R192). -/
def typebitsOk (tb : Byte) : Bool := decide (tb.toNat ≤ 15)

/-- A size code in range (R192). -/
def sizebitsOk (sb : Byte) : Bool := decide (sb.toNat ≤ 7)

/-- One of the two known types, PKH = 0 and SH = 1 (10_state.md R31). -/
def typeKnown (t : Byte) : Bool := t == 0 || t == 1

/-- The version byte of two codes (R190). -/
def versionByte (tb sb : Byte) : Byte := (tb <<< 3) ||| sb

/-- The type code of a version byte, 0 to 31 (R193). -/
def vbType (vb : Byte) : Byte := vb >>> 3

/-- The size code of a version byte, 0 to 7 (R193). -/
def vbSize (vb : Byte) : Byte := vb &&& 0x7

/-- The checks and outputs of VB.PACK (R192). -/
def vbPackResult (s : State) : Except Err State := do
  require (typebitsOk s.typebits) .invalidTypeBits
  require (sizebitsOk s.sizebits) .invalidSizeBits
  return s.setVbyte (versionByte s.typebits s.sizebits)

/-- VB.PACK (R192). -/
def execVbPack (s : State) : Host.Outcome State Fault Refusal := conclude s (vbPackResult s)

/-- The checks and outputs of VB.UNPACK (R193). -/
def vbUnpackResult (s : State) : Except Err State := do
  require (typebitsOk (vbType s.vbyte)) .invalidTypeBits
  return (s.setTypebits (vbType s.vbyte)).setSizebits (vbSize s.vbyte)

/-- VB.UNPACK (R193). -/
def execVbUnpack (s : State) : Host.Outcome State Fault Refusal := conclude s (vbUnpackResult s)

/-- The size code of a hash length, or UnsupportedHashSize (R194, 46_address.md R218). -/
def hashSizeCode (n : Nat) : Except Err Byte :=
  match sizeCode n with
  | none => .error .unsupportedHashSize
  | some k => .ok k

/-- The checks and outputs of VB.ENCTS (R194). HASH_LEN is not compared with HASH's capacity: no element is read. -/
def vbEnctsResult (s : State) : Except Err State := do
  require (typeKnown s.outType) .unknownType
  let sb ← hashSizeCode s.hashLen.toNat
  return (s.setTypebits s.outType).setSizebits sb

/-- VB.ENCTS (R194). -/
def execVbEncts (s : State) : Host.Outcome State Fault Refusal := conclude s (vbEnctsResult s)

/-- The checks and outputs of VB.DECTS (R195). -/
def vbDectsResult (s : State) : Except Err State := do
  require (typeKnown s.typebits) .invalidType
  require (sizebitsOk s.sizebits) .invalidSize
  return (s.setOutType s.typebits).setSizelen (BitVec.ofNat 8 (sizeLength s.sizebits))

/-- VB.DECTS (R195). -/
def execVbDects (s : State) : Host.Outcome State Fault Refusal := conclude s (vbDectsResult s)

end Sys2Proof.Machine
end

