-- ==== Sys2Proof/Machine/Address.lean ====
section
/-! DEFINITION. The network prefix and the CashAddress layer: CFG.NET, ADDR.ENCRAW, ADDR.ENC, ADDR.DECRAW and ADDR.DEC
(46_address.md). -/

namespace Sys2Proof.Machine

/-- The checks and outputs of CFG.NET other than NET_VALID (R210): NET lowercased; NET_LEN keeps its value. -/
def cfgNetResult (s : State) : Except Err State := do
  require (s.lengthOk .net) .lengthExceeded
  require (s.netLen != 0) .invalidPrefix
  require (!mixed (s.input .net)) .invalidPrefix
  return s.setElems .net (lower (s.input .net))

/-- CFG.NET (R210): every error clears NET_VALID, the one output that an error of CFG.NET writes (60_exceptions.md
R248); completion without error sets it. -/
def execCfgNet (s : State) : Host.Outcome State Fault Refusal :=
  match cfgNetResult s with
  | .ok t => .next { t with netValid := true }.finish
  | .error e => .next ({ s with netValid := false }.raise e)

/-- `AddrEncRaw(net, tb, sb, h, inc)` (R216). A ':' in the network prefix is encoded like any other character that
passes `PrefixCharOK` (R213), against a corner case of R210. DESIGN CHOICE, log 15: unsafe. -/
def addrEncRaw (net : List Byte) (tb sb : Byte) (h : List Byte) (inc : Bool) : Except Err (List Byte) := do
  require (typebitsOk tb) .invalidTypeBits
  require (sizebitsOk sb) .invalidSizeBits
  frameEnc net (b2w (versionByte tb sb :: h)) inc

/-- The checks and outputs of ADDR.ENCRAW (R217). -/
def addrEncrawResult (nopfx : Bool) (s : State) : Except Err State := do
  require (s.lengthOk .hash) .lengthExceeded
  require s.netValid .networkNotConfigured
  let str ← addrEncRaw (s.input .net) s.typebits s.sizebits (s.input .hash) (!nopfx)
  return s.setSeq .str str

/-- ADDR.ENCRAW (R217). -/
def execAddrEncraw (nopfx : Bool) (s : State) : Host.Outcome State Fault Refusal :=
  conclude s (addrEncrawResult nopfx s)

/-- The checks and outputs of ADDR.ENC (R218). -/
def addrEncResult (nopfx : Bool) (s : State) : Except Err State := do
  require (s.lengthOk .hash) .lengthExceeded
  require s.netValid .networkNotConfigured
  require (typeKnown s.outType) .unknownType
  let sb ← hashSizeCode s.hashLen.toNat
  let str ← addrEncRaw (s.input .net) s.outType sb (s.input .hash) (!nopfx)
  return s.setSeq .str str

/-- ADDR.ENC (R218). -/
def execAddrEnc (nopfx : Bool) (s : State) : Host.Outcome State Fault Refusal := conclude s (addrEncResult nopfx s)

/-- The string that `AddrDecRaw` frames: without a ':' as given, the network's prefix is prepended (R219). -/
def withImplicitPrefix (net s : List Byte) : List Byte := if s.contains sep then s else net ++ sep :: s

/-- A decoded address: type code, size code, hash. -/
structure RawAddress where
  tb   : Byte
  sb   : Byte
  hash : List Byte
  deriving DecidableEq, Repr

/-- `AddrDecRaw(net, s)` after the framer: split the payload's bytes (R222). -/
def splitPayload (bs : List Byte) : Except Err RawAddress :=
  match bs with
  | [] => .error .missingVersionByte
  | vb :: h =>
    if typebitsOk (vbType vb) then .ok { tb := vbType vb, sb := vbSize vb, hash := h } else .error .invalidTypeBits

/-- `AddrDecRaw(net, s)` (R222). A network prefix with a ':' decodes, since the separator is the last ':' (44_framer.md
R173), against a corner case of R210. DESIGN CHOICE, log 15: unsafe. -/
def addrDecRaw (net s : List Byte) : Except Err RawAddress := do
  let r ← frameDec (withImplicitPrefix net s)
  require (r.1 == net) .prefixMismatch
  let bs ← w2b r.2
  splitPayload bs

/-- The checks and outputs of ADDR.DECRAW (R223). -/
def addrDecrawResult (s : State) : Except Err State := do
  require (s.lengthOk .str) .lengthExceeded
  require s.netValid .networkNotConfigured
  let r ← addrDecRaw (s.input .net) (s.input .str)
  require (decide (r.hash.length ≤ Buf.cap .hash)) .lengthExceeded
  return ((s.setTypebits r.tb).setSizebits r.sb).setSeq .hash r.hash

/-- ADDR.DECRAW (R223). -/
def execAddrDecraw (s : State) : Host.Outcome State Fault Refusal := conclude s (addrDecrawResult s)

/-- The checks and outputs of ADDR.DEC (R224). The InvalidSize check is kept in its place and never fails, since a
version byte's size code has 3 bits (93_implementation_defined.md U9). -/
def addrDecResult (s : State) : Except Err State := do
  require (s.lengthOk .str) .lengthExceeded
  require s.netValid .networkNotConfigured
  let r ← addrDecRaw (s.input .net) (s.input .str)
  require (typeKnown r.tb) .invalidType
  require (sizebitsOk r.sb) .invalidSize
  require (r.hash.length == sizeLength r.sb) .hashLengthMismatch
  return (s.setOutType r.tb).setSeq .hash r.hash

/-- ADDR.DEC (R224). -/
def execAddrDec (s : State) : Host.Outcome State Fault Refusal := conclude s (addrDecResult s)

end Sys2Proof.Machine
end

