-- ==== Sys2Proof/Machine/Dispatch.lean ====
section
/-! DEFINITION. One arm per command: the engine's transition for it (60_exceptions.md R254). -/

namespace Sys2Proof.Machine

/-- The completion of a command on the state at its transition (00_scope.md R13, R18). -/
def exec (i : Instr) (s : State) : Host.Outcome State Fault Refusal :=
  match i with
  | .cfgNet => Sys2Proof.Machine.execCfgNet s
  | .chrEnc => Sys2Proof.Machine.execChrEnc s
  | .chrDec => Sys2Proof.Machine.execChrDec s
  | .cvt8to5 => Sys2Proof.Machine.execCvt8to5 s
  | .cvt5to8 => Sys2Proof.Machine.execCvt5to8 s
  | .accInit => Sys2Proof.Machine.execAccInit s
  | .polyStep => Sys2Proof.Machine.execPolyStep s
  | .polyFeedw => Sys2Proof.Machine.execPolyFeedw s
  | .polyFeedc => Sys2Proof.Machine.execPolyFeedc s
  | .polyFinal => Sys2Proof.Machine.execPolyFinal s
  | .checksum => Sys2Proof.Machine.execChecksum s
  | .frmEnc nopfx => Sys2Proof.Machine.execFrmEnc nopfx s
  | .frmDec => Sys2Proof.Machine.execFrmDec s
  | .vbPack => Sys2Proof.Machine.execVbPack s
  | .vbUnpack => Sys2Proof.Machine.execVbUnpack s
  | .vbEncts => Sys2Proof.Machine.execVbEncts s
  | .vbDects => Sys2Proof.Machine.execVbDects s
  | .addrEncraw nopfx => Sys2Proof.Machine.execAddrEncraw nopfx s
  | .addrEnc nopfx => Sys2Proof.Machine.execAddrEnc nopfx s
  | .addrDecraw => Sys2Proof.Machine.execAddrDecraw s
  | .addrDec => Sys2Proof.Machine.execAddrDec s

end Sys2Proof.Machine
end

