-- ==== Sys2Proof/Machine/Reads.lean ====
section
/-! DEFINITION. Which registers and buffer elements of unspecified reset contents a command's pseudocode evaluates on
the path taken to its outcome (10_state.md R50, 70_reset_and_hazards.md R273), as window offsets. Where the pseudocode
leaves the order of evaluation open, both operands count as read (log 11). -/

namespace Sys2Proof.Machine

/-- The offsets of elements `0..n-1` of a buffer. -/
def slotsOf (b : Buf) (n : Nat) : List Nat := (List.range n).map b.slot

/-- How many elements a scan evaluates that stops after the first element failing `ok` (R50, on CHR.ENC). -/
def scanned (ok : Byte → Bool) : List Byte → Nat
  | [] => 0
  | v :: vs => if ok v then scanned ok vs + 1 else 1

/-- The elements of a buffer's input sequence that a scan evaluates. -/
def State.scan (s : State) (b : Buf) (ok : Byte → Bool) : List Nat := slotsOf b (scanned ok (s.input b))

/-- The elements of a buffer's input sequence. -/
def State.whole (s : State) (b : Buf) : List Nat := slotsOf b (s.len b)

/-- The two bus halves of ACC (R26). -/
def accSlots : List Nat := [Reg.accLo.offset, Reg.accHi.offset]

/-- `offs` if the path goes on past a check, nothing if it ends there. -/
def onlyIf (cond : Bool) (offs : List Nat) : List Nat := if cond then offs else []

/-- What ADDR.DECRAW and ADDR.DEC evaluate (46_address.md R222 to R224). -/
def addrDecReads (s : State) : List Nat :=
  Reg.strLen.offset :: onlyIf (s.lengthOk .str && s.netValid)
    (s.whole .str ++ Reg.netLen.offset :: s.whole .net)

/-- The offsets a command reads on its path (R50, R273). -/
def reads (i : Instr) (s : State) : List Nat :=
  match i with
  | .cfgNet => Reg.netLen.offset :: onlyIf (s.lengthOk .net) (s.whole .net)
  | .chrEnc => Reg.wordLen.offset :: onlyIf (s.lengthOk .words) (s.scan .words wordOk)
  | .chrDec => Reg.strLen.offset :: onlyIf (s.lengthOk .str) (s.scan .str fun c => (charIndex c).isSome)
  | .cvt8to5 => Reg.byteLen.offset :: onlyIf (s.lengthOk .bytes) (s.whole .bytes)
  | .cvt5to8 => Reg.wordLen.offset :: onlyIf (s.lengthOk .words) (s.scan .words wordOk)
  | .accInit => []
  | .polyStep => accSlots
  | .polyFeedw => Reg.operand.offset :: onlyIf (wordOk s.operand) accSlots
  | .polyFeedc => Reg.operand.offset :: onlyIf (prefixCharOk s.operand) accSlots
  | .polyFinal => accSlots
  | .checksum =>
    [Reg.pfxLen.offset, Reg.wordLen.offset] ++ onlyIf (s.lengthOk .pfx && s.lengthOk .words)
      (s.scan .pfx prefixCharOk ++ onlyIf ((s.input .pfx).all prefixCharOk) (s.scan .words wordOk))
  | .frmEnc _ =>
    [Reg.pfxLen.offset, Reg.wordLen.offset] ++ onlyIf (s.lengthOk .pfx && s.lengthOk .words && s.pfxLen != 0)
      (s.whole .pfx ++ onlyIf ((lower (s.input .pfx)).all prefixCharOk) (s.scan .words wordOk))
  | .frmDec => Reg.strLen.offset :: onlyIf (s.lengthOk .str) (s.whole .str)
  | .vbPack => [Reg.typebits.offset, Reg.sizebits.offset]
  | .vbUnpack => [Reg.vbyte.offset]
  | .vbEncts => Reg.outType.offset :: onlyIf (typeKnown s.outType) [Reg.hashLen.offset]
  | .vbDects => Reg.typebits.offset :: onlyIf (typeKnown s.typebits) [Reg.sizebits.offset]
  | .addrEncraw _ =>
    Reg.hashLen.offset :: onlyIf (s.lengthOk .hash && s.netValid)
      ([Reg.typebits.offset, Reg.sizebits.offset, Reg.netLen.offset] ++
        onlyIf (typebitsOk s.typebits && sizebitsOk s.sizebits) (s.whole .hash ++ s.whole .net))
  | .addrEnc _ =>
    Reg.hashLen.offset :: onlyIf (s.lengthOk .hash && s.netValid)
      (Reg.outType.offset :: onlyIf (typeKnown s.outType && (sizeCode s.hashLen.toNat).isSome)
        (s.whole .hash ++ Reg.netLen.offset :: s.whole .net))
  | .addrDecraw => addrDecReads s
  | .addrDec => addrDecReads s

/-- The command reads a register or element that has not been written since reset (R50). -/
def readsUnwritten (i : Instr) (s : State) : Bool := (reads i s).any fun o => !s.written.contains o

/-- Mark that the command reads an unwritten register or element; the mark is never cleared (R50, 60_exceptions.md R254;
log 2). -/
def State.noteReads (i : Instr) (s : State) : State :=
  { s with unwrittenUse := s.unwrittenUse || readsUnwritten i s }

end Sys2Proof.Machine
end

