-- ==== Sys2Proof/Machine/Engine.lean ====
section
/-! DEFINITION. The engine's one transition, and which agent moves next (00_scope.md R17, 60_exceptions.md R254,
70_reset_and_hazards.md R280). -/

namespace Sys2Proof.Machine

/-- The engine completes the command word `w` (60_exceptions.md R254): an illegal word ends in IllegalCommand before
anything else (R244, 30_encoding.md R84); a legal one runs its command's rule on the values the registers and elements
hold. Where one of those was never written, the hardware goes on with some value (R261) and so does this machine, with
the mark of log 2 set; what the spec's models do there is `modelStep` (Outcome.lean). -/
def completeCommand (w : Datum) (s : State) : Host.Outcome State Fault Refusal :=
  match decode w with
  | .error _ => .next (s.raise .illegalCommand)
  | .ok i => exec i (s.noteReads i)

/-- One transition of the block and its host. With a command pending, the engine moves next when the command's latency
has run out or the host has nothing left to do, so the completion is always eventually taken (70_reset_and_hazards.md
R280; log 5); otherwise the host moves. -/
def transition (s : State) : Host.Outcome State Fault Refusal :=
  match s.pend with
  | none => hostStep s
  | some p => if p.delay == 0 || s.host.isEmpty then completeCommand p.word s else hostStep s

/-- The state in which the command word is pending and the engine moves next. A command reaches PEND by a CMD write
(60_exceptions.md R254); this stands for that write. Log 6. -/
def State.withPending (s : State) (w : Datum) : State := { s with pend := some { word := w, delay := 0 } }

end Sys2Proof.Machine
end

