-- ==== Sys2Proof/Machine/Step.lean ====
section
/-! DEFINITION. One step of the machine: a host transition or the engine's (00_scope.md R17). -/

namespace Sys2Proof.Machine

/-- One step. -/
def step (s : State) : Host.Outcome State Fault Refusal := transition s

/-- The state whose very next step runs the command word whose low `nbits` bits are those of `w`. -/
def State.withFetchWord (s : State) (nbits w : Nat) : State := s.withPending (BitVec.ofNat 32 (w % 2 ^ nbits))

end Sys2Proof.Machine
end

