-- ==== Sys2Proof/Machine/HostAsm.lean ====
section
/-! DEFINITION. The host assembly of 30_encoding.md R86 and R87: each statement's bus accesses. A statement with no bus
encoding becomes one that the machine refuses (60_exceptions.md R261, 93_implementation_defined.md U7). -/

namespace Sys2Proof.Machine

/-- The mnemonics of the opcode map (30_encoding.md R83). -/
inductive Mnemonic where
  | cfgNet
  | chrEnc
  | chrDec
  | cvt8to5
  | cvt5to8
  | accInit
  | polyStep
  | polyFeedw
  | polyFeedc
  | polyFinal
  | checksum
  | frmEnc
  | frmDec
  | vbPack
  | vbUnpack
  | vbEncts
  | vbDects
  | addrEncraw
  | addrEnc
  | addrDecraw
  | addrDec
  deriving DecidableEq, Repr

/-- OPC of a mnemonic (R83). -/
def Mnemonic.opc : Mnemonic → BitVec 8
  | .cfgNet => 0x01
  | .chrEnc => 0x10
  | .chrDec => 0x11
  | .cvt8to5 => 0x18
  | .cvt5to8 => 0x19
  | .accInit => 0x20
  | .polyStep => 0x21
  | .polyFeedw => 0x22
  | .polyFeedc => 0x23
  | .polyFinal => 0x24
  | .checksum => 0x28
  | .frmEnc => 0x30
  | .frmDec => 0x31
  | .vbPack => 0x38
  | .vbUnpack => 0x39
  | .vbEncts => 0x3A
  | .vbDects => 0x3B
  | .addrEncraw => 0x40
  | .addrEnc => 0x41
  | .addrDecraw => 0x42
  | .addrDec => 0x43

/-- The mnemonic of a command (R83). -/
def mnemonicOf : Instr → Mnemonic
  | .cfgNet => .cfgNet
  | .chrEnc => .chrEnc
  | .chrDec => .chrDec
  | .cvt8to5 => .cvt8to5
  | .cvt5to8 => .cvt5to8
  | .accInit => .accInit
  | .polyStep => .polyStep
  | .polyFeedw => .polyFeedw
  | .polyFeedc => .polyFeedc
  | .polyFinal => .polyFinal
  | .checksum => .checksum
  | .frmEnc _ => .frmEnc
  | .frmDec => .frmDec
  | .vbPack => .vbPack
  | .vbUnpack => .vbUnpack
  | .vbEncts => .vbEncts
  | .vbDects => .vbDects
  | .addrEncraw _ => .addrEncraw
  | .addrEnc _ => .addrEnc
  | .addrDecraw => .addrDecraw
  | .addrDec => .addrDec

/-- The statements of R86 and the pseudo-statements of R87. The suffix .NOPFX, `nopfx` here, may stand after every
mnemonic (R86), also where the word is then illegal (R84). -/
inductive AsmStmt where
  | wr (r : Reg) (imm : Datum)
  | wrElem (b : Buf) (i : Nat) (imm : Byte)
  | rd (r : Reg)
  | rdElem (b : Buf) (i : Nat)
  | cmd (m : Mnemonic) (nopfx : Bool)
  | wait
  | lds (b : Buf) (text : String)
  | ldb (b : Buf) (bytes : List Byte)
  | ldbHex (b : Buf) (hex : String)
  | run (m : Mnemonic) (nopfx : Bool)
  deriving DecidableEq, Repr

/-- `BusWrite(offset(reg), imm32)` (R86). -/
def writeReg (r : Reg) (imm : Datum) : HostStmt := .wr .w32 (BitVec.ofNat 12 r.offset) imm

/-- `BusWrite(base(BUF) + 4*i, zext_32(imm8))` for an element that exists (R86, 10_state.md R34). -/
def writeElem (b : Buf) (i : Nat) (imm : Byte) : HostStmt :=
  if i < b.cap then .wr .w32 (BitVec.ofNat 12 (b.slot i)) (imm.setWidth 32) else .inexpressible

/-- `BusRead(offset(reg))` (R86). -/
def readReg (r : Reg) : HostStmt := .rd .w32 (BitVec.ofNat 12 r.offset)

/-- `BusRead(base(BUF) + 4*i)` for an element that exists (R86). -/
def readElem (b : Buf) (i : Nat) : HostStmt :=
  if i < b.cap then .rd .w32 (BitVec.ofNat 12 (b.slot i)) else .inexpressible

/-- Writes of consecutive elements from element `i` on. -/
def writeElems (b : Buf) (i : Nat) : List Byte → List HostStmt
  | [] => []
  | v :: vs => writeElem b i v :: writeElems b (i + 1) vs

/-- `LDB` (R87): the elements, then the length register; not legal into a buffer without one, CKW or EXP. -/
def loadBuffer (b : Buf) (bytes : List Byte) : List HostStmt :=
  match b.lenReg with
  | none => [.inexpressible]
  | some r => writeElems b 0 bytes ++ [writeReg r (BitVec.ofNat 32 bytes.length)]

/-- The 8-bit codes of a text (00_scope.md R11); none if a character has no 8-bit code. -/
def textBytes (text : List Char) : Option (List Byte) :=
  if text.all (fun c => decide (c.toNat < 256)) then some (text.map fun c => BitVec.ofNat 8 c.toNat) else none

/-- The value of a hex digit, in either case. -/
def hexDigit (c : Char) : Option Nat :=
  let n := c.toNat
  if 0x30 ≤ n ∧ n ≤ 0x39 then some (n - 0x30)
  else if 0x41 ≤ n ∧ n ≤ 0x46 then some (n - 0x37)
  else if 0x61 ≤ n ∧ n ≤ 0x66 then some (n - 0x57)
  else none

/-- A hex string, without its 0x, read two digits per byte, first byte first, the first digit the high one (R87); none
if a digit is left over or a character is no digit. -/
def hexBytes : List Char → Option (List Byte)
  | [] => some []
  | [_] => none
  | hi :: lo :: rest =>
    match hexDigit hi, hexDigit lo, hexBytes rest with
    | some h, some l, some bytes => some (BitVec.ofNat 8 (16 * h + l) :: bytes)
    | _, _, _ => none

/-- The load of bytes that a text stands for; a text that stands for none has no bus encoding. -/
def loadOption (b : Buf) (bytes : Option (List Byte)) : List HostStmt :=
  match bytes with
  | none => [.inexpressible]
  | some bs => loadBuffer b bs

/-- `OPC`, or `OPC OR 0x100` with .NOPFX (R86). -/
def commandWord (m : Mnemonic) (nopfx : Bool) : Datum := m.opc.setWidth 32 ||| if nopfx then 0x100 else 0

/-- `CMD <mnemonic>[.NOPFX]` (R86): a write of the command word to CMD. -/
def startCommand (m : Mnemonic) (nopfx : Bool) : HostStmt := writeReg .cmd (commandWord m nopfx)

/-- The bus accesses of one statement (R86, R87). -/
def assemble : AsmStmt → List HostStmt
  | .wr r imm => [writeReg r imm]
  | .wrElem b i imm => [writeElem b i imm]
  | .rd r => [readReg r]
  | .rdElem b i => [readElem b i]
  | .cmd m nopfx => [startCommand m nopfx]
  | .wait => [.wait]
  | .lds b text => loadOption b (textBytes text.toList)
  | .ldb b bytes => loadBuffer b bytes
  | .ldbHex b hex => loadOption b (hexBytes hex.toList)
  | .run m nopfx => [startCommand m nopfx, .wait]

/-- A host program's bus accesses, in order. -/
def assembleAll : List AsmStmt → List HostStmt
  | [] => []
  | p :: ps => assemble p ++ assembleAll ps

end Sys2Proof.Machine
end

