-- ==== Sys2Proof/Machine/Outcome.lean ====
section
/-! DEFINITION. The outcomes of a model that 60_exceptions.md R261 lists, over the machine's step: UNWRITTEN, BUSERR and
REFUSED end a run of a model, and the hardware itself knows none of them. -/

namespace Sys2Proof.Machine

/-- What one step of the spec's model answers (R261). -/
inductive ModelOutcome where
  /-- The run goes on. -/
  | next (s : State)
  /-- UNWRITTEN: a command reads a register or element that nothing has written since reset (10_state.md R50). -/
  | unwritten
  /-- BUSERR: a malformed access (20_memory.md R61). -/
  | busErr
  /-- REFUSED: the model declines an inexpressible host statement (20_memory.md R61). -/
  | refused
  deriving DecidableEq, Repr

/-- The engine's next step is the completion of a command that reads an unwritten register or element (10_state.md R50,
60_exceptions.md R254). -/
def entersUnwritten (s : State) : Bool :=
  match s.pend with
  | none => false
  | some p =>
    (p.delay == 0 || s.host.isEmpty) &&
      match decode p.word with
      | .error _ => false
      | .ok i => readsUnwritten i s

/-- One step of the spec's model. Where a command reads an unwritten value, whatever that value is
(93_implementation_defined.md U19), the model enters UNWRITTEN in place of the completion (10_state.md R50,
60_exceptions.md R254); that outcome is never final and never cleared, and the model admits no run past it (R261).
Every other step is the machine's. -/
def modelStep (s : State) : ModelOutcome :=
  if s.unwrittenUse || entersUnwritten s then .unwritten
  else
    match step s with
    | .next t => .next t
    | .fault .busErr => .busErr
    | .refused _ => .refused

end Sys2Proof.Machine
end

