-- ==== Sys2Proof/Safety.lean ====
section
/-! DEFINITION. What counts as a safe state and a safe host program, and the vocabulary the claims use: how a command
ends, what it leaves alone, and what it may write. -/

namespace Sys2Proof.Machine

/-- The invariant of the machine. -/
structure State.Inv (s : State) : Prop where
  /-- Buffer contents are in canonical form. -/
  memWf : s.mem.wf = true
  /-- The set of written offsets is in canonical form. -/
  writtenWf : s.written.wf = true
  /-- Only buffer elements hold bytes (10_state.md R34, 20_memory.md R62). -/
  memMapped : ∀ c ∈ s.mem, ∃ b i, i < Buf.cap b ∧ c.1 = b.slot i
  /-- Only mapped offsets are ever written (20_memory.md R62). -/
  writtenMapped : ∀ o ∈ s.written, (slotAt o).isSome = true
  /-- While NET_VALID = 1 the configured prefix is non-empty, fits, and has no uppercase letter (10_state.md R43). -/
  netLower : s.netValid = true →
    1 ≤ s.netLen.toNat ∧ s.netLen.toNat ≤ Config.capNet ∧ ∀ i < s.netLen.toNat, isUpper (s.elem .net i) = false
  /-- Error codes 23 to 255 are never written (60_exceptions.md R241, 93_implementation_defined.md U11). -/
  errcodeBound : s.errcode.toNat ≤ 22
  /-- A pending command has cleared DONE and ERR (10_state.md R24). -/
  busyClears : s.pend.isSome = true → s.done = false ∧ s.err = false
  /-- ERR is set only by a completion (10_state.md R24). -/
  errNeedsDone : s.err = true → s.done = true
  /-- A completed command's ERR agrees with ERRCODE (60_exceptions.md R254). -/
  errMatchesCode : s.done = true → s.err = (s.errcode != 0)
  /-- A CKW element is a word: a command writes it so (10_state.md R36), and one that nothing has written since reset is
  0 by log 1. -/
  ckwWords : ∀ i < Config.nCk, wordOk (s.elem .ckw i) = true

/-- The host obeys the polling rule (70_reset_and_hazards.md R275): between a CMD write and the WAIT that follows it, it
only reads ID, CMD and STATUS. `waiting` says that a command may still be pending. A reset also ends the wait (R271). -/
def obeysPolling (waiting : Bool) : List HostStmt → Bool
  | [] => true
  | .wait :: rest => obeysPolling false rest
  | .reset :: rest => obeysPolling false rest
  | .inexpressible :: rest => obeysPolling waiting rest
  | .rd _ off :: rest => (!waiting || decide (off.toNat ∈ [0x000, 0x004, 0x008])) && obeysPolling waiting rest
  | .wr _ off _ :: rest => !waiting && obeysPolling (decide (off.toNat = 0x004)) rest

/-- A safe state: no write was lost (70_reset_and_hazards.md R276), and no command has used a value that nothing had
written (10_state.md R50). Claims about what a program computes on the hardware are to be made of safe states. -/
def State.Safe (s : State) : Prop := s.ovr = false ∧ s.unwrittenUse = false

/-! ### How a command ends and what it leaves alone -/

/-- The completion flags (60_exceptions.md R254). -/
def Ends (code : Nat) (t : State) : Prop :=
  t.pend = none ∧ t.done = true ∧ t.err = decide (code ≠ 0) ∧ t.errcode.toNat = code

/-- What no command touches: OVR, the host, its log, the draw counter and the UNWRITTEN mark. -/
def OutsideKept (s t : State) : Prop :=
  t.ovr = s.ovr ∧ t.host = s.host ∧ t.readLog = s.readLog ∧ t.draws = s.draws ∧ t.unwrittenUse = s.unwrittenUse

/-- Nothing but the data and length registers `regs` and the bytes at the offsets `slots` changes, and exactly these
count as written besides what was written before. -/
def Frame (regs : List Reg) (slots : List Nat) (s t : State) : Prop :=
  (∀ r, r.isData = true → r ∉ regs → t.regValue r = s.regValue r) ∧
  (∀ a, a ∉ slots → t.mem.read a = s.mem.read a) ∧
  (∀ a, a ∈ t.written ↔ a ∈ s.written ∨ a ∈ regs.map Reg.offset ∨ a ∈ slots) ∧
  OutsideKept s t

/-- The command completes without error: it answers the state `t`, having written the registers `regs` and the bytes at
`slots`, and nothing else; NET_VALID keeps its value. -/
def Succeeds (i : Instr) (s : State) (regs : List Reg) (slots : List Nat) (t : State) : Prop :=
  exec i s = .next t ∧ Ends 0 t ∧ Frame regs slots s t ∧ t.netValid = s.netValid

/-- The command ends in the error `code`, writes no register and no byte, and leaves NET_VALID. -/
def FailsWith (i : Instr) (s : State) (code : Nat) (t : State) : Prop :=
  exec i s = .next t ∧ Ends code t ∧ Frame [] [] s t ∧ t.netValid = s.netValid

/-- The command ends in ChecksumMismatch with EXP holding the characters `expected`, and writes nothing else
(10_state.md R37). -/
def FailsWithExpected (i : Instr) (s : State) (expected : List Byte) (t : State) : Prop :=
  exec i s = .next t ∧ Ends 10 t ∧ Frame [] (slotsOf .exp 8) s t ∧ t.netValid = s.netValid ∧ t.seq .exp 8 = expected

/-- The engine moves next: a command is pending and its latency has run out, or the host has nothing left to do. -/
def EngineNext (s : State) (p : Pending) : Prop := s.pend = some p ∧ (p.delay = 0 ∨ s.host = [])

/-- The host moves next: nothing is pending, or the pending command's latency has not run out and the host has a
statement left. -/
def HostNext (s : State) : Prop := ∀ p, s.pend = some p → p.delay ≠ 0 ∧ s.host ≠ []

/-- What PEND holds after one host statement: the same command, nearer to its completion. -/
def Pending.next (p : Option Pending) : Option Pending := p.map fun q => { q with delay := q.delay - 1 }

/-! ### Slots of the window -/

/-- The slot exists (20_memory.md R62). -/
def Slot.mapped : Slot → Bool
  | .reg _ => true
  | .elem b i => decide (i < b.cap)

/-- The slots whose writes are ignored: ID, STATUS, ERRCODE, CKW and EXP (10_state.md R39). -/
def Slot.readOnly : Slot → Bool
  | .reg .id | .reg .status | .reg .errcode => true
  | .elem b _ => b.readOnly
  | .reg _ => false

/-- NET_LEN or an element of NET: a write clears NET_VALID (10_state.md R24). -/
def Slot.isNet : Slot → Bool
  | .reg .netLen | .elem .net _ => true
  | _ => false

/-- The two states hold the same values in the data registers, length registers and elements at the offsets `offs`. -/
def AgreeOn (offs : List Nat) (s t : State) : Prop :=
  ∀ slot, slot.mapped = true → slot.offset ∈ offs → s.slotValue slot = t.slotValue slot

/-! ### Which outputs a command has (30_encoding.md R83) -/

/-- The registers among a command's outputs, with the length registers of its output buffers. -/
def outputRegs : Instr → List Reg
  | .cfgNet => []
  | .chrEnc => [.strLen]
  | .chrDec => [.wordLen]
  | .cvt8to5 => [.wordLen]
  | .cvt5to8 => [.byteLen]
  | .accInit | .polyStep | .polyFeedw | .polyFeedc | .polyFinal | .checksum => [.accLo, .accHi]
  | .frmEnc _ => [.strLen]
  | .frmDec => [.pfxLen, .wordLen]
  | .vbPack => [.vbyte]
  | .vbUnpack => [.typebits, .sizebits]
  | .vbEncts => [.typebits, .sizebits]
  | .vbDects => [.outType, .sizelen]
  | .addrEncraw _ => [.strLen]
  | .addrEnc _ => [.strLen]
  | .addrDecraw => [.typebits, .sizebits, .hashLen]
  | .addrDec => [.outType, .hashLen]

/-- The buffers among a command's outputs, without EXP. -/
def outputBufs : Instr → List Buf
  | .cfgNet => [.net]
  | .chrEnc => [.str]
  | .chrDec => [.words]
  | .cvt8to5 => [.words]
  | .cvt5to8 => [.bytes]
  | .accInit | .polyStep | .polyFeedw | .polyFeedc => []
  | .polyFinal | .checksum => [.ckw]
  | .frmEnc _ => [.str]
  | .frmDec => [.pfx, .words]
  | .vbPack | .vbUnpack | .vbEncts | .vbDects => []
  | .addrEncraw _ | .addrEnc _ => [.str]
  | .addrDecraw | .addrDec => [.hash]

/-- The buffers whose length registers a command checks before anything else (60_exceptions.md R245 (a), R247). -/
def checkedInputs : Instr → List Buf
  | .cfgNet => [.net]
  | .chrEnc => [.words]
  | .chrDec => [.str]
  | .cvt8to5 => [.bytes]
  | .cvt5to8 => [.words]
  | .accInit | .polyStep | .polyFeedw | .polyFeedc | .polyFinal => []
  | .checksum => [.pfx, .words]
  | .frmEnc _ => [.pfx, .words]
  | .frmDec => [.str]
  | .vbPack | .vbUnpack | .vbEncts | .vbDects => []
  | .addrEncraw _ | .addrEnc _ => [.hash]
  | .addrDecraw | .addrDec => [.str]

/-! ### The radix conversion as bit strings (42_radix.md R120) -/

/-- The low `n` bits of an element, most significant first. -/
def bitsMsb (n : Nat) (v : Byte) : List Bool := (List.range n).map fun k => v.getLsbD (n - 1 - k)

/-- The bit string of a sequence of `n`-bit elements, element 0 first. -/
def bitString (n : Nat) (vs : List Byte) : List Bool := vs.flatMap (bitsMsb n)

/-! ### The primitive checksum commands run one after another (43_checksum.md R150) -/

/-- A command of R150's sequence: the byte the host first writes to OPERAND, if any, and the command. -/
structure Primitive where
  operand : Option Byte
  command : Instr
  deriving DecidableEq, Repr

/-- R150's sequence: ACC.INIT; POLY.FEEDC for each prefix character; POLY.STEP; POLY.FEEDW for each word; POLY.STEP eight
times; POLY.FINAL. -/
def primitiveProgram (p ws : List Byte) : List Primitive :=
  { operand := none, command := .accInit } ::
    (p.map (fun c => { operand := some c, command := .polyFeedc }) ++
      { operand := none, command := .polyStep } ::
        (ws.map (fun w => { operand := some w, command := .polyFeedw }) ++
          (List.replicate 8 { operand := none, command := .polyStep } ++ [{ operand := none, command := .polyFinal }])))

/-- The host's write to OPERAND before a command. -/
def Primitive.prepare (c : Primitive) (s : State) : State :=
  match c.operand with
  | none => s
  | some v => s.storeReg .operand (v.setWidth 32)

/-- The state at each completion when the commands run one after another; none if one of them answers no state. -/
def completions : List Primitive → State → Option (List State)
  | [], _ => some []
  | c :: cs, s =>
    match exec c.command (c.prepare s) with
    | .next t => (completions cs t).map (t :: ·)
    | .fault _ => none
    | .refused _ => none

/-! ### Closed forms -/

/-- The alphabet as text (41_charset.md R100). -/
def alphabetText : String := "qpzry9x8gf2tvdw0s3jn54khce6mua7l"

/-- The final accumulator of a valid prefix and valid words (43_checksum.md R147), as one fold over each sequence. -/
def checksumValue (p ws : List Byte) : Acc :=
  polySteps 8 (ws.foldl absorbWord (polyStep (p.foldl absorbChar 1))) ^^^ 1

/-- `StepInv(r)` (43_checksum.md R152). -/
def stepInv (r : Acc) : Acc :=
  let pick (i : Nat) : Acc := if r.getLsbD i then gen i else 0
  let x := r ^^^ pick 0 ^^^ pick 1 ^^^ pick 2 ^^^ pick 3 ^^^ pick 4
  ((r.extractLsb' 0 5).setWidth 40 <<< 35) ||| (x >>> 5)

/-- A string that is a frame in form (44_framer.md R173 to R175): unmixed, and lowercased it is the prefix `p`, a
separator, and the characters of the data words `ws` and of the 8 checksum words `c`. -/
structure Framed (str p ws c : List Byte) : Prop where
  unmixed  : mixed str = false
  shape    : lower str = p ++ sep :: (ws ++ c).map charAt
  nonempty : p ≠ []
  chars    : ∀ ch ∈ p, prefixCharOk ch = true
  words    : ∀ w ∈ ws ++ c, wordOk w = true
  eight    : c.length = 8

/-- A frame whose checksum words are the right ones (44_framer.md R175). -/
def ValidFrame (str p ws : List Byte) : Prop := Framed str p ws (ckWords (checksumValue p ws))

/-- The string that ADDR.DECRAW and ADDR.DEC hand to the framer (46_address.md R219). -/
def State.addressInput (s : State) : List Byte := withImplicitPrefix (s.input .net) (s.input .str)

/-! ### Case mapping (44_framer.md R178) -/

/-- 'a' to 'z' become 'A' to 'Z'. -/
def upperC (c : Byte) : Byte := if isLowerLetter c then c - 0x20 else c

end Sys2Proof.Machine
end

