-- ==== Sys2Proof/Certificates/Slice0/Obligations.lean ====
section
/-! DEFINITION. The statements for the provers, in the order of OBLIGATIONS.json. Each docstring names the rules of the
spec it formalises. -/

open Sys2Proof Sys2Proof.Machine

/-! ### Encoding -/

/-- 30_encoding.md R80, R83, R85: a word decodes to a command exactly when it is that command's word. Decoding an encoded
command gives it back, and no two words mean the same command. -/
def Obligations.DecodeExactlyInvertsEncode : Prop :=
  ∀ (w : Datum) (i : Instr), decode w = .ok i ↔ w = encode i

/-- 30_encoding.md R84, 60_exceptions.md R244: which words are illegal, in numbers; such a word is accepted like any
other, and completes with IllegalCommand and no other effect. -/
def Obligations.IllegalWordsEndInIllegalCommand : Prop :=
  (∀ w : Datum, (∃ e, decode w = .error e) ↔
    (w.toNat % 256 ∉ [0x01, 0x10, 0x11, 0x18, 0x19, 0x20, 0x21, 0x22, 0x23, 0x24, 0x28, 0x30, 0x31, 0x38, 0x39, 0x3A,
        0x3B, 0x40, 0x41, 0x42, 0x43] ∨
      (w.toNat / 256 % 2 = 1 ∧ w.toNat % 256 ∉ [0x30, 0x40, 0x41]) ∨ w.toNat / 512 ≠ 0)) ∧
  (∀ (s : State) (w : Datum) (rest : List HostStmt), s.pend = none → s.host = .wr .w32 0x004 w :: rest →
    ∃ t d, step s = .next t ∧ t.pend = some { word := w, delay := d }) ∧
  (∀ (s : State) (p : Pending), EngineNext s p → (∃ e, decode p.word = .error e) →
    ∃ t, step s = .next t ∧ Ends 1 t ∧ Frame [] [] s t ∧ t.netValid = s.netValid)

/-- 30_encoding.md R83: one word of each family, written out from the table. -/
def Obligations.SampleWordsDecode : Prop :=
  decode 0x00000001 = .ok .cfgNet ∧ decode 0x00000010 = .ok .chrEnc ∧ decode 0x00000019 = .ok .cvt5to8 ∧
  decode 0x00000022 = .ok .polyFeedw ∧ decode 0x00000130 = .ok (.frmEnc true) ∧ decode 0x0000003A = .ok .vbEncts ∧
  decode 0x00000041 = .ok (.addrEnc false) ∧ decode 0x00000042 = .ok .addrDecraw

/-! ### The step: host and engine -/

/-- 60_exceptions.md R254, 30_encoding.md R85: when the engine moves next and the pending word decodes to a command, the
step is that command's completion, on the state with the UNWRITTEN mark brought up to date. The mark is the model's own
(log 2), and so is which slots count as read (log 11) and when the engine moves (log 5). -/
def Obligations.StepRunsTheDecodedCommand : Prop :=
  ∀ (s : State) (p : Pending) (i : Instr), EngineNext s p → decode p.word = .ok i →
    step s = exec i { s with unwrittenUse := s.unwrittenUse || readsUnwritten i s }

/-- 60_exceptions.md R254, 10_state.md R23, R25: a CMD write while nothing is pending is accepted: PEND holds the word,
DONE and ERR are cleared, ERRCODE and every other register keep their values. The latency is a free value (log 5), and
the counter it advances is the model's own (log 4). -/
def Obligations.CmdWriteStartsTheCommand : Prop :=
  ∀ (s : State) (w : Datum) (rest : List HostStmt), s.pend = none → s.host = .wr .w32 0x004 w :: rest →
    ∃ t d, step s = .next t ∧ t.busy = true ∧
      t = { s with pend := some { word := w, delay := d }, done := false, err := false, host := rest,
                   draws := s.draws + 1 }

/-- 70_reset_and_hazards.md R276, R278: a write to a mapped offset while a command is pending changes nothing but OVR,
which is set unless the offset is STATUS's; OVR is cleared by reset only, and set by such a write only. The countdown of
the pending command's latency (Pending.next) is the model's own, log 5. -/
def Obligations.BusyWritesAreLostAndSetOvr : Prop :=
  (∀ (s : State) (off : Offset) (d : Datum) (rest : List HostStmt) (slot : Slot), s.pend.isSome = true → HostNext s →
    s.host = .wr .w32 off d :: rest → slotAt off.toNat = some slot →
    step s = .next { s with pend := Pending.next s.pend, host := rest,
                            ovr := s.ovr || decide (slot ≠ .reg .status) }) ∧
  (∀ s t : State, step s = .next t → s.ovr = true → (∀ rest, s.host ≠ .reset :: rest) → t.ovr = true) ∧
  (∀ s t : State, step s = .next t → s.ovr = false → t.ovr = true →
    s.pend.isSome = true ∧ ∃ off d rest slot, s.host = .wr .w32 off d :: rest ∧ slotAt off.toNat = some slot ∧
      slot ≠ .reg .status)

/-- 70_reset_and_hazards.md R277, 10_state.md R21, R40, R50, 20_memory.md R66, R70: what a host read returns, and that it
changes no state of the block. While a command is pending, ID, CMD and STATUS read exactly and every other slot reads as
a draw; otherwise every control register, and every slot written since reset, reads exactly, and any other as a draw in
the bits it uses and zero in the others (log 3). The draw counter, the latency's countdown and the read log are the
model's own (logs 4, 5 and 9). -/
def Obligations.HostReadsReturnExactValuesOrDraws : Prop :=
  ∀ (s : State) (off : Offset) (rest : List HostStmt) (slot : Slot), HostNext s → s.host = .rd .w32 off :: rest →
    slotAt off.toNat = some slot →
    let exact := if s.busy then slot = .reg .id ∨ slot = .reg .cmd ∨ slot = .reg .status
      else slot ∈ [.reg .id, .reg .cmd, .reg .status, .reg .errcode] ∨ slot.offset ∈ s.written
    let drawn := if s.busy then Config.draw s.draws else Config.draw s.draws &&& slot.usedBits
    (exact → step s = .next { s with pend := Pending.next s.pend, host := rest,
                                     readLog := { off := off, value := s.slotValue slot } :: s.readLog }) ∧
    (¬ exact → step s = .next { s with pend := Pending.next s.pend, host := rest, draws := s.draws + 1,
                                       readLog := { off := off, value := drawn } :: s.readLog })

/-- 20_memory.md R61, R62: a host access stops the run with BUSERR exactly when it is not 32 bits wide, not aligned, or at
an unmapped offset; every other access answers a next state. -/
def Obligations.BusErrorsAreExactlyTheRefusedAccesses : Prop :=
  ∀ (s : State) (width : Width) (off : Offset) (rest : List HostStmt), HostNext s →
    (s.host = .rd width off :: rest ∨ ∃ d, s.host = .wr width off d :: rest) →
    let refused := width ≠ .w32 ∨ off.toNat % 4 ≠ 0 ∨ (0x048 ≤ off.toNat ∧ off.toNat ≤ 0x0FF) ∨
      (0x540 ≤ off.toNat ∧ off.toNat ≤ 0x5FF) ∨ (0xC20 ≤ off.toNat ∧ off.toNat ≤ 0xC3F) ∨ 0xC60 ≤ off.toNat
    (refused → step s = .fault .busErr) ∧ (¬ refused → ∃ t, step s = .next t)

/-- 10_state.md R21, R24, R26, R33, R34, R39, R40, 46_address.md R211: a host write while nothing is pending. A read-only
slot ignores it. Any other slot but CMD then reads as the bits it uses, every other slot keeps its value (so a write to one
half of ACC leaves the other), the slot counts as written, and NET_VALID is cleared exactly by a write to NET_LEN or NET. -/
def Obligations.HostWritesStoreTheUsedBits : Prop :=
  ∀ (s : State) (off : Offset) (d : Datum) (rest : List HostStmt) (slot : Slot), s.pend = none → s.mem.wf = true →
    s.host = .wr .w32 off d :: rest → slotAt off.toNat = some slot → slot ≠ .reg .cmd →
    ∃ t, step s = .next t ∧ t.host = rest ∧
      (slot.readOnly = true → t = { s with host := rest }) ∧
      (slot.readOnly = false →
        t.slotValue slot = d &&& slot.usedBits ∧
        (∀ other : Slot, other.mapped = true → other ≠ slot → other ≠ .reg .status →
          t.slotValue other = s.slotValue other) ∧
        (∀ o, o ∈ t.written ↔ o ∈ s.written ∨ o = slot.offset) ∧
        t.netValid = (s.netValid && !slot.isNet) ∧ t.pend = none ∧ t.done = s.done ∧ t.err = s.err ∧
        t.errcode = s.errcode ∧ t.ovr = s.ovr ∧ t.draws = s.draws ∧ t.readLog = s.readLog ∧
        t.unwrittenUse = s.unwrittenUse)

/-- 30_encoding.md R87, 60_exceptions.md R260, 20_memory.md R71: a turn of WAIT reads STATUS and goes on only when BUSY = 0;
with no command pending and no statement left the block holds all its state. That a turn of WAIT counts down a pending
command's latency is the model's choice of log 5, and that the poll goes on the read log that of log 9. -/
def Obligations.WaitPollsUntilIdleAndIdleHolds : Prop :=
  (∀ (s : State) (rest : List HostStmt), HostNext s → s.host = .wait :: rest →
    step s = .next { s with pend := Pending.next s.pend, host := if s.busy then s.host else rest,
                            readLog := { off := 0x008, value := s.status } :: s.readLog }) ∧
  (∀ s : State, s.pend = none → s.host = [] → step s = .next s)

/-- 10_state.md R24: the layout of STATUS, BUSY being 1 exactly when a command is pending (R38). -/
def Obligations.StatusWordLayout : Prop :=
  ∀ s : State, (s.regValue .status).toNat =
    (if s.pend = none then 0 else 1) + (if s.done then 2 else 0) + (if s.err then 4 else 0) +
      (if s.netValid then 8 else 0) + (if s.ovr then 16 else 0)

/-! ### Reset -/

/-- 70_reset_and_hazards.md R270, R271, 10_state.md R22, R23: a reset clears STATUS, ERRCODE and PEND, abandoning a pending
command; after it no data register, length register or element counts as written; ID and CMD read as always. -/
def Obligations.ResetClearsControlState : Prop :=
  (∀ (s : State) (rest : List HostStmt), HostNext s → s.host = .reset :: rest →
    ∃ t, step s = .next t ∧ t.pend = none ∧ t.regValue .status = 0 ∧ t.regValue .errcode = 0 ∧ t.written = [] ∧
      t.host = rest ∧ t.readLog = s.readLog ∧ t.draws = s.draws ∧ t.unwrittenUse = s.unwrittenUse) ∧
  (∀ s : State, s.regValue .id = 0x43410001 ∧ s.regValue .cmd = 0)

/-- 10_state.md R49: the reset state's control registers, and that nothing is written yet. -/
def Obligations.ResetStateValues : Prop :=
  State.reset.regValue .status = 0 ∧ State.reset.regValue .errcode = 0 ∧ State.reset.pend = none ∧
  State.reset.busy = false ∧ State.reset.written = []

/-- The model's invariant (10_state.md R43, 60_exceptions.md R241, R254, log 12) holds after reset. The canonical
forms are the model's choice, log 12. The clause that CKW elements are at most 31 holds here by the model's choice of
zeros, log 1: the spec leaves CKW unspecified at reset (10_state.md R34, R49). -/
def Obligations.ResetMeetsTheInvariant : Prop := State.reset.Inv

/-- 10_state.md R43, 60_exceptions.md R241, R254, and the canonical forms of log 12: every step from a state that
meets the invariant gives a state that meets it. The spec marks R43 as its own inference from R210 and R24; the
canonical forms are the model's choice, log 12. The clause that CKW elements are at most 31 follows R36 where POLY.FINAL
or CHECKSUM wrote them; for elements that nothing has written since reset it rests on the model's choice of zeros,
log 1, since the spec leaves CKW unspecified at reset (10_state.md R34, R49). -/
def Obligations.StepKeepsTheInvariant : Prop :=
  ∀ s t : State, s.Inv → step s = .next t → t.Inv

/-- 70_reset_and_hazards.md R280, 00_scope.md R7: completion is always eventually taken. Whatever well-formed statements the
host has left, the pending command has completed, or been abandoned by a reset, within its latency plus one steps
(the latency's place in the state is the model's own, log 5). -/
def Obligations.PendingCommandCompletesWithinItsLatency : Prop :=
  ∀ (s : State) (p : Pending), s.pend = some p → (∀ st ∈ s.host, st.wellFormed = true) →
    ∃ k t, k ≤ p.delay + 1 ∧ Host.Core.run Sys2Proof.core k s = .next t ∧ t.pend = none

/-- 70_reset_and_hazards.md R275, R276: a host program that obeys the polling rule keeps OVR at 0 at every step, and what is
left of it still obeys the rule. -/
def Obligations.PollingHostKeepsOvrClear : Prop :=
  ∀ s t : State, s.ovr = false → obeysPolling s.busy s.host = true → step s = .next t →
    t.ovr = false ∧ obeysPolling t.busy t.host = true

/-- 10_state.md R50, R20, 60_exceptions.md R254, R261, 93_implementation_defined.md U19: the model-only outcome UNWRITTEN.
The machine's mark of it is set exactly when a completing command reads a register or element that nothing has written,
whatever value it holds, and never cleared, by a reset either; the spec's model answers UNWRITTEN in exactly the states
that carry the mark or whose next step sets it, so no run of it goes past one, and makes the machine's step in every
other. The mark is the model's own (log 2), and so is which slots count as read (log 11). -/
def Obligations.UnwrittenMarkIsExactAndNeverCleared : Prop :=
  (∀ (s t : State) (p : Pending) (i : Instr), EngineNext s p → decode p.word = .ok i → step s = .next t →
    (t.unwrittenUse = true ↔ s.unwrittenUse = true ∨ ∃ o ∈ reads i s, o ∉ s.written)) ∧
  (∀ s t : State, step s = .next t → HostNext s → t.unwrittenUse = s.unwrittenUse) ∧
  (∀ s t : State, step s = .next t → s.unwrittenUse = true → t.unwrittenUse = true) ∧
  (∀ s : State, modelStep s = .unwritten ↔ s.unwrittenUse = true ∨
    ∃ p i, EngineNext s p ∧ decode p.word = .ok i ∧ ∃ o ∈ reads i s, o ∉ s.written) ∧
  (∀ s t : State, modelStep s = .next t ↔ step s = .next t ∧ t.unwrittenUse = false)

/-- 46_address.md R211: NET_VALID goes from 1 to 0 only by reset, by CFG.NET ending in error, or by a host write to
NET_LEN or NET while nothing is pending; and while it stays 1, only a completing CFG.NET touches NET, and nothing
touches NET_LEN. The spec marks R211's second sentence, the content of NET, as its own inference from R210 and R24. -/
def Obligations.NetValidGuardsTheConfiguredPrefix : Prop :=
  ∀ s t : State, s.Inv → s.netValid = true → step s = .next t →
    (t.netValid = false →
      (∃ rest, s.host = .reset :: rest) ∨
      (∃ p, EngineNext s p ∧ decode p.word = .ok .cfgNet ∧ t.err = true) ∨
      (s.pend = none ∧ ∃ off d rest slot, s.host = .wr .w32 off d :: rest ∧ slotAt off.toNat = some slot ∧
        slot.isNet = true)) ∧
    (t.netValid = true →
      t.netLen = s.netLen ∧
      ((∀ i < Config.capNet, t.elem .net i = s.elem .net i) ∨ ∃ p, EngineNext s p ∧ decode p.word = .ok .cfgNet))

/-! ### All commands -/

/-- 60_exceptions.md R240, R241, R254: every command answers a next state: it completes once, with one code from 0 to 22,
ERR saying whether there was an error. -/
def Obligations.EveryCommandCompletesWithOneCode : Prop :=
  ∀ (i : Instr) (s : State), ∃ t, exec i s = .next t ∧ t.errcode.toNat ≤ 22 ∧ Ends t.errcode.toNat t ∧
    OutsideKept s t

/-- 60_exceptions.md R248, R243, 10_state.md R37: a command that ends in error writes no register and no byte, but EXP on
ChecksumMismatch, and NET_VALID, cleared, on an error of CFG.NET. -/
def Obligations.ErrorsLeaveEveryOutputAlone : Prop :=
  ∀ (i : Instr) (s t : State), exec i s = .next t → t.errcode ≠ 0 →
    Frame [] (if t.errcode = 10 then slotsOf .exp 8 else []) s t ∧
    t.netValid = if i = .cfgNet then false else s.netValid

/-- 30_encoding.md R83, 10_state.md R26, R27, R37, R46: a command changes no register and no buffer but its outputs, EXP only
on ChecksumMismatch, NET_VALID only if it is CFG.NET; so ACC is changed by the checksum commands only, and OPERAND by
none. -/
def Obligations.CommandsWriteOnlyTheirOutputs : Prop :=
  ∀ (i : Instr) (s t : State), s.Inv → exec i s = .next t →
    (∀ r : Reg, r.isData = true → r ∉ outputRegs i → t.regValue r = s.regValue r) ∧
    (∀ (b : Buf) (k : Nat), k < b.cap → b ∉ outputBufs i → (b = .exp → t.errcode ≠ 10) → t.elem b k = s.elem b k) ∧
    (i ≠ .cfgNet → t.netValid = s.netValid) ∧ OutsideKept s t

/-- 10_state.md R35: no command puts a value above 31 into WORDS. The spec marks this sentence of R35 as its own
inference, from R104, R121 and R175. -/
def Obligations.NoCommandStoresAWordAbove31 : Prop :=
  ∀ (i : Instr) (s t : State), s.mem.wf = true → exec i s = .next t → ∀ k < Config.capWords,
    (t.elem .words k).toNat ≤ 31 ∨ t.elem .words k = s.elem .words k

/-- 60_exceptions.md R245, R246: a length register above its buffer's capacity ends the command in LengthExceeded before
every check of its own; and LengthExceeded arises in no other way but from an output that does not fit: more than 128
words in CHR.DEC, a prefix longer than 64 or more than 128 data words in FRM.DEC, a hash longer than 64 in ADDR.DECRAW, each
where the function that yields the output succeeds. Which lengths a command checks is log 10. -/
def Obligations.InputLengthsAreCheckedFirst : Prop :=
  ∀ (i : Instr) (s : State),
    ((∃ b ∈ checkedInputs i, b.cap < s.len b) →
      ∃ t, exec i s = .next t ∧ Ends 21 t ∧ Frame [] [] s t ∧
        t.netValid = if i = .cfgNet then false else s.netValid) ∧
    ((∀ b ∈ checkedInputs i, s.len b ≤ b.cap) → ∀ t, exec i s = .next t → t.errcode = 21 →
      (i = .chrDec ∧ 128 < s.strLen.toNat ∧ ∀ c ∈ s.input .str, c ∈ charset) ∨
      (i = .frmDec ∧ ∃ p d, frameDec (s.input .str) = .ok (p, d) ∧ (64 < p.length ∨ 128 < d.length)) ∨
      (i = .addrDecraw ∧ ∃ r, addrDecRaw (s.input .net) (s.input .str) = .ok r ∧ 64 < r.hash.length))

/-- 46_address.md R212: with its input lengths in range and NET_VALID = 0, every ADDR command ends in
NetworkNotConfigured before any check of its own. -/
def Obligations.AddressCommandsNeedANetwork : Prop :=
  ∀ (i : Instr) (s : State),
    (i = .addrDecraw ∨ i = .addrDec ∨ ∃ nopfx, i = .addrEncraw nopfx ∨ i = .addrEnc nopfx) →
    (∀ b ∈ checkedInputs i, s.len b ≤ b.cap) → s.netValid = false → ∃ t, FailsWith i s 20 t

/-- 00_scope.md R18, 70_reset_and_hazards.md R272: a command is a function of the registers and elements it reads (by the
model's reading of R50, log 11) and of NET_VALID. Two states that agree there end in the same code, and each slot either
gets the same value in both or keeps its own in both. -/
def Obligations.ResultDependsOnlyOnWhatIsRead : Prop :=
  ∀ (i : Instr) (s t s' t' : State), s.Inv → t.Inv → AgreeOn (reads i s) s t → s.netValid = t.netValid →
    exec i s = .next s' → exec i t = .next t' →
    s'.errcode = t'.errcode ∧ s'.netValid = t'.netValid ∧
    ∀ slot : Slot, slot.mapped = true → slot ≠ .reg .status →
      s'.slotValue slot = t'.slotValue slot ∨ (s'.slotValue slot = s.slotValue slot ∧ t'.slotValue slot = t.slotValue slot)

/-! ### Charset (41_charset.md) -/

/-- 41_charset.md R100: the model's table of 32 characters is the alphabet of the rule, position for position. -/
def Obligations.CharsetIsTheAlphabet : Prop :=
  charset.length = 32 ∧ charset.map BitVec.toNat = alphabetText.toList.map Char.toNat ∧
  ∀ w : Byte, w.toNat ≤ 31 → charset[w.toNat]? = some (charAt w)

/-- 41_charset.md R106: the codec is a bijection between words 0 to 31 and the alphabet. The spec marks R106 as its
own inference, from R101 and R104. -/
def Obligations.CharsetCodecIsABijection : Prop :=
  (∀ ws : List Byte, (∀ w ∈ ws, w.toNat ≤ 31) → ∃ str, charEnc ws = .ok str ∧ charDec str = .ok ws) ∧
  (∀ str : List Byte, (∀ c ∈ str, c ∈ charset) → ∃ ws, charDec str = .ok ws ∧ charEnc ws = .ok str)

/-- 41_charset.md R102: CHR.ENC. -/
def Obligations.ChrEncMapsWordsToCharacters : Prop :=
  decode 0x00000010 = .ok .chrEnc ∧
  ∀ s : State, s.mem.wf = true →
    (128 < s.wordLen.toNat → ∃ t, FailsWith .chrEnc s 21 t) ∧
    (s.wordLen.toNat ≤ 128 → (∃ k < s.wordLen.toNat, 31 < (s.elem .words k).toNat) → ∃ t, FailsWith .chrEnc s 2 t) ∧
    (s.wordLen.toNat ≤ 128 → (∀ k < s.wordLen.toNat, (s.elem .words k).toNat ≤ 31) →
      ∃ t, Succeeds .chrEnc s [.strLen] (slotsOf .str s.wordLen.toNat) t ∧ t.strLen.toNat = s.wordLen.toNat ∧
        ∀ k < s.wordLen.toNat, charset[(s.elem .words k).toNat]? = some (t.elem .str k))

/-- 41_charset.md R105: CHR.DEC, with the order of its errors. -/
def Obligations.ChrDecMapsCharactersToWords : Prop :=
  decode 0x00000011 = .ok .chrDec ∧
  ∀ s : State, s.mem.wf = true →
    (256 < s.strLen.toNat → ∃ t, FailsWith .chrDec s 21 t) ∧
    (s.strLen.toNat ≤ 256 → (∃ k < s.strLen.toNat, s.elem .str k ∉ charset) → ∃ t, FailsWith .chrDec s 3 t) ∧
    (s.strLen.toNat ≤ 256 → (∀ k < s.strLen.toNat, s.elem .str k ∈ charset) →
      (128 < s.strLen.toNat → ∃ t, FailsWith .chrDec s 21 t) ∧
      (s.strLen.toNat ≤ 128 →
        ∃ t, Succeeds .chrDec s [.wordLen] (slotsOf .words s.strLen.toNat) t ∧ t.wordLen.toNat = s.strLen.toNat ∧
          ∀ k < s.strLen.toNat, charset[(t.elem .words k).toNat]? = some (s.elem .str k)))

/-! ### Radix conversion (42_radix.md) -/

/-- 42_radix.md R120, R121, R122: `B2W` cuts the bytes' bit string, most significant bit first, into words, and
completes the last one with at most four zero bits at its low end; so it yields `ceil(8n/5)` words. The spec marks
R122, the length, as its own inference from R121. -/
def Obligations.BytesToWordsCutsTheBitString : Prop :=
  ∀ bs : List Byte, (∀ w ∈ b2w bs, w.toNat ≤ 31) ∧ (b2w bs).length = (8 * bs.length + 4) / 5 ∧
    bitString 5 (b2w bs) = bitString 8 bs ++ List.replicate ((5 - 8 * bs.length % 5) % 5) false

/-- 42_radix.md R120, R124, R126, R127: `W2B` yields `bs` exactly when the words are in range and their bit string is that of
`bs` followed by fewer than five zero bits; a word out of range fails InvalidWord, anything else InvalidPadding. -/
def Obligations.WordsToBytesAcceptsExactlyZeroPadding : Prop :=
  ∀ ws : List Byte,
    (∀ bs : List Byte, w2b ws = .ok bs ↔
      (∀ w ∈ ws, w.toNat ≤ 31) ∧ ∃ pad < 5, bitString 5 ws = bitString 8 bs ++ List.replicate pad false) ∧
    (w2b ws = .error .invalidWord ↔ ∃ w ∈ ws, 31 < w.toNat) ∧
    (∀ e, w2b ws = .error e → e = .invalidWord ∨ e = .invalidPadding)

/-- 42_radix.md R128: the two conversions undo each other. The spec marks R128 as its own inference, from R121 and
R126. -/
def Obligations.RadixConversionsRoundTrip : Prop :=
  (∀ bs : List Byte, w2b (b2w bs) = .ok bs) ∧ (∀ ws bs : List Byte, w2b ws = .ok bs → b2w bs = ws)

/-- 42_radix.md R123: CVT.8TO5. -/
def Obligations.Cvt8to5ConvertsBytes : Prop :=
  decode 0x00000018 = .ok .cvt8to5 ∧
  ∀ s : State, s.mem.wf = true →
    (80 < s.byteLen.toNat → ∃ t, FailsWith .cvt8to5 s 21 t) ∧
    (s.byteLen.toNat ≤ 80 →
      ∃ t, Succeeds .cvt8to5 s [.wordLen] (slotsOf .words ((8 * s.byteLen.toNat + 4) / 5)) t ∧
        t.wordLen.toNat = (8 * s.byteLen.toNat + 4) / 5 ∧
        t.seq .words t.wordLen.toNat = b2w (s.seq .bytes s.byteLen.toNat))

/-- 42_radix.md R129, R125: CVT.5TO8, with the order of its errors. -/
def Obligations.Cvt5to8ConvertsWords : Prop :=
  decode 0x00000019 = .ok .cvt5to8 ∧
  ∀ s : State, s.mem.wf = true →
    (128 < s.wordLen.toNat → ∃ t, FailsWith .cvt5to8 s 21 t) ∧
    (s.wordLen.toNat ≤ 128 → (∃ k < s.wordLen.toNat, 31 < (s.elem .words k).toNat) → ∃ t, FailsWith .cvt5to8 s 2 t) ∧
    (s.wordLen.toNat ≤ 128 → (∀ k < s.wordLen.toNat, (s.elem .words k).toNat ≤ 31) →
      (s.wordLen.toNat % 8 ∈ [1, 3, 6] → ∃ t, FailsWith .cvt5to8 s 4 t) ∧
      (w2b (s.seq .words s.wordLen.toNat) = .error .invalidPadding → ∃ t, FailsWith .cvt5to8 s 4 t) ∧
      (∀ bs, w2b (s.seq .words s.wordLen.toNat) = .ok bs →
        ∃ t, Succeeds .cvt5to8 s [.byteLen] (slotsOf .bytes (5 * s.wordLen.toNat / 8)) t ∧
          t.byteLen.toNat = 5 * s.wordLen.toNat / 8 ∧ t.seq .bytes t.byteLen.toNat = bs))

/-! ### Checksum (43_checksum.md) -/

/-- 43_checksum.md R142: `Step` is linear, and the bits of its result. The spec marks R142 as its own inference, from
R140. -/
def Obligations.StepIsLinear : Prop :=
  polyStep 0 = 0 ∧ (∀ a c : Acc, polyStep (a ^^^ c) = polyStep a ^^^ polyStep c) ∧
  ∀ (a : Acc) (k : Nat), k < 40 →
    (polyStep a).getLsbD k = ((decide (5 ≤ k) && a.getLsbD (k - 5)) ^^ (a.getLsbD 35 && (0x98F2BC8E61 : Acc).getLsbD k) ^^
      (a.getLsbD 36 && (0x79B76D99E2 : Acc).getLsbD k) ^^ (a.getLsbD 37 && (0xF33E5FB3C4 : Acc).getLsbD k) ^^
      (a.getLsbD 38 && (0xAE2EABE2A8 : Acc).getLsbD k) ^^ (a.getLsbD 39 && (0x1E4F43E470 : Acc).getLsbD k))

/-- 43_checksum.md R152: `Step` is a bijection with the inverse the rule gives, its low 5 bits are the input's top 5,
and no number of steps takes a nonzero value to zero. The spec marks R152 as its own inference, from R140 and R142. -/
def Obligations.StepIsABijection : Prop :=
  (∀ a : Acc, stepInv (polyStep a) = a ∧ polyStep (stepInv a) = a) ∧
  (∀ a : Acc, (polyStep a).extractLsb' 0 5 = a.extractLsb' 35 5) ∧
  (∀ a c : Acc, polyStep a = polyStep c → a = c) ∧ (∀ (k : Nat) (e : Acc), e ≠ 0 → polySteps k e ≠ 0)

/-- 43_checksum.md R143, R144: ACC.INIT and POLY.STEP, with the examples of R144. -/
def Obligations.AccInitAndPolyStepWriteAcc : Prop :=
  decode 0x00000020 = .ok .accInit ∧ decode 0x00000021 = .ok .polyStep ∧
  (∀ s : State, ∃ t, Succeeds .accInit s [.accLo, .accHi] [] t ∧ t.acc = 0x0000000001) ∧
  (∀ s : State, ∃ t, Succeeds .polyStep s [.accLo, .accHi] [] t ∧ t.acc = polyStep s.acc) ∧
  polyStep 0x0000000001 = 0x0000000020 ∧ polyStep 0x8000000000 = 0x1E4F43E470 ∧
  polyStep 0x0800000000 = 0x98F2BC8E61 ∧ polyStep 0xFFFFFFFFFF = 0x5DE5995D7F

/-- 43_checksum.md R145, 10_state.md R36: POLY.FINAL finishes the accumulator and splits it into words, the most significant
first. -/
def Obligations.PolyFinalSplitsTheAccumulator : Prop :=
  decode 0x00000024 = .ok .polyFinal ∧
  ∀ s : State, s.mem.wf = true →
    ∃ t, Succeeds .polyFinal s [.accLo, .accHi] (slotsOf .ckw 8) t ∧ t.acc = s.acc ^^^ 1 ∧
      ∀ i < 8, (t.elem .ckw i).toNat = t.acc.toNat / 2 ^ (35 - 5 * i) % 32

/-- 43_checksum.md R146: POLY.FEEDW. -/
def Obligations.PolyFeedwAbsorbsAWord : Prop :=
  decode 0x00000022 = .ok .polyFeedw ∧
  ∀ s : State,
    (31 < s.operand.toNat → ∃ t, FailsWith .polyFeedw s 2 t) ∧
    (s.operand.toNat ≤ 31 →
      ∃ t, Succeeds .polyFeedw s [.accLo, .accHi] [] t ∧ t.acc = polyStep s.acc ^^^ s.operand.setWidth 40)

/-- 43_checksum.md R148: POLY.FEEDC; only the low 5 bits of the character enter the accumulator. -/
def Obligations.PolyFeedcAbsorbsACharacter : Prop :=
  decode 0x00000023 = .ok .polyFeedc ∧
  ∀ s : State,
    (s.operand.toNat < 33 ∨ 126 < s.operand.toNat ∨ (0x41 ≤ s.operand.toNat ∧ s.operand.toNat ≤ 0x5A) →
      ∃ t, FailsWith .polyFeedc s 5 t) ∧
    (33 ≤ s.operand.toNat → s.operand.toNat ≤ 126 → (s.operand.toNat < 0x41 ∨ 0x5A < s.operand.toNat) →
      ∃ t, Succeeds .polyFeedc s [.accLo, .accHi] [] t ∧
        t.acc = polyStep s.acc ^^^ BitVec.ofNat 40 (s.operand.toNat % 32))

/-- 43_checksum.md R149, R147: CHECKSUM, with the order of its errors. -/
def Obligations.ChecksumCommandComputesTheChecksum : Prop :=
  decode 0x00000028 = .ok .checksum ∧
  ∀ s : State, s.mem.wf = true →
    (64 < s.pfxLen.toNat ∨ 128 < s.wordLen.toNat → ∃ t, FailsWith .checksum s 21 t) ∧
    (s.pfxLen.toNat ≤ 64 → s.wordLen.toNat ≤ 128 →
      ((∃ k < s.pfxLen.toNat, prefixCharOk (s.elem .pfx k) = false) → ∃ t, FailsWith .checksum s 5 t) ∧
      ((∀ k < s.pfxLen.toNat, prefixCharOk (s.elem .pfx k) = true) →
        ((∃ k < s.wordLen.toNat, 31 < (s.elem .words k).toNat) → ∃ t, FailsWith .checksum s 2 t) ∧
        ((∀ k < s.wordLen.toNat, (s.elem .words k).toNat ≤ 31) →
          ∃ t, Succeeds .checksum s [.accLo, .accHi] (slotsOf .ckw 8) t ∧
            t.acc = checksumValue (s.seq .pfx s.pfxLen.toNat) (s.seq .words s.wordLen.toNat) ∧
            ∀ i < 8, (t.elem .ckw i).toNat = t.acc.toNat / 2 ^ (35 - 5 * i) % 32)))

/-- 43_checksum.md R150: the primitive commands, run one after another as the rule says, each complete with no error, and
the last leaves the ACC and CKW that CHECKSUM leaves for the same prefix and words. The spec marks R150 as its own
inference, from R143 to R149. -/
def Obligations.PrimitivesComputeTheChecksum : Prop :=
  ∀ (s : State), s.mem.wf = true → s.pfxLen.toNat ≤ 64 → s.wordLen.toNat ≤ 128 →
    (∀ k < s.pfxLen.toNat, prefixCharOk (s.elem .pfx k) = true) →
    (∀ k < s.wordLen.toNat, (s.elem .words k).toNat ≤ 31) →
    ∃ ts t u, completions (primitiveProgram (s.input .pfx) (s.input .words)) s = some ts ∧
      (∀ r ∈ ts, r.errcode = 0) ∧ ts.getLast? = some t ∧ exec .checksum s = .next u ∧ u.errcode = 0 ∧
      t.acc = u.acc ∧ ∀ i < 8, t.elem .ckw i = u.elem .ckw i

/-- 43_checksum.md R151: two legal prefixes of equal length whose characters agree in their low 5 bits have equal
checksums; "prefix" and "pre&ix" are such a pair. The spec marks R151 as its own inference, from R147. -/
def Obligations.ChecksumSeesOnlyFiveBitsOfThePrefix : Prop :=
  (∀ p q ws : List Byte, p.length = q.length → (∀ c ∈ p ++ q, prefixCharOk c = true) →
    p.map (fun c => c.toNat % 32) = q.map (fun c => c.toNat % 32) → checksumAcc p ws = checksumAcc q ws) ∧
  checksumAcc [0x70, 0x72, 0x65, 0x66, 0x69, 0x78] [] = checksumAcc [0x70, 0x72, 0x65, 0x26, 0x69, 0x78] []

/-- 43_checksum.md R153: one payload character of an accepted string replaced by a different alphabet character of the
same case always gives ChecksumMismatch. The spec marks R153 as its own inference, from R142, R147, R152 and R175. -/
def Obligations.SingleSubstitutionIsDetected : Prop :=
  ∀ (str p d : List Byte) (k j : Nat) (c c' : Byte), frameDec str = .ok (p, d) → lastSep str = some k → k < j →
    str[j]? = some c → lowerC c' ∈ charset → lowerC c' ≠ lowerC c → mixed (str.set j c') = false →
    ∃ expected, frameDec (str.set j c') = .error (.checksumMismatch expected)

/-! ### Framer (44_framer.md) -/

/-- 44_framer.md R171, R170, R172: FRM.ENC, with the order of its errors. The output is the lowercased prefix and the
separator unless NOPFX = 1, then one character per word, then 8 checksum characters. -/
def Obligations.FrmEncFramesPrefixAndWords : Prop :=
  decode 0x00000030 = .ok (.frmEnc false) ∧ decode 0x00000130 = .ok (.frmEnc true) ∧
  ∀ (nopfx : Bool) (s : State), s.mem.wf = true →
    (64 < s.pfxLen.toNat ∨ 128 < s.wordLen.toNat → ∃ t, FailsWith (.frmEnc nopfx) s 21 t) ∧
    (s.pfxLen.toNat ≤ 64 → s.wordLen.toNat ≤ 128 →
      (s.pfxLen = 0 → ∃ t, FailsWith (.frmEnc nopfx) s 6 t) ∧
      (s.pfxLen ≠ 0 → (∃ k < s.pfxLen.toNat, prefixCharOk (lowerC (s.elem .pfx k)) = false) →
        ∃ t, FailsWith (.frmEnc nopfx) s 5 t) ∧
      (s.pfxLen ≠ 0 → (∀ k < s.pfxLen.toNat, prefixCharOk (lowerC (s.elem .pfx k)) = true) →
        ((∃ k < s.wordLen.toNat, 31 < (s.elem .words k).toNat) → ∃ t, FailsWith (.frmEnc nopfx) s 2 t) ∧
        ((∀ k < s.wordLen.toNat, (s.elem .words k).toNat ≤ 31) →
          ∃ t, Succeeds (.frmEnc nopfx) s [.strLen] (slotsOf .str t.strLen.toNat) t ∧
            t.strLen.toNat = (if nopfx then 0 else s.pfxLen.toNat + 1) + s.wordLen.toNat + 8 ∧
            t.seq .str t.strLen.toNat =
              (if nopfx then [] else lower (s.input .pfx) ++ [sep]) ++
                (s.input .words ++ ckWords (checksumValue (lower (s.input .pfx)) (s.input .words))).map charAt)))

/-- 44_framer.md R176: FRM.DEC. Every other error of `FrameDec` is the command's error (FrameDecErrorOrder says which it
is). Of a string that is a frame in form, right checksum words give prefix and words, if they fit; wrong ones give
ChecksumMismatch with the expected characters in EXP. -/
def Obligations.FrmDecReadsFrames : Prop :=
  decode 0x00000031 = .ok .frmDec ∧
  (∀ s : State, 256 < s.strLen.toNat → ∃ t, FailsWith .frmDec s 21 t) ∧
  (∀ (s : State) (e : Err), s.strLen.toNat ≤ 256 → frameDec (s.input .str) = .error e → e.code ≠ 10 →
    ∃ t, FailsWith .frmDec s e.code.toNat t) ∧
  ∀ (s : State) (p ws c : List Byte), s.mem.wf = true → s.strLen.toNat ≤ 256 → Framed (s.input .str) p ws c →
    (c ≠ ckWords (checksumValue p ws) →
      ∃ t, FailsWithExpected .frmDec s ((ckWords (checksumValue p ws)).map charAt) t) ∧
    (c = ckWords (checksumValue p ws) → (64 < p.length ∨ 128 < ws.length) → ∃ t, FailsWith .frmDec s 21 t) ∧
    (c = ckWords (checksumValue p ws) → p.length ≤ 64 → ws.length ≤ 128 →
      ∃ t, Succeeds .frmDec s [.pfxLen, .wordLen] (slotsOf .pfx p.length ++ slotsOf .words ws.length) t ∧
        t.pfxLen.toNat = p.length ∧ t.wordLen.toNat = ws.length ∧ t.seq .pfx p.length = p ∧
        t.seq .words ws.length = ws)

/-- 44_framer.md R175, R174, R173: the errors of `FrameDec`, in order, on any string. -/
def Obligations.FrameDecErrorOrder : Prop :=
  ∀ str : List Byte,
    (mixed str = true → frameDec str = .error .mixedCase) ∧
    (mixed str = false → sep ∉ str → frameDec str = .error .missingSeparator) ∧
    (∀ p q : List Byte, mixed str = false → lower str = p ++ sep :: q → sep ∉ q →
      (p = [] → frameDec str = .error .missingSeparator) ∧
      (p ≠ [] → q.length < 8 → frameDec str = .error .payloadTooShort) ∧
      (p ≠ [] → 8 ≤ q.length → (∃ c ∈ q, c ∉ charset) → frameDec str = .error .invalidCharacter) ∧
      (p ≠ [] → 8 ≤ q.length → (∀ c ∈ q, c ∈ charset) → (∃ c ∈ p, prefixCharOk c = false) →
        frameDec str = .error .invalidPrefixChar) ∧
      (p ≠ [] → 8 ≤ q.length → (∀ c ∈ q, c ∈ charset) → (∀ c ∈ p, prefixCharOk c = true) →
        (∃ d, frameDec str = .ok (p, d)) ∨ ∃ expected, frameDec str = .error (.checksumMismatch expected)))

/-- 44_framer.md R177: encoding and decoding a frame undo each other, up to case. The spec marks R177 as its own
inference, from R170 and R175. -/
def Obligations.FramesRoundTrip : Prop :=
  (∀ p ws str : List Byte, frameEnc p ws true = .ok str → frameDec str = .ok (lower p, ws)) ∧
  (∀ str p d : List Byte, frameDec str = .ok (p, d) → frameEnc p d true = .ok (lower str))

/-- 44_framer.md R178: decoding an unmixed string does not depend on its case. The spec marks R178 as its own
inference, from R175 and R48. -/
def Obligations.FrameDecIgnoresCase : Prop :=
  ∀ str : List Byte, mixed str = false →
    frameDec (str.map upperC) = frameDec str ∧ frameDec (lower str) = frameDec str

/-! ### Version byte (45_version_byte.md) -/

/-- 45_version_byte.md R192, R193, R190: VB.PACK and VB.UNPACK, with the order of their errors. -/
def Obligations.VersionBytePacksAndUnpacks : Prop :=
  decode 0x00000038 = .ok .vbPack ∧ decode 0x00000039 = .ok .vbUnpack ∧
  ∀ s : State,
    (15 < s.typebits.toNat → ∃ t, FailsWith .vbPack s 13 t) ∧
    (s.typebits.toNat ≤ 15 → 7 < s.sizebits.toNat → ∃ t, FailsWith .vbPack s 14 t) ∧
    (s.typebits.toNat ≤ 15 → s.sizebits.toNat ≤ 7 →
      ∃ t, Succeeds .vbPack s [.vbyte] [] t ∧ t.vbyte.toNat = 8 * s.typebits.toNat + s.sizebits.toNat) ∧
    (128 ≤ s.vbyte.toNat → ∃ t, FailsWith .vbUnpack s 13 t) ∧
    (s.vbyte.toNat < 128 →
      ∃ t, Succeeds .vbUnpack s [.typebits, .sizebits] [] t ∧ t.typebits.toNat = s.vbyte.toNat / 8 ∧
        t.sizebits.toNat = s.vbyte.toNat % 8)

/-- 45_version_byte.md R194, R195, R191: VB.ENCTS and VB.DECTS, with the order of their errors.  -/
def Obligations.TypeAndSizeCodesMap : Prop :=
  decode 0x0000003A = .ok .vbEncts ∧ decode 0x0000003B = .ok .vbDects ∧
  ∀ s : State,
    (1 < s.outType.toNat → ∃ t, FailsWith .vbEncts s 15 t) ∧
    (s.outType.toNat ≤ 1 → s.hashLen.toNat ∉ [20, 24, 28, 32, 40, 48, 56, 64] → ∃ t, FailsWith .vbEncts s 16 t) ∧
    (∀ k < 8, s.outType.toNat ≤ 1 → [20, 24, 28, 32, 40, 48, 56, 64][k]? = some s.hashLen.toNat →
      ∃ t, Succeeds .vbEncts s [.typebits, .sizebits] [] t ∧ t.typebits = s.outType ∧ t.sizebits.toNat = k) ∧
    (1 < s.typebits.toNat → ∃ t, FailsWith .vbDects s 17 t) ∧
    (s.typebits.toNat ≤ 1 → 7 < s.sizebits.toNat → ∃ t, FailsWith .vbDects s 18 t) ∧
    (s.typebits.toNat ≤ 1 → s.sizebits.toNat ≤ 7 →
      ∃ t, Succeeds .vbDects s [.outType, .sizelen] [] t ∧ t.outType = s.typebits ∧
        [20, 24, 28, 32, 40, 48, 56, 64][s.sizebits.toNat]? = some t.sizelen.toNat)

/-- 45_version_byte.md R196: the version-byte commands undo each other: the second, run in any state that holds what the
first wrote, gives back what the first read. The spec marks R196 as its own inference, from R192 to R195. -/
def Obligations.VersionByteCommandsRoundTrip : Prop :=
  ∀ s : State,
    (s.typebits.toNat ≤ 15 → s.sizebits.toNat ≤ 7 →
      ∃ t, exec .vbPack s = .next t ∧ t.errcode = 0 ∧ ∀ v : State, v.vbyte = t.vbyte →
        ∃ u, exec .vbUnpack v = .next u ∧ u.errcode = 0 ∧ u.typebits = s.typebits ∧ u.sizebits = s.sizebits) ∧
    (s.vbyte.toNat < 128 →
      ∃ t, exec .vbUnpack s = .next t ∧ t.errcode = 0 ∧
        ∀ v : State, v.typebits = t.typebits → v.sizebits = t.sizebits →
          ∃ u, exec .vbPack v = .next u ∧ u.errcode = 0 ∧ u.vbyte = s.vbyte) ∧
    (s.outType.toNat ≤ 1 → s.hashLen.toNat ∈ [20, 24, 28, 32, 40, 48, 56, 64] →
      ∃ t, exec .vbEncts s = .next t ∧ t.errcode = 0 ∧
        ∀ v : State, v.typebits = t.typebits → v.sizebits = t.sizebits →
          ∃ u, exec .vbDects v = .next u ∧ u.errcode = 0 ∧ u.outType = s.outType ∧
            u.sizelen.toNat = s.hashLen.toNat)

/-! ### Network and addresses (46_address.md) -/

/-- 46_address.md R210: CFG.NET, with the order of its errors; an error clears NET_VALID. -/
def Obligations.CfgNetValidatesAndLowercases : Prop :=
  decode 0x00000001 = .ok .cfgNet ∧
  ∀ s : State, s.mem.wf = true →
    (64 < s.netLen.toNat →
      ∃ t, exec .cfgNet s = .next t ∧ Ends 21 t ∧ Frame [] [] s t ∧ t.netValid = false) ∧
    (s.netLen = 0 ∨ (s.netLen.toNat ≤ 64 ∧ mixed (s.input .net) = true) →
      ∃ t, exec .cfgNet s = .next t ∧ Ends 11 t ∧ Frame [] [] s t ∧ t.netValid = false) ∧
    (s.netLen ≠ 0 → s.netLen.toNat ≤ 64 → mixed (s.input .net) = false →
      ∃ t, exec .cfgNet s = .next t ∧ Ends 0 t ∧ Frame [] (slotsOf .net s.netLen.toNat) s t ∧ t.netValid = true ∧
        ∀ k < s.netLen.toNat, t.elem .net k = lowerC (s.elem .net k))

/-- 46_address.md R217, R216, R214, R212: ADDR.ENCRAW, with the order of its errors. That it succeeds under a network
prefix that holds ':' is the model's choice, log 15, against a corner case of R210. -/
def Obligations.AddrEncrawBuildsTheAddress : Prop :=
  decode 0x00000040 = .ok (.addrEncraw false) ∧ decode 0x00000140 = .ok (.addrEncraw true) ∧
  ∀ (nopfx : Bool) (s : State), s.Inv →
    (64 < s.hashLen.toNat → ∃ t, FailsWith (.addrEncraw nopfx) s 21 t) ∧
    (s.hashLen.toNat ≤ 64 → s.netValid = false → ∃ t, FailsWith (.addrEncraw nopfx) s 20 t) ∧
    (s.hashLen.toNat ≤ 64 → s.netValid = true →
      (15 < s.typebits.toNat → ∃ t, FailsWith (.addrEncraw nopfx) s 13 t) ∧
      (s.typebits.toNat ≤ 15 → 7 < s.sizebits.toNat → ∃ t, FailsWith (.addrEncraw nopfx) s 14 t) ∧
      (s.typebits.toNat ≤ 15 → s.sizebits.toNat ≤ 7 →
        ((∃ k < s.netLen.toNat, prefixCharOk (s.elem .net k) = false) → ∃ t, FailsWith (.addrEncraw nopfx) s 5 t) ∧
        ((∀ k < s.netLen.toNat, prefixCharOk (s.elem .net k) = true) →
          let payload := b2w (BitVec.ofNat 8 (8 * s.typebits.toNat + s.sizebits.toNat) :: s.input .hash)
          ∃ t, Succeeds (.addrEncraw nopfx) s [.strLen] (slotsOf .str t.strLen.toNat) t ∧
            t.strLen.toNat = (if nopfx then 0 else s.netLen.toNat + 1) + payload.length + 8 ∧
            t.seq .str t.strLen.toNat = (if nopfx then [] else s.input .net ++ [sep]) ++
              (payload ++ ckWords (checksumValue (s.input .net) payload)).map charAt)))

/-- 46_address.md R218, R216, R214, R212: ADDR.ENC, with the order of its errors. The payload lengths are the table of R215,
an inference the spec marks as its own. That it succeeds under a network prefix that holds ':' is the model's choice,
log 15, against a corner case of R210. -/
def Obligations.AddrEncBuildsTheAddress : Prop :=
  decode 0x00000041 = .ok (.addrEnc false) ∧ decode 0x00000141 = .ok (.addrEnc true) ∧
  ∀ (nopfx : Bool) (s : State), s.Inv →
    (64 < s.hashLen.toNat → ∃ t, FailsWith (.addrEnc nopfx) s 21 t) ∧
    (s.hashLen.toNat ≤ 64 → s.netValid = false → ∃ t, FailsWith (.addrEnc nopfx) s 20 t) ∧
    (s.hashLen.toNat ≤ 64 → s.netValid = true →
      (1 < s.outType.toNat → ∃ t, FailsWith (.addrEnc nopfx) s 15 t) ∧
      (s.outType.toNat ≤ 1 → s.hashLen.toNat ∉ [20, 24, 28, 32, 40, 48, 56, 64] →
        ∃ t, FailsWith (.addrEnc nopfx) s 16 t) ∧
      (∀ k < 8, s.outType.toNat ≤ 1 → [20, 24, 28, 32, 40, 48, 56, 64][k]? = some s.hashLen.toNat →
        ((∃ j < s.netLen.toNat, prefixCharOk (s.elem .net j) = false) → ∃ t, FailsWith (.addrEnc nopfx) s 5 t) ∧
        ((∀ j < s.netLen.toNat, prefixCharOk (s.elem .net j) = true) →
          let payload := b2w (BitVec.ofNat 8 (8 * s.outType.toNat + k) :: s.input .hash)
          ∃ t, Succeeds (.addrEnc nopfx) s [.strLen] (slotsOf .str t.strLen.toNat) t ∧
            (∃ n, [42, 48, 55, 61, 74, 87, 100, 112][k]? = some n ∧
              t.strLen.toNat = (if nopfx then 0 else s.netLen.toNat + 1) + n) ∧
            t.seq .str t.strLen.toNat = (if nopfx then [] else s.input .net ++ [sep]) ++
              (payload ++ ckWords (checksumValue (s.input .net) payload)).map charAt)))

/-- 46_address.md R223, R222, R219, R212: ADDR.DECRAW. The other errors of `FrameDec` pass through (FrameDecErrorOrder says
which it is); a frame with wrong checksum words gives ChecksumMismatch; a valid frame of the network's prefix gives the
codes and the hash of its bytes, or the first failing check after the framer's. That a network prefix that holds ':'
decodes is the model's choice, log 15, against a corner case of R210. -/
def Obligations.AddrDecrawReadsAddresses : Prop :=
  decode 0x00000042 = .ok .addrDecraw ∧
  (∀ s : State, 256 < s.strLen.toNat → ∃ t, FailsWith .addrDecraw s 21 t) ∧
  (∀ s : State, s.strLen.toNat ≤ 256 → s.netValid = false → ∃ t, FailsWith .addrDecraw s 20 t) ∧
  (∀ (s : State) (e : Err), s.strLen.toNat ≤ 256 → s.netValid = true → frameDec s.addressInput = .error e →
    e.code ≠ 10 → ∃ t, FailsWith .addrDecraw s e.code.toNat t) ∧
  ∀ (s : State) (p ws : List Byte), s.Inv → s.netValid = true → s.strLen.toNat ≤ 256 →
    (∀ c, Framed s.addressInput p ws c → c ≠ ckWords (checksumValue p ws) →
      ∃ t, FailsWithExpected .addrDecraw s ((ckWords (checksumValue p ws)).map charAt) t) ∧
    (ValidFrame s.addressInput p ws → p ≠ s.input .net → ∃ t, FailsWith .addrDecraw s 12 t) ∧
    (ValidFrame s.addressInput (s.input .net) ws →
      (w2b ws = .error .invalidPadding → ∃ t, FailsWith .addrDecraw s 4 t) ∧
      (ws = [] → ∃ t, FailsWith .addrDecraw s 22 t) ∧
      (∀ vb h, w2b ws = .ok (vb :: h) →
        (128 ≤ vb.toNat → ∃ t, FailsWith .addrDecraw s 13 t) ∧
        (vb.toNat < 128 → 64 < h.length → ∃ t, FailsWith .addrDecraw s 21 t) ∧
        (vb.toNat < 128 → h.length ≤ 64 →
          ∃ t, Succeeds .addrDecraw s [.typebits, .sizebits, .hashLen] (slotsOf .hash h.length) t ∧
            t.typebits.toNat = vb.toNat / 8 ∧ t.sizebits.toNat = vb.toNat % 8 ∧ t.hashLen.toNat = h.length ∧
            t.seq .hash h.length = h)))

/-- 46_address.md R224, R222, R219, R212: ADDR.DEC, likewise; it also checks the type and the hash's
length against the size code, and writes neither TYPEBITS nor SIZEBITS. That a network prefix that holds ':' decodes is
the model's choice, log 15, against a corner case of R210. -/
def Obligations.AddrDecReadsAddresses : Prop :=
  decode 0x00000043 = .ok .addrDec ∧
  (∀ s : State, 256 < s.strLen.toNat → ∃ t, FailsWith .addrDec s 21 t) ∧
  (∀ s : State, s.strLen.toNat ≤ 256 → s.netValid = false → ∃ t, FailsWith .addrDec s 20 t) ∧
  (∀ (s : State) (e : Err), s.strLen.toNat ≤ 256 → s.netValid = true → frameDec s.addressInput = .error e →
    e.code ≠ 10 → ∃ t, FailsWith .addrDec s e.code.toNat t) ∧
  ∀ (s : State) (p ws : List Byte), s.Inv → s.netValid = true → s.strLen.toNat ≤ 256 →
    (∀ c, Framed s.addressInput p ws c → c ≠ ckWords (checksumValue p ws) →
      ∃ t, FailsWithExpected .addrDec s ((ckWords (checksumValue p ws)).map charAt) t) ∧
    (ValidFrame s.addressInput p ws → p ≠ s.input .net → ∃ t, FailsWith .addrDec s 12 t) ∧
    (ValidFrame s.addressInput (s.input .net) ws →
      (w2b ws = .error .invalidPadding → ∃ t, FailsWith .addrDec s 4 t) ∧
      (ws = [] → ∃ t, FailsWith .addrDec s 22 t) ∧
      (∀ vb h, w2b ws = .ok (vb :: h) →
        (128 ≤ vb.toNat → ∃ t, FailsWith .addrDec s 13 t) ∧
        (16 ≤ vb.toNat → vb.toNat < 128 → ∃ t, FailsWith .addrDec s 17 t) ∧
        (vb.toNat < 16 → [20, 24, 28, 32, 40, 48, 56, 64][vb.toNat % 8]? ≠ some h.length →
          ∃ t, FailsWith .addrDec s 19 t) ∧
        (vb.toNat < 16 → [20, 24, 28, 32, 40, 48, 56, 64][vb.toNat % 8]? = some h.length →
          ∃ t, Succeeds .addrDec s [.outType, .hashLen] (slotsOf .hash h.length) t ∧
            t.outType.toNat = vb.toNat / 8 ∧ t.hashLen.toNat = h.length ∧ t.seq .hash h.length = h)))

/-- 46_address.md R225: ADDR.ENC, with or without prefix, followed by ADDR.DEC gives the type and the hash back: ADDR.DEC
in any state that holds the resulting STR and the same network, whatever TYPE, HASH_LEN and HASH hold there. That
both complete under a network prefix that holds ':' is the model's choice, log 15, against a corner case of R210. The
spec marks R225 as its own inference, from R218, R224, R177 and R128. -/
def Obligations.AddressesRoundTrip : Prop :=
  ∀ (nopfx : Bool) (s : State), s.Inv → s.netValid = true →
    (∀ k < s.netLen.toNat, prefixCharOk (s.elem .net k) = true) → s.outType.toNat ≤ 1 →
    s.hashLen.toNat ∈ [20, 24, 28, 32, 40, 48, 56, 64] →
    ∃ t, exec (.addrEnc nopfx) s = .next t ∧ t.errcode = 0 ∧
      ∀ v : State, v.mem.wf = true → v.netValid = true → v.netLen = t.netLen → v.strLen = t.strLen →
        (∀ k < t.netLen.toNat, v.elem .net k = t.elem .net k) →
        (∀ k < t.strLen.toNat, v.elem .str k = t.elem .str k) →
        ∃ u, exec .addrDec v = .next u ∧ u.errcode = 0 ∧ u.outType = s.outType ∧ u.hashLen = s.hashLen ∧
          u.seq .hash s.hashLen.toNat = s.seq .hash s.hashLen.toNat

/-- 46_address.md R220, 90_conflicts.md C5: an address without a prefix that holds an uppercase letter, under a
network prefix with a letter, fails MixedCase in both decoding commands. The spec marks R220 as its own inference,
from R219 and R175. -/
def Obligations.UppercaseWithoutPrefixFailsMixedCase : Prop :=
  ∀ s : State, s.Inv → s.netValid = true → s.strLen.toNat ≤ 256 → sep ∉ s.input .str →
    (∃ c ∈ s.input .str, isUpper c = true) → (∃ c ∈ s.input .net, isLowerLetter c = true) →
    (∃ t, FailsWith .addrDecraw s 7 t) ∧ (∃ t, FailsWith .addrDec s 7 t)
end

