-- ==== Sys2Proof/Laws/Codec.lean ====
section
/-! SUPPORT. What each shared function of the codec does, said once: the charset maps, the absorbing loops of the
checksum, the separator search and the case mapping. -/

set_option Elab.async false -- kernel computations one after another: fewer threads, less memory

namespace Sys2Proof.Machine

theorem wordOk_iff (w : Byte) : wordOk w = true ↔ w.toNat ≤ 31 := by simp [wordOk]

/-- A check of all 256 bytes. -/
theorem forall_byte (f : Byte → Bool) (h : (List.range 256).all (fun n => f (BitVec.ofNat 8 n)) = true) (c : Byte) :
    f c = true := by
  have := List.all_eq_true.mp h c.toNat (List.mem_range.mpr c.isLt)
  simpa using this

/-! ### Charset (41_charset.md) -/

theorem charIndex_charAt (w : Byte) (h : wordOk w = true) : charIndex (charAt w) = some w := by
  have := forall_byte (fun w => !wordOk w || charIndex (charAt w) == some w) (by decide +kernel) w
  simpa [h] using this

theorem charAt_charIndex (c w : Byte) (h : charIndex c = some w) : charAt w = c ∧ wordOk w = true := by
  have := forall_byte (fun c => (charIndex c).all fun w => charAt w == c && wordOk w) (by decide +kernel) c
  simpa [h] using this

/-- Every word in range maps through the alphabet (R101). -/
theorem charEnc_ok {ws : List Byte} (h : ∀ w ∈ ws, wordOk w = true) : charEnc ws = .ok (ws.map charAt) := by
  induction ws with
  | nil => rfl
  | cons w ws ih =>
    rw [charEnc, if_pos (h w (by simp)), ih fun v hv => h v (by simp [hv])]
    rfl

/-- A word out of range fails (R101). -/
theorem charEnc_error {ws : List Byte} (h : ∃ w ∈ ws, wordOk w = false) : charEnc ws = .error .invalidWord := by
  induction ws with
  | nil => simp at h
  | cons w ws ih =>
    rw [charEnc]
    split
    · next hw =>
      obtain ⟨v, hv, hf⟩ := h
      rcases List.mem_cons.mp hv with rfl | hv
      · simp [hw] at hf
      · rw [ih ⟨v, hv, hf⟩]; rfl
    · rfl

/-- The inverse map undoes the alphabet (R104). -/
theorem charDec_map_charAt {ws : List Byte} (h : ∀ w ∈ ws, wordOk w = true) : charDec (ws.map charAt) = .ok ws := by
  induction ws with
  | nil => rfl
  | cons w ws ih =>
    rw [List.map_cons, charDec, charIndex_charAt w (h w (by simp)), ih fun v hv => h v (by simp [hv])]
    rfl

/-- What the inverse map yields are words in range that map back (R104). -/
theorem charDec_eq_ok {cs ws : List Byte} (h : charDec cs = .ok ws) :
    ws.map charAt = cs ∧ ∀ w ∈ ws, wordOk w = true := by
  induction cs generalizing ws with
  | nil => cases h; simp
  | cons c cs ih =>
    rw [charDec] at h
    split at h
    · cases h
    · next v hv =>
      cases hd : charDec cs with
      | error e => rw [hd] at h; cases h
      | ok vs =>
        rw [hd] at h
        cases h
        obtain ⟨hc, hw⟩ := charAt_charIndex c v hv
        obtain ⟨hm, hok⟩ := ih hd
        simp [hm, hc, hw]
        exact fun w hw => hok w hw

/-- A character outside the alphabet fails (R104). -/
theorem charDec_error {cs : List Byte} (h : ∃ c ∈ cs, charIndex c = none) : charDec cs = .error .invalidCharacter := by
  induction cs with
  | nil => simp at h
  | cons c cs ih =>
    rw [charDec]
    split
    · rfl
    · next v hv =>
      obtain ⟨d, hd, hn⟩ := h
      rcases List.mem_cons.mp hd with rfl | hd
      · simp [hv] at hn
      · rw [ih ⟨d, hd, hn⟩]; rfl

/-! ### The absorbing loops (43_checksum.md R147) -/

theorem absorbPrefix_ok {p : List Byte} (a : Acc) (h : ∀ c ∈ p, prefixCharOk c = true) :
    absorbPrefix a p = .ok (p.foldl absorbChar a) := by
  induction p generalizing a with
  | nil => rfl
  | cons c p ih =>
    rw [absorbPrefix, if_pos (h c (by simp)), ih _ fun d hd => h d (by simp [hd])]
    rfl

theorem absorbPrefix_error {p : List Byte} (a : Acc) (h : ∃ c ∈ p, prefixCharOk c = false) :
    absorbPrefix a p = .error .invalidPrefixChar := by
  induction p generalizing a with
  | nil => simp at h
  | cons c p ih =>
    rw [absorbPrefix]
    split
    · next hc =>
      obtain ⟨d, hd, hf⟩ := h
      rcases List.mem_cons.mp hd with rfl | hd
      · simp [hc] at hf
      · exact ih _ ⟨d, hd, hf⟩
    · rfl

theorem absorbWords_ok {ws : List Byte} (a : Acc) (h : ∀ w ∈ ws, wordOk w = true) :
    absorbWords a ws = .ok (ws.foldl absorbWord a) := by
  induction ws generalizing a with
  | nil => rfl
  | cons w ws ih =>
    rw [absorbWords, if_pos (h w (by simp)), ih _ fun v hv => h v (by simp [hv])]
    rfl

theorem absorbWords_error {ws : List Byte} (a : Acc) (h : ∃ w ∈ ws, wordOk w = false) :
    absorbWords a ws = .error .invalidWord := by
  induction ws generalizing a with
  | nil => simp at h
  | cons w ws ih =>
    rw [absorbWords]
    split
    · next hw =>
      obtain ⟨v, hv, hf⟩ := h
      rcases List.mem_cons.mp hv with rfl | hv
      · simp [hw] at hf
      · exact ih _ ⟨v, hv, hf⟩
    · rfl

theorem checksumAcc_ok {p ws : List Byte} (hp : ∀ c ∈ p, prefixCharOk c = true) (hw : ∀ w ∈ ws, wordOk w = true) :
    checksumAcc p ws = .ok (checksumValue p ws) := by
  rw [checksumAcc, absorbPrefix_ok _ hp]
  show (absorbWords (polyStep (p.foldl absorbChar 1)) ws >>= _) = _
  rw [absorbWords_ok _ hw]
  rfl

theorem checksumAcc_prefix_error {p : List Byte} (ws : List Byte) (hp : ∃ c ∈ p, prefixCharOk c = false) :
    checksumAcc p ws = .error .invalidPrefixChar := by
  rw [checksumAcc, absorbPrefix_error _ hp]
  rfl

theorem checksumAcc_word_error {p ws : List Byte} (hp : ∀ c ∈ p, prefixCharOk c = true)
    (hw : ∃ w ∈ ws, wordOk w = false) : checksumAcc p ws = .error .invalidWord := by
  rw [checksumAcc, absorbPrefix_ok _ hp]
  show (absorbWords (polyStep (p.foldl absorbChar 1)) ws >>= _) = _
  rw [absorbWords_error _ hw]
  rfl

@[simp] theorem ckWords_length (a : Acc) : (ckWords a).length = 8 := by simp [ckWords, Config.nCk]

theorem ckDigit_ok (a : Acc) (i : Nat) : wordOk (ckDigit a i) = true := by
  simp only [wordOk, ckDigit, decide_eq_true_eq, BitVec.toNat_setWidth]
  have h := (a.extractLsb' (35 - 5 * i) 5).isLt
  exact Nat.le_trans (Nat.mod_le _ _) (by omega)

/-- Checksum words are in range (R145). -/
theorem ckWords_ok (a : Acc) : ∀ w ∈ ckWords a, wordOk w = true := by
  intro w hw
  obtain ⟨i, _, rfl⟩ := List.mem_map.mp hw
  exact ckDigit_ok a i

/-! ### The separator (44_framer.md R173) -/

theorem lastSep_cons_none {c : Byte} {s : List Byte} (h : lastSep s = none) :
    lastSep (c :: s) = if c = sep then some 0 else none := by rw [lastSep, h]

theorem lastSep_cons_some {c : Byte} {s : List Byte} {k : Nat} (h : lastSep s = some k) :
    lastSep (c :: s) = some (k + 1) := by rw [lastSep, h]

theorem lastSep_eq_none {s : List Byte} : lastSep s = none ↔ sep ∉ s := by
  induction s with
  | nil => simp [lastSep]
  | cons c s ih =>
    cases h : lastSep s with
    | some k =>
      have hm : sep ∈ s := by
        by_contra hn
        simp [ih.mpr hn] at h
      simp [lastSep_cons_some h, hm]
    | none => simp [lastSep_cons_none h, ih.mp h, eq_comm]

/-- The separator found is the last one: what follows it holds none. -/
theorem lastSep_eq_some {s : List Byte} {k : Nat} :
    lastSep s = some k ↔ ∃ p q, s = p ++ sep :: q ∧ p.length = k ∧ sep ∉ q := by
  induction s generalizing k with
  | nil => simp [lastSep]
  | cons c s ih =>
    cases h : lastSep s with
    | some j =>
      obtain ⟨p, q, hs, hl, hq⟩ := ih.mp h
      simp only [lastSep_cons_some h, Option.some.injEq]
      constructor
      · rintro rfl
        exact ⟨c :: p, q, by simp [hs], by simp [hl], hq⟩
      · rintro ⟨p', q', hs', hl', hq'⟩
        cases p' with
        | nil =>
          simp only [List.nil_append, List.cons.injEq] at hs'
          exact absurd (by rw [← hs'.2, hs]; simp) hq'
        | cons d p' =>
          simp only [List.cons_append, List.cons.injEq] at hs'
          have := ih.mpr ⟨p', q', hs'.2, rfl, hq'⟩
          rw [h] at this
          simp only [Option.some.injEq] at this
          simp [← hl', this]
    | none =>
      have hn := lastSep_eq_none.mp h
      rw [lastSep_cons_none h]
      constructor
      · intro hk
        split at hk
        · next hc =>
          cases hk
          exact ⟨[], s, by simp [hc], rfl, hn⟩
        · cases hk
      · rintro ⟨p', q', hs', hl', hq'⟩
        cases p' with
        | nil =>
          simp only [List.nil_append, List.cons.injEq] at hs'
          simp [hs'.1, ← hl']
        | cons d p' =>
          simp only [List.cons_append, List.cons.injEq] at hs'
          exact absurd (by rw [hs'.2]; simp) hn

/-! ### Case mapping (10_state.md R48) -/

theorem lowerC_not_upper (c : Byte) : isUpper (lowerC c) = false := by
  simpa using forall_byte (fun c => !isUpper (lowerC c)) (by decide +kernel) c

theorem lowerC_of_not_upper {c : Byte} (h : isUpper c = false) : lowerC c = c := by simp [lowerC, h]

theorem lowerC_eq_sep (c : Byte) : lowerC c = sep ↔ c = sep := by
  have := forall_byte (fun c => decide (lowerC c = sep ↔ c = sep)) (by decide +kernel) c
  simpa using this

theorem prefixCharOk_not_upper {c : Byte} (h : prefixCharOk c = true) : isUpper c = false := by
  simp only [prefixCharOk, Bool.and_eq_true, Bool.not_eq_true'] at h
  exact h.2

theorem charAt_not_upper {w : Byte} (h : wordOk w = true) : isUpper (charAt w) = false ∧ charAt w ≠ sep := by
  have := forall_byte (fun w => !wordOk w || (!isUpper (charAt w) && charAt w != sep)) (by decide +kernel) w
  simpa [h] using this

theorem lower_of_not_upper {s : List Byte} (h : ∀ c ∈ s, isUpper c = false) : lower s = s := by
  have := List.map_congr_left (f := lowerC) (g := id) fun c hc => lowerC_of_not_upper (h c hc)
  rw [lower, this, List.map_id]

theorem mixed_of_not_upper {s : List Byte} (h : ∀ c ∈ s, isUpper c = false) : mixed s = false := by
  have : s.any isUpper = false := by simpa using h
  simp [mixed, this]

/-! ### Size codes (45_version_byte.md R191) -/

theorem sizeCode_sizeLength (sb : Byte) (h : sizebitsOk sb = true) : sizeCode (sizeLength sb) = some sb := by
  have := forall_byte (fun sb => !sizebitsOk sb || sizeCode (sizeLength sb) == some sb) (by decide +kernel) sb
  simpa [h] using this

theorem sizeLength_sizeCode {n : Nat} {sb : Byte} (h : sizeCode n = some sb) :
    sizeLength sb = n ∧ sizebitsOk sb = true := by
  by_cases hn : n < 65
  · have hall : (List.range 65).all (fun n => (sizeCode n).all fun sb => sizeLength sb == n && sizebitsOk sb) = true := by
      decide +kernel
    have := List.all_eq_true.mp hall n (List.mem_range.mpr hn)
    simpa [h] using this
  · have h0 : sizes.findIdx? (· == n) = none := by
      rw [List.findIdx?_eq_none_iff]
      intro x hx
      have : x ≤ 64 := by
        revert x
        decide
      simp only [beq_eq_false_iff_ne, ne_eq]
      omega
    simp [sizeCode, h0] at h

end Sys2Proof.Machine
end

