-- ==== Sys2Proof/Laws/Memory.lean ====
section
/-! SUPPORT. What the operations over buffer contents and offset sets do, said once: read after write, and that every
operation keeps the canonical form. -/

namespace Sys2Proof.Machine

/-- Every listed offset of `m` lies above `a`. -/
def Memory.above (a : Nat) (m : Memory) : Prop := ∀ c ∈ m, a < c.1

theorem Memory.wf_nil : Memory.wf [] = true := rfl

theorem Memory.wf_cons (c : Host.Cell) (m : Memory) :
    Memory.wf (c :: m) = true ↔ c.2 ≠ unlistedByte ∧ m.above c.1 ∧ m.wf = true := by
  induction m generalizing c with
  | nil => simp [Memory.wf, Memory.above]
  | cons d m ih =>
    simp only [Memory.wf, Bool.and_eq_true, decide_eq_true_eq, bne_iff_ne, ne_eq, Memory.above,
      List.mem_cons, forall_eq_or_imp]
    constructor
    · rintro ⟨⟨hc, hlt⟩, hwf⟩
      obtain ⟨_, hab, _⟩ := (ih d).mp hwf
      exact ⟨hc, ⟨hlt, fun x hx => Nat.lt_trans hlt (hab x hx)⟩, hwf⟩
    · rintro ⟨hc, ⟨hlt, _⟩, hwf⟩
      exact ⟨⟨hc, hlt⟩, hwf⟩

theorem Memory.read_of_above {m : Memory} {a : Nat} (h : m.above a) : m.read a = unlistedByte := by
  induction m with
  | nil => rfl
  | cons c m ih =>
    have hc : a < c.1 := h c (by simp)
    have hm : Memory.above a m := fun x hx => h x (by simp [hx])
    simp [Memory.read, Nat.ne_of_gt hc, ih hm]

theorem Memory.above_mono {m : Memory} {a b : Nat} (hab : a ≤ b) (h : m.above b) : m.above a :=
  fun c hc => Nat.lt_of_le_of_lt hab (h c hc)

/-- A write leaves every other offset alone. -/
theorem Memory.read_write_other (m : Memory) {a x : Nat} (v : Byte) (hx : x ≠ a) : (m.write a v).read x = m.read x := by
  induction m with
  | nil => by_cases hv : v = unlistedByte <;> simp [Memory.write, Memory.read, hv, Ne.symm hx]
  | cons c m ih =>
    simp only [Memory.write]
    split
    · simp [Memory.read, ih]
    · split
      · next hc => split <;> simp [Memory.read, hc, Ne.symm hx]
      · split
        · rfl
        · simp [Memory.read, Ne.symm hx]

/-- A read after a write to the same offset gives the value written. -/
theorem Memory.read_write_same {m : Memory} (hm : m.wf = true) (a : Nat) (v : Byte) : (m.write a v).read a = v := by
  induction m with
  | nil => by_cases hv : v = unlistedByte <;> simp [Memory.write, Memory.read, hv]
  | cons c m ih =>
    obtain ⟨_, hab, hwf⟩ := (Memory.wf_cons c m).mp hm
    simp only [Memory.write]
    split
    · next hlt => simp [Memory.read, Nat.ne_of_lt hlt, ih hwf]
    · split
      · next hc =>
        split
        · next hv => rw [hv, Memory.read_of_above (hc ▸ hab)]
        · simp [Memory.read]
      · next hlt hne =>
        split
        · next hv =>
          have : Memory.above a (c :: m) := by
            intro x hx
            rcases List.mem_cons.mp hx with rfl | hx
            · omega
            · exact Nat.lt_trans (by omega) (hab x hx)
          rw [hv, Memory.read_of_above this]
        · simp [Memory.read]

/-- The offsets a write can list: the old ones and the one written. -/
theorem Memory.mem_write {m : Memory} {a : Nat} {v : Byte} {c : Host.Cell} (h : c ∈ m.write a v) :
    c ∈ m ∨ c = (a, v) := by
  induction m with
  | nil => by_cases hv : v = unlistedByte <;> simp_all [Memory.write]
  | cons d m ih =>
    simp only [Memory.write] at h
    split at h
    · rcases List.mem_cons.mp h with rfl | h
      · simp
      · rcases ih h with h | h <;> simp [h]
    · split at h
      · split at h
        · simp [h]
        · rcases List.mem_cons.mp h with h | h <;> simp [h]
      · split at h
        · exact .inl h
        · rcases List.mem_cons.mp h with h | h
          · exact .inr h
          · exact .inl h

/-- A write keeps the canonical form. -/
theorem Memory.wf_write {m : Memory} (hm : m.wf = true) (a : Nat) (v : Byte) : (m.write a v).wf = true := by
  induction m with
  | nil => by_cases hv : v = unlistedByte <;> simp [Memory.write, Memory.wf, hv]
  | cons c m ih =>
    obtain ⟨hc, hab, hwf⟩ := (Memory.wf_cons c m).mp hm
    simp only [Memory.write]
    split
    · next hlt =>
      refine (Memory.wf_cons _ _).mpr ⟨hc, fun x hx => ?_, ih hwf⟩
      rcases Memory.mem_write hx with hx | rfl
      · exact hab x hx
      · exact hlt
    · split
      · next he =>
        split
        · exact hwf
        · next hv => exact (Memory.wf_cons _ _).mpr ⟨hv, he ▸ hab, hwf⟩
      · split
        · exact hm
        · next hlt hne hv =>
          refine (Memory.wf_cons _ _).mpr ⟨hv, fun x hx => ?_, hm⟩
          show a < x.1
          rcases List.mem_cons.mp hx with rfl | hx
          · omega
          · exact Nat.lt_trans (by omega) (hab x hx)

/-- A bulk write leaves every offset outside its slots alone. -/
theorem Memory.read_writeSlots_other (m : Memory) (a : Nat) (vs : List Byte) {x : Nat}
    (hx : ∀ k < vs.length, x ≠ a + 4 * k) : (m.writeSlots a vs).read x = m.read x := by
  induction vs generalizing m a with
  | nil => rfl
  | cons v vs ih =>
    rw [Memory.writeSlots, ih, Memory.read_write_other m v (by simpa using hx 0 (by simp))]
    intro k hk
    have := hx (k + 1) (by simpa using hk)
    omega

/-- A bulk write puts element `k` of the sequence into slot `k`. -/
theorem Memory.read_writeSlots_at {m : Memory} (hm : m.wf = true) (a : Nat) (vs : List Byte) (k : Nat)
    (hk : k < vs.length) : (m.writeSlots a vs).read (a + 4 * k) = vs[k] := by
  induction vs generalizing m a k with
  | nil => simp at hk
  | cons v vs ih =>
    rw [Memory.writeSlots]
    cases k with
    | zero =>
      rw [Memory.read_writeSlots_other _ _ _ (by intros; omega)]
      simpa using Memory.read_write_same hm a v
    | succ k =>
      have := ih (Memory.wf_write hm a v) (a + 4) k (by simpa using hk)
      rw [show a + 4 * (k + 1) = a + 4 + 4 * k by omega, this]
      rfl

/-- A bulk write keeps the canonical form. -/
theorem Memory.wf_writeSlots {m : Memory} (hm : m.wf = true) (a : Nat) (vs : List Byte) :
    (m.writeSlots a vs).wf = true := by
  induction vs generalizing m a with
  | nil => exact hm
  | cons v vs ih => exact ih (Memory.wf_write hm a v) (a + 4)

/-- The offsets a bulk write can list. -/
theorem Memory.mem_writeSlots {m : Memory} {a : Nat} {vs : List Byte} {c : Host.Cell} (h : c ∈ m.writeSlots a vs) :
    c ∈ m ∨ ∃ k < vs.length, c.1 = a + 4 * k := by
  induction vs generalizing m a with
  | nil => exact .inl h
  | cons v vs ih =>
    rcases ih h with h | ⟨k, hk, he⟩
    · rcases Memory.mem_write h with h | rfl
      · exact .inl h
      · exact .inr ⟨0, by simp, rfl⟩
    · exact .inr ⟨k + 1, by simpa using hk, by omega⟩

/-- An offset that reads as something else than an unlisted one is listed. -/
theorem Memory.mem_of_read_ne {m : Memory} {a : Nat} (h : m.read a ≠ unlistedByte) : (a, m.read a) ∈ m := by
  induction m with
  | nil => exact absurd rfl h
  | cons c m ih =>
    by_cases hc : c.1 = a
    · have hr : Memory.read (c :: m) a = c.2 := by simp [Memory.read, hc]
      rw [hr, ← hc]
      exact List.mem_cons_self
    · have hr : Memory.read (c :: m) a = Memory.read m a := by simp [Memory.read, hc]
      rw [hr] at h ⊢
      exact List.mem_cons_of_mem _ (ih h)

/-- In canonical contents a listed offset reads as its entry, which differs from what an unlisted one reads as. -/
theorem Memory.read_of_mem {m : Memory} (hm : m.wf = true) {c : Host.Cell} (h : c ∈ m) :
    m.read c.1 = c.2 ∧ c.2 ≠ unlistedByte := by
  induction m with
  | nil => cases h
  | cons d m ih =>
    obtain ⟨hd, hab, hwf⟩ := (Memory.wf_cons d m).mp hm
    rcases List.mem_cons.mp h with rfl | h
    · exact ⟨by simp [Memory.read], hd⟩
    · have hne : d.1 ≠ c.1 := Nat.ne_of_lt (hab c h)
      simpa [Memory.read, hne] using ih hwf h

/-- Two canonical contents that read alike are the same data. -/
theorem Memory.ext_of_read {m n : Memory} (hm : m.wf = true) (hn : n.wf = true) (h : ∀ a, m.read a = n.read a) :
    m = n := by
  induction m generalizing n with
  | nil =>
    cases n with
    | nil => rfl
    | cons d n =>
      obtain ⟨hd, _, _⟩ := (Memory.wf_cons d n).mp hn
      exact absurd (by simpa [Memory.read] using (h d.1).symm) hd
  | cons c m ih =>
    obtain ⟨hc, hca, hcw⟩ := (Memory.wf_cons c m).mp hm
    cases n with
    | nil => exact absurd (by simpa [Memory.read] using h c.1) hc
    | cons d n =>
      obtain ⟨hd, hda, hdw⟩ := (Memory.wf_cons d n).mp hn
      have hfst : c.1 = d.1 := by
        rcases Nat.lt_trichotomy c.1 d.1 with hlt | he | hlt
        · have hr := h c.1
          rw [Memory.read_of_above (m := d :: n)] at hr
          · exact absurd (by simpa [Memory.read] using hr) hc
          · intro x hx
            rcases List.mem_cons.mp hx with rfl | hx
            · exact hlt
            · exact Nat.lt_trans hlt (hda x hx)
        · exact he
        · have hr := h d.1
          rw [Memory.read_of_above (m := c :: m)] at hr
          · exact absurd (by simpa [Memory.read] using hr.symm) hd
          · intro x hx
            rcases List.mem_cons.mp hx with rfl | hx
            · exact hlt
            · exact Nat.lt_trans hlt (hca x hx)
      have hsnd : c.2 = d.2 := by simpa [Memory.read, hfst] using h c.1
      have htail : m = n := by
        refine ih hcw hdw fun a => ?_
        by_cases ha : a = c.1
        · subst ha
          rw [Memory.read_of_above hca, Memory.read_of_above (hfst ▸ hda)]
        · have ha' : c.1 ≠ a := fun e => ha e.symm
          have := h a
          rw [Memory.read, Memory.read, if_neg ha', if_neg (hfst ▸ ha')] at this
          exact this
      rw [htail, Prod.ext hfst hsnd]

/-! ### Sets of offsets -/

@[simp] theorem OffsetSet.mem_insert (os : OffsetSet) (a x : Nat) : x ∈ os.insert a ↔ x = a ∨ x ∈ os := by
  induction os with
  | nil => simp [OffsetSet.insert]
  | cons o os ih =>
    simp only [OffsetSet.insert]
    split
    · simp only [List.mem_cons, ih]
      tauto
    · split
      · next he => subst he; simp
      · simp

theorem OffsetSet.mem_insertSlots (os : OffsetSet) (a n x : Nat) :
    x ∈ os.insertSlots a n ↔ x ∈ os ∨ ∃ k < n, x = a + 4 * k := by
  induction n generalizing os a with
  | zero => simp [OffsetSet.insertSlots]
  | succ n ih =>
    rw [OffsetSet.insertSlots, ih, OffsetSet.mem_insert]
    constructor
    · rintro ((rfl | h) | ⟨k, hk, rfl⟩)
      · exact .inr ⟨0, by omega, by omega⟩
      · exact .inl h
      · exact .inr ⟨k + 1, by omega, by omega⟩
    · rintro (h | ⟨k, hk, rfl⟩)
      · exact .inl (.inr h)
      · cases k with
        | zero => exact .inl (.inl (by omega))
        | succ k => exact .inr ⟨k, by omega, by omega⟩

theorem OffsetSet.wf_cons (a : Nat) (os : OffsetSet) :
    OffsetSet.wf (a :: os) = true ↔ (∀ x ∈ os, a < x) ∧ os.wf = true := by
  induction os generalizing a with
  | nil => simp [OffsetSet.wf]
  | cons b os ih =>
    simp only [OffsetSet.wf, Bool.and_eq_true, decide_eq_true_eq, List.mem_cons, forall_eq_or_imp]
    constructor
    · rintro ⟨hab, hwf⟩
      exact ⟨⟨hab, fun x hx => Nat.lt_trans hab (((ih b).mp hwf).1 x hx)⟩, hwf⟩
    · rintro ⟨⟨hab, _⟩, hwf⟩
      exact ⟨hab, hwf⟩

theorem OffsetSet.wf_insert {os : OffsetSet} (h : os.wf = true) (a : Nat) : (os.insert a).wf = true := by
  induction os with
  | nil => rfl
  | cons o os ih =>
    obtain ⟨hab, hwf⟩ := (OffsetSet.wf_cons o os).mp h
    simp only [OffsetSet.insert]
    split
    · next hlt =>
      refine (OffsetSet.wf_cons _ _).mpr ⟨fun x hx => ?_, ih hwf⟩
      rcases (OffsetSet.mem_insert os a x).mp hx with rfl | hx
      · exact hlt
      · exact hab x hx
    · split
      · exact h
      · next hlt hne =>
        refine (OffsetSet.wf_cons _ _).mpr ⟨fun x hx => ?_, h⟩
        rcases List.mem_cons.mp hx with rfl | hx
        · omega
        · exact Nat.lt_trans (by omega) (hab x hx)

theorem OffsetSet.wf_insertSlots {os : OffsetSet} (h : os.wf = true) (a n : Nat) : (os.insertSlots a n).wf = true := by
  induction n generalizing os a with
  | zero => exact h
  | succ n ih => exact ih (OffsetSet.wf_insert h a) (a + 4)

end Sys2Proof.Machine
end

