-- ==== Sys2Proof/Laws/State.lean ====
section
/-! SUPPORT. One lemma per field per named update of State, so that no later proof unfolds a record update. -/

namespace Sys2Proof.Machine

/-! ### State.complete -/

@[simp] theorem State.complete_pend (s : State) (code : BitVec 8) : (State.complete code s).pend = none := rfl
@[simp] theorem State.complete_done (s : State) (code : BitVec 8) : (State.complete code s).done = true := rfl
@[simp] theorem State.complete_err (s : State) (code : BitVec 8) : (State.complete code s).err = (code != 0) := rfl
@[simp] theorem State.complete_netValid (s : State) (code : BitVec 8) : (State.complete code s).netValid = s.netValid := rfl
@[simp] theorem State.complete_ovr (s : State) (code : BitVec 8) : (State.complete code s).ovr = s.ovr := rfl
@[simp] theorem State.complete_errcode (s : State) (code : BitVec 8) : (State.complete code s).errcode = code := rfl
@[simp] theorem State.complete_acc (s : State) (code : BitVec 8) : (State.complete code s).acc = s.acc := rfl
@[simp] theorem State.complete_operand (s : State) (code : BitVec 8) : (State.complete code s).operand = s.operand := rfl
@[simp] theorem State.complete_typebits (s : State) (code : BitVec 8) : (State.complete code s).typebits = s.typebits := rfl
@[simp] theorem State.complete_sizebits (s : State) (code : BitVec 8) : (State.complete code s).sizebits = s.sizebits := rfl
@[simp] theorem State.complete_vbyte (s : State) (code : BitVec 8) : (State.complete code s).vbyte = s.vbyte := rfl
@[simp] theorem State.complete_outType (s : State) (code : BitVec 8) : (State.complete code s).outType = s.outType := rfl
@[simp] theorem State.complete_sizelen (s : State) (code : BitVec 8) : (State.complete code s).sizelen = s.sizelen := rfl
@[simp] theorem State.complete_pfxLen (s : State) (code : BitVec 8) : (State.complete code s).pfxLen = s.pfxLen := rfl
@[simp] theorem State.complete_netLen (s : State) (code : BitVec 8) : (State.complete code s).netLen = s.netLen := rfl
@[simp] theorem State.complete_hashLen (s : State) (code : BitVec 8) : (State.complete code s).hashLen = s.hashLen := rfl
@[simp] theorem State.complete_byteLen (s : State) (code : BitVec 8) : (State.complete code s).byteLen = s.byteLen := rfl
@[simp] theorem State.complete_wordLen (s : State) (code : BitVec 8) : (State.complete code s).wordLen = s.wordLen := rfl
@[simp] theorem State.complete_strLen (s : State) (code : BitVec 8) : (State.complete code s).strLen = s.strLen := rfl
@[simp] theorem State.complete_mem (s : State) (code : BitVec 8) : (State.complete code s).mem = s.mem := rfl
@[simp] theorem State.complete_written (s : State) (code : BitVec 8) : (State.complete code s).written = s.written := rfl
@[simp] theorem State.complete_unwrittenUse (s : State) (code : BitVec 8) : (State.complete code s).unwrittenUse = s.unwrittenUse := rfl
@[simp] theorem State.complete_draws (s : State) (code : BitVec 8) : (State.complete code s).draws = s.draws := rfl
@[simp] theorem State.complete_host (s : State) (code : BitVec 8) : (State.complete code s).host = s.host := rfl
@[simp] theorem State.complete_readLog (s : State) (code : BitVec 8) : (State.complete code s).readLog = s.readLog := rfl

/-! ### State.finish -/

@[simp] theorem State.finish_pend (s : State) : s.finish.pend = none := rfl
@[simp] theorem State.finish_done (s : State) : s.finish.done = true := rfl
@[simp] theorem State.finish_err (s : State) : s.finish.err = false := rfl
@[simp] theorem State.finish_netValid (s : State) : s.finish.netValid = s.netValid := rfl
@[simp] theorem State.finish_ovr (s : State) : s.finish.ovr = s.ovr := rfl
@[simp] theorem State.finish_errcode (s : State) : s.finish.errcode = 0 := rfl
@[simp] theorem State.finish_acc (s : State) : s.finish.acc = s.acc := rfl
@[simp] theorem State.finish_operand (s : State) : s.finish.operand = s.operand := rfl
@[simp] theorem State.finish_typebits (s : State) : s.finish.typebits = s.typebits := rfl
@[simp] theorem State.finish_sizebits (s : State) : s.finish.sizebits = s.sizebits := rfl
@[simp] theorem State.finish_vbyte (s : State) : s.finish.vbyte = s.vbyte := rfl
@[simp] theorem State.finish_outType (s : State) : s.finish.outType = s.outType := rfl
@[simp] theorem State.finish_sizelen (s : State) : s.finish.sizelen = s.sizelen := rfl
@[simp] theorem State.finish_pfxLen (s : State) : s.finish.pfxLen = s.pfxLen := rfl
@[simp] theorem State.finish_netLen (s : State) : s.finish.netLen = s.netLen := rfl
@[simp] theorem State.finish_hashLen (s : State) : s.finish.hashLen = s.hashLen := rfl
@[simp] theorem State.finish_byteLen (s : State) : s.finish.byteLen = s.byteLen := rfl
@[simp] theorem State.finish_wordLen (s : State) : s.finish.wordLen = s.wordLen := rfl
@[simp] theorem State.finish_strLen (s : State) : s.finish.strLen = s.strLen := rfl
@[simp] theorem State.finish_mem (s : State) : s.finish.mem = s.mem := rfl
@[simp] theorem State.finish_written (s : State) : s.finish.written = s.written := rfl
@[simp] theorem State.finish_unwrittenUse (s : State) : s.finish.unwrittenUse = s.unwrittenUse := rfl
@[simp] theorem State.finish_draws (s : State) : s.finish.draws = s.draws := rfl
@[simp] theorem State.finish_host (s : State) : s.finish.host = s.host := rfl
@[simp] theorem State.finish_readLog (s : State) : s.finish.readLog = s.readLog := rfl

/-! ### State.mark -/

@[simp] theorem State.mark_pend (s : State) (o : Nat) : (s.mark o).pend = s.pend := rfl
@[simp] theorem State.mark_done (s : State) (o : Nat) : (s.mark o).done = s.done := rfl
@[simp] theorem State.mark_err (s : State) (o : Nat) : (s.mark o).err = s.err := rfl
@[simp] theorem State.mark_netValid (s : State) (o : Nat) : (s.mark o).netValid = s.netValid := rfl
@[simp] theorem State.mark_ovr (s : State) (o : Nat) : (s.mark o).ovr = s.ovr := rfl
@[simp] theorem State.mark_errcode (s : State) (o : Nat) : (s.mark o).errcode = s.errcode := rfl
@[simp] theorem State.mark_acc (s : State) (o : Nat) : (s.mark o).acc = s.acc := rfl
@[simp] theorem State.mark_operand (s : State) (o : Nat) : (s.mark o).operand = s.operand := rfl
@[simp] theorem State.mark_typebits (s : State) (o : Nat) : (s.mark o).typebits = s.typebits := rfl
@[simp] theorem State.mark_sizebits (s : State) (o : Nat) : (s.mark o).sizebits = s.sizebits := rfl
@[simp] theorem State.mark_vbyte (s : State) (o : Nat) : (s.mark o).vbyte = s.vbyte := rfl
@[simp] theorem State.mark_outType (s : State) (o : Nat) : (s.mark o).outType = s.outType := rfl
@[simp] theorem State.mark_sizelen (s : State) (o : Nat) : (s.mark o).sizelen = s.sizelen := rfl
@[simp] theorem State.mark_pfxLen (s : State) (o : Nat) : (s.mark o).pfxLen = s.pfxLen := rfl
@[simp] theorem State.mark_netLen (s : State) (o : Nat) : (s.mark o).netLen = s.netLen := rfl
@[simp] theorem State.mark_hashLen (s : State) (o : Nat) : (s.mark o).hashLen = s.hashLen := rfl
@[simp] theorem State.mark_byteLen (s : State) (o : Nat) : (s.mark o).byteLen = s.byteLen := rfl
@[simp] theorem State.mark_wordLen (s : State) (o : Nat) : (s.mark o).wordLen = s.wordLen := rfl
@[simp] theorem State.mark_strLen (s : State) (o : Nat) : (s.mark o).strLen = s.strLen := rfl
@[simp] theorem State.mark_mem (s : State) (o : Nat) : (s.mark o).mem = s.mem := rfl
@[simp] theorem State.mark_written (s : State) (o : Nat) : (s.mark o).written = s.written.insert o := rfl
@[simp] theorem State.mark_unwrittenUse (s : State) (o : Nat) : (s.mark o).unwrittenUse = s.unwrittenUse := rfl
@[simp] theorem State.mark_draws (s : State) (o : Nat) : (s.mark o).draws = s.draws := rfl
@[simp] theorem State.mark_host (s : State) (o : Nat) : (s.mark o).host = s.host := rfl
@[simp] theorem State.mark_readLog (s : State) (o : Nat) : (s.mark o).readLog = s.readLog := rfl

/-! ### State.setElem -/

@[simp] theorem State.setElem_pend (s : State) (b : Buf) (i : Nat) (v : Byte) : (s.setElem b i v).pend = s.pend := rfl
@[simp] theorem State.setElem_done (s : State) (b : Buf) (i : Nat) (v : Byte) : (s.setElem b i v).done = s.done := rfl
@[simp] theorem State.setElem_err (s : State) (b : Buf) (i : Nat) (v : Byte) : (s.setElem b i v).err = s.err := rfl
@[simp] theorem State.setElem_netValid (s : State) (b : Buf) (i : Nat) (v : Byte) : (s.setElem b i v).netValid = s.netValid := rfl
@[simp] theorem State.setElem_ovr (s : State) (b : Buf) (i : Nat) (v : Byte) : (s.setElem b i v).ovr = s.ovr := rfl
@[simp] theorem State.setElem_errcode (s : State) (b : Buf) (i : Nat) (v : Byte) : (s.setElem b i v).errcode = s.errcode := rfl
@[simp] theorem State.setElem_acc (s : State) (b : Buf) (i : Nat) (v : Byte) : (s.setElem b i v).acc = s.acc := rfl
@[simp] theorem State.setElem_operand (s : State) (b : Buf) (i : Nat) (v : Byte) : (s.setElem b i v).operand = s.operand := rfl
@[simp] theorem State.setElem_typebits (s : State) (b : Buf) (i : Nat) (v : Byte) : (s.setElem b i v).typebits = s.typebits := rfl
@[simp] theorem State.setElem_sizebits (s : State) (b : Buf) (i : Nat) (v : Byte) : (s.setElem b i v).sizebits = s.sizebits := rfl
@[simp] theorem State.setElem_vbyte (s : State) (b : Buf) (i : Nat) (v : Byte) : (s.setElem b i v).vbyte = s.vbyte := rfl
@[simp] theorem State.setElem_outType (s : State) (b : Buf) (i : Nat) (v : Byte) : (s.setElem b i v).outType = s.outType := rfl
@[simp] theorem State.setElem_sizelen (s : State) (b : Buf) (i : Nat) (v : Byte) : (s.setElem b i v).sizelen = s.sizelen := rfl
@[simp] theorem State.setElem_pfxLen (s : State) (b : Buf) (i : Nat) (v : Byte) : (s.setElem b i v).pfxLen = s.pfxLen := rfl
@[simp] theorem State.setElem_netLen (s : State) (b : Buf) (i : Nat) (v : Byte) : (s.setElem b i v).netLen = s.netLen := rfl
@[simp] theorem State.setElem_hashLen (s : State) (b : Buf) (i : Nat) (v : Byte) : (s.setElem b i v).hashLen = s.hashLen := rfl
@[simp] theorem State.setElem_byteLen (s : State) (b : Buf) (i : Nat) (v : Byte) : (s.setElem b i v).byteLen = s.byteLen := rfl
@[simp] theorem State.setElem_wordLen (s : State) (b : Buf) (i : Nat) (v : Byte) : (s.setElem b i v).wordLen = s.wordLen := rfl
@[simp] theorem State.setElem_strLen (s : State) (b : Buf) (i : Nat) (v : Byte) : (s.setElem b i v).strLen = s.strLen := rfl
@[simp] theorem State.setElem_mem (s : State) (b : Buf) (i : Nat) (v : Byte) : (s.setElem b i v).mem = s.mem.write (b.slot i) v := rfl
@[simp] theorem State.setElem_written (s : State) (b : Buf) (i : Nat) (v : Byte) : (s.setElem b i v).written = s.written.insert (b.slot i) := rfl
@[simp] theorem State.setElem_unwrittenUse (s : State) (b : Buf) (i : Nat) (v : Byte) : (s.setElem b i v).unwrittenUse = s.unwrittenUse := rfl
@[simp] theorem State.setElem_draws (s : State) (b : Buf) (i : Nat) (v : Byte) : (s.setElem b i v).draws = s.draws := rfl
@[simp] theorem State.setElem_host (s : State) (b : Buf) (i : Nat) (v : Byte) : (s.setElem b i v).host = s.host := rfl
@[simp] theorem State.setElem_readLog (s : State) (b : Buf) (i : Nat) (v : Byte) : (s.setElem b i v).readLog = s.readLog := rfl

/-! ### State.setElems -/

@[simp] theorem State.setElems_pend (s : State) (b : Buf) (vs : List Byte) : (s.setElems b vs).pend = s.pend := rfl
@[simp] theorem State.setElems_done (s : State) (b : Buf) (vs : List Byte) : (s.setElems b vs).done = s.done := rfl
@[simp] theorem State.setElems_err (s : State) (b : Buf) (vs : List Byte) : (s.setElems b vs).err = s.err := rfl
@[simp] theorem State.setElems_netValid (s : State) (b : Buf) (vs : List Byte) : (s.setElems b vs).netValid = s.netValid := rfl
@[simp] theorem State.setElems_ovr (s : State) (b : Buf) (vs : List Byte) : (s.setElems b vs).ovr = s.ovr := rfl
@[simp] theorem State.setElems_errcode (s : State) (b : Buf) (vs : List Byte) : (s.setElems b vs).errcode = s.errcode := rfl
@[simp] theorem State.setElems_acc (s : State) (b : Buf) (vs : List Byte) : (s.setElems b vs).acc = s.acc := rfl
@[simp] theorem State.setElems_operand (s : State) (b : Buf) (vs : List Byte) : (s.setElems b vs).operand = s.operand := rfl
@[simp] theorem State.setElems_typebits (s : State) (b : Buf) (vs : List Byte) : (s.setElems b vs).typebits = s.typebits := rfl
@[simp] theorem State.setElems_sizebits (s : State) (b : Buf) (vs : List Byte) : (s.setElems b vs).sizebits = s.sizebits := rfl
@[simp] theorem State.setElems_vbyte (s : State) (b : Buf) (vs : List Byte) : (s.setElems b vs).vbyte = s.vbyte := rfl
@[simp] theorem State.setElems_outType (s : State) (b : Buf) (vs : List Byte) : (s.setElems b vs).outType = s.outType := rfl
@[simp] theorem State.setElems_sizelen (s : State) (b : Buf) (vs : List Byte) : (s.setElems b vs).sizelen = s.sizelen := rfl
@[simp] theorem State.setElems_pfxLen (s : State) (b : Buf) (vs : List Byte) : (s.setElems b vs).pfxLen = s.pfxLen := rfl
@[simp] theorem State.setElems_netLen (s : State) (b : Buf) (vs : List Byte) : (s.setElems b vs).netLen = s.netLen := rfl
@[simp] theorem State.setElems_hashLen (s : State) (b : Buf) (vs : List Byte) : (s.setElems b vs).hashLen = s.hashLen := rfl
@[simp] theorem State.setElems_byteLen (s : State) (b : Buf) (vs : List Byte) : (s.setElems b vs).byteLen = s.byteLen := rfl
@[simp] theorem State.setElems_wordLen (s : State) (b : Buf) (vs : List Byte) : (s.setElems b vs).wordLen = s.wordLen := rfl
@[simp] theorem State.setElems_strLen (s : State) (b : Buf) (vs : List Byte) : (s.setElems b vs).strLen = s.strLen := rfl
@[simp] theorem State.setElems_mem (s : State) (b : Buf) (vs : List Byte) : (s.setElems b vs).mem = s.mem.writeSlots b.base vs := rfl
@[simp] theorem State.setElems_written (s : State) (b : Buf) (vs : List Byte) : (s.setElems b vs).written = s.written.insertSlots b.base vs.length := rfl
@[simp] theorem State.setElems_unwrittenUse (s : State) (b : Buf) (vs : List Byte) : (s.setElems b vs).unwrittenUse = s.unwrittenUse := rfl
@[simp] theorem State.setElems_draws (s : State) (b : Buf) (vs : List Byte) : (s.setElems b vs).draws = s.draws := rfl
@[simp] theorem State.setElems_host (s : State) (b : Buf) (vs : List Byte) : (s.setElems b vs).host = s.host := rfl
@[simp] theorem State.setElems_readLog (s : State) (b : Buf) (vs : List Byte) : (s.setElems b vs).readLog = s.readLog := rfl

/-! ### State.setAcc -/

@[simp] theorem State.setAcc_pend (s : State) (a : Acc) : (s.setAcc a).pend = s.pend := rfl
@[simp] theorem State.setAcc_done (s : State) (a : Acc) : (s.setAcc a).done = s.done := rfl
@[simp] theorem State.setAcc_err (s : State) (a : Acc) : (s.setAcc a).err = s.err := rfl
@[simp] theorem State.setAcc_netValid (s : State) (a : Acc) : (s.setAcc a).netValid = s.netValid := rfl
@[simp] theorem State.setAcc_ovr (s : State) (a : Acc) : (s.setAcc a).ovr = s.ovr := rfl
@[simp] theorem State.setAcc_errcode (s : State) (a : Acc) : (s.setAcc a).errcode = s.errcode := rfl
@[simp] theorem State.setAcc_acc (s : State) (a : Acc) : (s.setAcc a).acc = a := rfl
@[simp] theorem State.setAcc_operand (s : State) (a : Acc) : (s.setAcc a).operand = s.operand := rfl
@[simp] theorem State.setAcc_typebits (s : State) (a : Acc) : (s.setAcc a).typebits = s.typebits := rfl
@[simp] theorem State.setAcc_sizebits (s : State) (a : Acc) : (s.setAcc a).sizebits = s.sizebits := rfl
@[simp] theorem State.setAcc_vbyte (s : State) (a : Acc) : (s.setAcc a).vbyte = s.vbyte := rfl
@[simp] theorem State.setAcc_outType (s : State) (a : Acc) : (s.setAcc a).outType = s.outType := rfl
@[simp] theorem State.setAcc_sizelen (s : State) (a : Acc) : (s.setAcc a).sizelen = s.sizelen := rfl
@[simp] theorem State.setAcc_pfxLen (s : State) (a : Acc) : (s.setAcc a).pfxLen = s.pfxLen := rfl
@[simp] theorem State.setAcc_netLen (s : State) (a : Acc) : (s.setAcc a).netLen = s.netLen := rfl
@[simp] theorem State.setAcc_hashLen (s : State) (a : Acc) : (s.setAcc a).hashLen = s.hashLen := rfl
@[simp] theorem State.setAcc_byteLen (s : State) (a : Acc) : (s.setAcc a).byteLen = s.byteLen := rfl
@[simp] theorem State.setAcc_wordLen (s : State) (a : Acc) : (s.setAcc a).wordLen = s.wordLen := rfl
@[simp] theorem State.setAcc_strLen (s : State) (a : Acc) : (s.setAcc a).strLen = s.strLen := rfl
@[simp] theorem State.setAcc_mem (s : State) (a : Acc) : (s.setAcc a).mem = s.mem := rfl
@[simp] theorem State.setAcc_written (s : State) (a : Acc) : (s.setAcc a).written = (s.written.insert Reg.accLo.offset).insert Reg.accHi.offset := rfl
@[simp] theorem State.setAcc_unwrittenUse (s : State) (a : Acc) : (s.setAcc a).unwrittenUse = s.unwrittenUse := rfl
@[simp] theorem State.setAcc_draws (s : State) (a : Acc) : (s.setAcc a).draws = s.draws := rfl
@[simp] theorem State.setAcc_host (s : State) (a : Acc) : (s.setAcc a).host = s.host := rfl
@[simp] theorem State.setAcc_readLog (s : State) (a : Acc) : (s.setAcc a).readLog = s.readLog := rfl

/-! ### State.setTypebits -/

@[simp] theorem State.setTypebits_pend (s : State) (v : Byte) : (s.setTypebits v).pend = s.pend := rfl
@[simp] theorem State.setTypebits_done (s : State) (v : Byte) : (s.setTypebits v).done = s.done := rfl
@[simp] theorem State.setTypebits_err (s : State) (v : Byte) : (s.setTypebits v).err = s.err := rfl
@[simp] theorem State.setTypebits_netValid (s : State) (v : Byte) : (s.setTypebits v).netValid = s.netValid := rfl
@[simp] theorem State.setTypebits_ovr (s : State) (v : Byte) : (s.setTypebits v).ovr = s.ovr := rfl
@[simp] theorem State.setTypebits_errcode (s : State) (v : Byte) : (s.setTypebits v).errcode = s.errcode := rfl
@[simp] theorem State.setTypebits_acc (s : State) (v : Byte) : (s.setTypebits v).acc = s.acc := rfl
@[simp] theorem State.setTypebits_operand (s : State) (v : Byte) : (s.setTypebits v).operand = s.operand := rfl
@[simp] theorem State.setTypebits_typebits (s : State) (v : Byte) : (s.setTypebits v).typebits = v := rfl
@[simp] theorem State.setTypebits_sizebits (s : State) (v : Byte) : (s.setTypebits v).sizebits = s.sizebits := rfl
@[simp] theorem State.setTypebits_vbyte (s : State) (v : Byte) : (s.setTypebits v).vbyte = s.vbyte := rfl
@[simp] theorem State.setTypebits_outType (s : State) (v : Byte) : (s.setTypebits v).outType = s.outType := rfl
@[simp] theorem State.setTypebits_sizelen (s : State) (v : Byte) : (s.setTypebits v).sizelen = s.sizelen := rfl
@[simp] theorem State.setTypebits_pfxLen (s : State) (v : Byte) : (s.setTypebits v).pfxLen = s.pfxLen := rfl
@[simp] theorem State.setTypebits_netLen (s : State) (v : Byte) : (s.setTypebits v).netLen = s.netLen := rfl
@[simp] theorem State.setTypebits_hashLen (s : State) (v : Byte) : (s.setTypebits v).hashLen = s.hashLen := rfl
@[simp] theorem State.setTypebits_byteLen (s : State) (v : Byte) : (s.setTypebits v).byteLen = s.byteLen := rfl
@[simp] theorem State.setTypebits_wordLen (s : State) (v : Byte) : (s.setTypebits v).wordLen = s.wordLen := rfl
@[simp] theorem State.setTypebits_strLen (s : State) (v : Byte) : (s.setTypebits v).strLen = s.strLen := rfl
@[simp] theorem State.setTypebits_mem (s : State) (v : Byte) : (s.setTypebits v).mem = s.mem := rfl
@[simp] theorem State.setTypebits_written (s : State) (v : Byte) : (s.setTypebits v).written = s.written.insert Reg.typebits.offset := rfl
@[simp] theorem State.setTypebits_unwrittenUse (s : State) (v : Byte) : (s.setTypebits v).unwrittenUse = s.unwrittenUse := rfl
@[simp] theorem State.setTypebits_draws (s : State) (v : Byte) : (s.setTypebits v).draws = s.draws := rfl
@[simp] theorem State.setTypebits_host (s : State) (v : Byte) : (s.setTypebits v).host = s.host := rfl
@[simp] theorem State.setTypebits_readLog (s : State) (v : Byte) : (s.setTypebits v).readLog = s.readLog := rfl

/-! ### State.setSizebits -/

@[simp] theorem State.setSizebits_pend (s : State) (v : Byte) : (s.setSizebits v).pend = s.pend := rfl
@[simp] theorem State.setSizebits_done (s : State) (v : Byte) : (s.setSizebits v).done = s.done := rfl
@[simp] theorem State.setSizebits_err (s : State) (v : Byte) : (s.setSizebits v).err = s.err := rfl
@[simp] theorem State.setSizebits_netValid (s : State) (v : Byte) : (s.setSizebits v).netValid = s.netValid := rfl
@[simp] theorem State.setSizebits_ovr (s : State) (v : Byte) : (s.setSizebits v).ovr = s.ovr := rfl
@[simp] theorem State.setSizebits_errcode (s : State) (v : Byte) : (s.setSizebits v).errcode = s.errcode := rfl
@[simp] theorem State.setSizebits_acc (s : State) (v : Byte) : (s.setSizebits v).acc = s.acc := rfl
@[simp] theorem State.setSizebits_operand (s : State) (v : Byte) : (s.setSizebits v).operand = s.operand := rfl
@[simp] theorem State.setSizebits_typebits (s : State) (v : Byte) : (s.setSizebits v).typebits = s.typebits := rfl
@[simp] theorem State.setSizebits_sizebits (s : State) (v : Byte) : (s.setSizebits v).sizebits = v := rfl
@[simp] theorem State.setSizebits_vbyte (s : State) (v : Byte) : (s.setSizebits v).vbyte = s.vbyte := rfl
@[simp] theorem State.setSizebits_outType (s : State) (v : Byte) : (s.setSizebits v).outType = s.outType := rfl
@[simp] theorem State.setSizebits_sizelen (s : State) (v : Byte) : (s.setSizebits v).sizelen = s.sizelen := rfl
@[simp] theorem State.setSizebits_pfxLen (s : State) (v : Byte) : (s.setSizebits v).pfxLen = s.pfxLen := rfl
@[simp] theorem State.setSizebits_netLen (s : State) (v : Byte) : (s.setSizebits v).netLen = s.netLen := rfl
@[simp] theorem State.setSizebits_hashLen (s : State) (v : Byte) : (s.setSizebits v).hashLen = s.hashLen := rfl
@[simp] theorem State.setSizebits_byteLen (s : State) (v : Byte) : (s.setSizebits v).byteLen = s.byteLen := rfl
@[simp] theorem State.setSizebits_wordLen (s : State) (v : Byte) : (s.setSizebits v).wordLen = s.wordLen := rfl
@[simp] theorem State.setSizebits_strLen (s : State) (v : Byte) : (s.setSizebits v).strLen = s.strLen := rfl
@[simp] theorem State.setSizebits_mem (s : State) (v : Byte) : (s.setSizebits v).mem = s.mem := rfl
@[simp] theorem State.setSizebits_written (s : State) (v : Byte) : (s.setSizebits v).written = s.written.insert Reg.sizebits.offset := rfl
@[simp] theorem State.setSizebits_unwrittenUse (s : State) (v : Byte) : (s.setSizebits v).unwrittenUse = s.unwrittenUse := rfl
@[simp] theorem State.setSizebits_draws (s : State) (v : Byte) : (s.setSizebits v).draws = s.draws := rfl
@[simp] theorem State.setSizebits_host (s : State) (v : Byte) : (s.setSizebits v).host = s.host := rfl
@[simp] theorem State.setSizebits_readLog (s : State) (v : Byte) : (s.setSizebits v).readLog = s.readLog := rfl

/-! ### State.setVbyte -/

@[simp] theorem State.setVbyte_pend (s : State) (v : Byte) : (s.setVbyte v).pend = s.pend := rfl
@[simp] theorem State.setVbyte_done (s : State) (v : Byte) : (s.setVbyte v).done = s.done := rfl
@[simp] theorem State.setVbyte_err (s : State) (v : Byte) : (s.setVbyte v).err = s.err := rfl
@[simp] theorem State.setVbyte_netValid (s : State) (v : Byte) : (s.setVbyte v).netValid = s.netValid := rfl
@[simp] theorem State.setVbyte_ovr (s : State) (v : Byte) : (s.setVbyte v).ovr = s.ovr := rfl
@[simp] theorem State.setVbyte_errcode (s : State) (v : Byte) : (s.setVbyte v).errcode = s.errcode := rfl
@[simp] theorem State.setVbyte_acc (s : State) (v : Byte) : (s.setVbyte v).acc = s.acc := rfl
@[simp] theorem State.setVbyte_operand (s : State) (v : Byte) : (s.setVbyte v).operand = s.operand := rfl
@[simp] theorem State.setVbyte_typebits (s : State) (v : Byte) : (s.setVbyte v).typebits = s.typebits := rfl
@[simp] theorem State.setVbyte_sizebits (s : State) (v : Byte) : (s.setVbyte v).sizebits = s.sizebits := rfl
@[simp] theorem State.setVbyte_vbyte (s : State) (v : Byte) : (s.setVbyte v).vbyte = v := rfl
@[simp] theorem State.setVbyte_outType (s : State) (v : Byte) : (s.setVbyte v).outType = s.outType := rfl
@[simp] theorem State.setVbyte_sizelen (s : State) (v : Byte) : (s.setVbyte v).sizelen = s.sizelen := rfl
@[simp] theorem State.setVbyte_pfxLen (s : State) (v : Byte) : (s.setVbyte v).pfxLen = s.pfxLen := rfl
@[simp] theorem State.setVbyte_netLen (s : State) (v : Byte) : (s.setVbyte v).netLen = s.netLen := rfl
@[simp] theorem State.setVbyte_hashLen (s : State) (v : Byte) : (s.setVbyte v).hashLen = s.hashLen := rfl
@[simp] theorem State.setVbyte_byteLen (s : State) (v : Byte) : (s.setVbyte v).byteLen = s.byteLen := rfl
@[simp] theorem State.setVbyte_wordLen (s : State) (v : Byte) : (s.setVbyte v).wordLen = s.wordLen := rfl
@[simp] theorem State.setVbyte_strLen (s : State) (v : Byte) : (s.setVbyte v).strLen = s.strLen := rfl
@[simp] theorem State.setVbyte_mem (s : State) (v : Byte) : (s.setVbyte v).mem = s.mem := rfl
@[simp] theorem State.setVbyte_written (s : State) (v : Byte) : (s.setVbyte v).written = s.written.insert Reg.vbyte.offset := rfl
@[simp] theorem State.setVbyte_unwrittenUse (s : State) (v : Byte) : (s.setVbyte v).unwrittenUse = s.unwrittenUse := rfl
@[simp] theorem State.setVbyte_draws (s : State) (v : Byte) : (s.setVbyte v).draws = s.draws := rfl
@[simp] theorem State.setVbyte_host (s : State) (v : Byte) : (s.setVbyte v).host = s.host := rfl
@[simp] theorem State.setVbyte_readLog (s : State) (v : Byte) : (s.setVbyte v).readLog = s.readLog := rfl

/-! ### State.setOutType -/

@[simp] theorem State.setOutType_pend (s : State) (v : Byte) : (s.setOutType v).pend = s.pend := rfl
@[simp] theorem State.setOutType_done (s : State) (v : Byte) : (s.setOutType v).done = s.done := rfl
@[simp] theorem State.setOutType_err (s : State) (v : Byte) : (s.setOutType v).err = s.err := rfl
@[simp] theorem State.setOutType_netValid (s : State) (v : Byte) : (s.setOutType v).netValid = s.netValid := rfl
@[simp] theorem State.setOutType_ovr (s : State) (v : Byte) : (s.setOutType v).ovr = s.ovr := rfl
@[simp] theorem State.setOutType_errcode (s : State) (v : Byte) : (s.setOutType v).errcode = s.errcode := rfl
@[simp] theorem State.setOutType_acc (s : State) (v : Byte) : (s.setOutType v).acc = s.acc := rfl
@[simp] theorem State.setOutType_operand (s : State) (v : Byte) : (s.setOutType v).operand = s.operand := rfl
@[simp] theorem State.setOutType_typebits (s : State) (v : Byte) : (s.setOutType v).typebits = s.typebits := rfl
@[simp] theorem State.setOutType_sizebits (s : State) (v : Byte) : (s.setOutType v).sizebits = s.sizebits := rfl
@[simp] theorem State.setOutType_vbyte (s : State) (v : Byte) : (s.setOutType v).vbyte = s.vbyte := rfl
@[simp] theorem State.setOutType_outType (s : State) (v : Byte) : (s.setOutType v).outType = v := rfl
@[simp] theorem State.setOutType_sizelen (s : State) (v : Byte) : (s.setOutType v).sizelen = s.sizelen := rfl
@[simp] theorem State.setOutType_pfxLen (s : State) (v : Byte) : (s.setOutType v).pfxLen = s.pfxLen := rfl
@[simp] theorem State.setOutType_netLen (s : State) (v : Byte) : (s.setOutType v).netLen = s.netLen := rfl
@[simp] theorem State.setOutType_hashLen (s : State) (v : Byte) : (s.setOutType v).hashLen = s.hashLen := rfl
@[simp] theorem State.setOutType_byteLen (s : State) (v : Byte) : (s.setOutType v).byteLen = s.byteLen := rfl
@[simp] theorem State.setOutType_wordLen (s : State) (v : Byte) : (s.setOutType v).wordLen = s.wordLen := rfl
@[simp] theorem State.setOutType_strLen (s : State) (v : Byte) : (s.setOutType v).strLen = s.strLen := rfl
@[simp] theorem State.setOutType_mem (s : State) (v : Byte) : (s.setOutType v).mem = s.mem := rfl
@[simp] theorem State.setOutType_written (s : State) (v : Byte) : (s.setOutType v).written = s.written.insert Reg.outType.offset := rfl
@[simp] theorem State.setOutType_unwrittenUse (s : State) (v : Byte) : (s.setOutType v).unwrittenUse = s.unwrittenUse := rfl
@[simp] theorem State.setOutType_draws (s : State) (v : Byte) : (s.setOutType v).draws = s.draws := rfl
@[simp] theorem State.setOutType_host (s : State) (v : Byte) : (s.setOutType v).host = s.host := rfl
@[simp] theorem State.setOutType_readLog (s : State) (v : Byte) : (s.setOutType v).readLog = s.readLog := rfl

/-! ### State.setSizelen -/

@[simp] theorem State.setSizelen_pend (s : State) (v : Byte) : (s.setSizelen v).pend = s.pend := rfl
@[simp] theorem State.setSizelen_done (s : State) (v : Byte) : (s.setSizelen v).done = s.done := rfl
@[simp] theorem State.setSizelen_err (s : State) (v : Byte) : (s.setSizelen v).err = s.err := rfl
@[simp] theorem State.setSizelen_netValid (s : State) (v : Byte) : (s.setSizelen v).netValid = s.netValid := rfl
@[simp] theorem State.setSizelen_ovr (s : State) (v : Byte) : (s.setSizelen v).ovr = s.ovr := rfl
@[simp] theorem State.setSizelen_errcode (s : State) (v : Byte) : (s.setSizelen v).errcode = s.errcode := rfl
@[simp] theorem State.setSizelen_acc (s : State) (v : Byte) : (s.setSizelen v).acc = s.acc := rfl
@[simp] theorem State.setSizelen_operand (s : State) (v : Byte) : (s.setSizelen v).operand = s.operand := rfl
@[simp] theorem State.setSizelen_typebits (s : State) (v : Byte) : (s.setSizelen v).typebits = s.typebits := rfl
@[simp] theorem State.setSizelen_sizebits (s : State) (v : Byte) : (s.setSizelen v).sizebits = s.sizebits := rfl
@[simp] theorem State.setSizelen_vbyte (s : State) (v : Byte) : (s.setSizelen v).vbyte = s.vbyte := rfl
@[simp] theorem State.setSizelen_outType (s : State) (v : Byte) : (s.setSizelen v).outType = s.outType := rfl
@[simp] theorem State.setSizelen_sizelen (s : State) (v : Byte) : (s.setSizelen v).sizelen = v := rfl
@[simp] theorem State.setSizelen_pfxLen (s : State) (v : Byte) : (s.setSizelen v).pfxLen = s.pfxLen := rfl
@[simp] theorem State.setSizelen_netLen (s : State) (v : Byte) : (s.setSizelen v).netLen = s.netLen := rfl
@[simp] theorem State.setSizelen_hashLen (s : State) (v : Byte) : (s.setSizelen v).hashLen = s.hashLen := rfl
@[simp] theorem State.setSizelen_byteLen (s : State) (v : Byte) : (s.setSizelen v).byteLen = s.byteLen := rfl
@[simp] theorem State.setSizelen_wordLen (s : State) (v : Byte) : (s.setSizelen v).wordLen = s.wordLen := rfl
@[simp] theorem State.setSizelen_strLen (s : State) (v : Byte) : (s.setSizelen v).strLen = s.strLen := rfl
@[simp] theorem State.setSizelen_mem (s : State) (v : Byte) : (s.setSizelen v).mem = s.mem := rfl
@[simp] theorem State.setSizelen_written (s : State) (v : Byte) : (s.setSizelen v).written = s.written.insert Reg.sizelen.offset := rfl
@[simp] theorem State.setSizelen_unwrittenUse (s : State) (v : Byte) : (s.setSizelen v).unwrittenUse = s.unwrittenUse := rfl
@[simp] theorem State.setSizelen_draws (s : State) (v : Byte) : (s.setSizelen v).draws = s.draws := rfl
@[simp] theorem State.setSizelen_host (s : State) (v : Byte) : (s.setSizelen v).host = s.host := rfl
@[simp] theorem State.setSizelen_readLog (s : State) (v : Byte) : (s.setSizelen v).readLog = s.readLog := rfl

/-! ### State.logRead -/

@[simp] theorem State.logRead_pend (s : State) (off : Offset) (d : Datum) : (s.logRead off d).pend = s.pend := rfl
@[simp] theorem State.logRead_done (s : State) (off : Offset) (d : Datum) : (s.logRead off d).done = s.done := rfl
@[simp] theorem State.logRead_err (s : State) (off : Offset) (d : Datum) : (s.logRead off d).err = s.err := rfl
@[simp] theorem State.logRead_netValid (s : State) (off : Offset) (d : Datum) : (s.logRead off d).netValid = s.netValid := rfl
@[simp] theorem State.logRead_ovr (s : State) (off : Offset) (d : Datum) : (s.logRead off d).ovr = s.ovr := rfl
@[simp] theorem State.logRead_errcode (s : State) (off : Offset) (d : Datum) : (s.logRead off d).errcode = s.errcode := rfl
@[simp] theorem State.logRead_acc (s : State) (off : Offset) (d : Datum) : (s.logRead off d).acc = s.acc := rfl
@[simp] theorem State.logRead_operand (s : State) (off : Offset) (d : Datum) : (s.logRead off d).operand = s.operand := rfl
@[simp] theorem State.logRead_typebits (s : State) (off : Offset) (d : Datum) : (s.logRead off d).typebits = s.typebits := rfl
@[simp] theorem State.logRead_sizebits (s : State) (off : Offset) (d : Datum) : (s.logRead off d).sizebits = s.sizebits := rfl
@[simp] theorem State.logRead_vbyte (s : State) (off : Offset) (d : Datum) : (s.logRead off d).vbyte = s.vbyte := rfl
@[simp] theorem State.logRead_outType (s : State) (off : Offset) (d : Datum) : (s.logRead off d).outType = s.outType := rfl
@[simp] theorem State.logRead_sizelen (s : State) (off : Offset) (d : Datum) : (s.logRead off d).sizelen = s.sizelen := rfl
@[simp] theorem State.logRead_pfxLen (s : State) (off : Offset) (d : Datum) : (s.logRead off d).pfxLen = s.pfxLen := rfl
@[simp] theorem State.logRead_netLen (s : State) (off : Offset) (d : Datum) : (s.logRead off d).netLen = s.netLen := rfl
@[simp] theorem State.logRead_hashLen (s : State) (off : Offset) (d : Datum) : (s.logRead off d).hashLen = s.hashLen := rfl
@[simp] theorem State.logRead_byteLen (s : State) (off : Offset) (d : Datum) : (s.logRead off d).byteLen = s.byteLen := rfl
@[simp] theorem State.logRead_wordLen (s : State) (off : Offset) (d : Datum) : (s.logRead off d).wordLen = s.wordLen := rfl
@[simp] theorem State.logRead_strLen (s : State) (off : Offset) (d : Datum) : (s.logRead off d).strLen = s.strLen := rfl
@[simp] theorem State.logRead_mem (s : State) (off : Offset) (d : Datum) : (s.logRead off d).mem = s.mem := rfl
@[simp] theorem State.logRead_written (s : State) (off : Offset) (d : Datum) : (s.logRead off d).written = s.written := rfl
@[simp] theorem State.logRead_unwrittenUse (s : State) (off : Offset) (d : Datum) : (s.logRead off d).unwrittenUse = s.unwrittenUse := rfl
@[simp] theorem State.logRead_draws (s : State) (off : Offset) (d : Datum) : (s.logRead off d).draws = s.draws := rfl
@[simp] theorem State.logRead_host (s : State) (off : Offset) (d : Datum) : (s.logRead off d).host = s.host := rfl
@[simp] theorem State.logRead_readLog (s : State) (off : Offset) (d : Datum) : (s.logRead off d).readLog = { off := off, value := d } :: s.readLog := rfl

/-! ### State.drawRead -/

@[simp] theorem State.drawRead_pend (s : State) (off : Offset) (bits : Datum) : (s.drawRead off bits).pend = s.pend := rfl
@[simp] theorem State.drawRead_done (s : State) (off : Offset) (bits : Datum) : (s.drawRead off bits).done = s.done := rfl
@[simp] theorem State.drawRead_err (s : State) (off : Offset) (bits : Datum) : (s.drawRead off bits).err = s.err := rfl
@[simp] theorem State.drawRead_netValid (s : State) (off : Offset) (bits : Datum) : (s.drawRead off bits).netValid = s.netValid := rfl
@[simp] theorem State.drawRead_ovr (s : State) (off : Offset) (bits : Datum) : (s.drawRead off bits).ovr = s.ovr := rfl
@[simp] theorem State.drawRead_errcode (s : State) (off : Offset) (bits : Datum) : (s.drawRead off bits).errcode = s.errcode := rfl
@[simp] theorem State.drawRead_acc (s : State) (off : Offset) (bits : Datum) : (s.drawRead off bits).acc = s.acc := rfl
@[simp] theorem State.drawRead_operand (s : State) (off : Offset) (bits : Datum) : (s.drawRead off bits).operand = s.operand := rfl
@[simp] theorem State.drawRead_typebits (s : State) (off : Offset) (bits : Datum) : (s.drawRead off bits).typebits = s.typebits := rfl
@[simp] theorem State.drawRead_sizebits (s : State) (off : Offset) (bits : Datum) : (s.drawRead off bits).sizebits = s.sizebits := rfl
@[simp] theorem State.drawRead_vbyte (s : State) (off : Offset) (bits : Datum) : (s.drawRead off bits).vbyte = s.vbyte := rfl
@[simp] theorem State.drawRead_outType (s : State) (off : Offset) (bits : Datum) : (s.drawRead off bits).outType = s.outType := rfl
@[simp] theorem State.drawRead_sizelen (s : State) (off : Offset) (bits : Datum) : (s.drawRead off bits).sizelen = s.sizelen := rfl
@[simp] theorem State.drawRead_pfxLen (s : State) (off : Offset) (bits : Datum) : (s.drawRead off bits).pfxLen = s.pfxLen := rfl
@[simp] theorem State.drawRead_netLen (s : State) (off : Offset) (bits : Datum) : (s.drawRead off bits).netLen = s.netLen := rfl
@[simp] theorem State.drawRead_hashLen (s : State) (off : Offset) (bits : Datum) : (s.drawRead off bits).hashLen = s.hashLen := rfl
@[simp] theorem State.drawRead_byteLen (s : State) (off : Offset) (bits : Datum) : (s.drawRead off bits).byteLen = s.byteLen := rfl
@[simp] theorem State.drawRead_wordLen (s : State) (off : Offset) (bits : Datum) : (s.drawRead off bits).wordLen = s.wordLen := rfl
@[simp] theorem State.drawRead_strLen (s : State) (off : Offset) (bits : Datum) : (s.drawRead off bits).strLen = s.strLen := rfl
@[simp] theorem State.drawRead_mem (s : State) (off : Offset) (bits : Datum) : (s.drawRead off bits).mem = s.mem := rfl
@[simp] theorem State.drawRead_written (s : State) (off : Offset) (bits : Datum) : (s.drawRead off bits).written = s.written := rfl
@[simp] theorem State.drawRead_unwrittenUse (s : State) (off : Offset) (bits : Datum) : (s.drawRead off bits).unwrittenUse = s.unwrittenUse := rfl
@[simp] theorem State.drawRead_draws (s : State) (off : Offset) (bits : Datum) : (s.drawRead off bits).draws = s.draws + 1 := rfl
@[simp] theorem State.drawRead_host (s : State) (off : Offset) (bits : Datum) : (s.drawRead off bits).host = s.host := rfl
@[simp] theorem State.drawRead_readLog (s : State) (off : Offset) (bits : Datum) : (s.drawRead off bits).readLog = { off := off, value := Config.draw s.draws &&& bits } :: s.readLog := rfl

/-! ### State.accept -/

@[simp] theorem State.accept_pend (s : State) (w : Datum) : (s.accept w).pend = some { word := w, delay := Config.latency s.draws } := rfl
@[simp] theorem State.accept_done (s : State) (w : Datum) : (s.accept w).done = false := rfl
@[simp] theorem State.accept_err (s : State) (w : Datum) : (s.accept w).err = false := rfl
@[simp] theorem State.accept_netValid (s : State) (w : Datum) : (s.accept w).netValid = s.netValid := rfl
@[simp] theorem State.accept_ovr (s : State) (w : Datum) : (s.accept w).ovr = s.ovr := rfl
@[simp] theorem State.accept_errcode (s : State) (w : Datum) : (s.accept w).errcode = s.errcode := rfl
@[simp] theorem State.accept_acc (s : State) (w : Datum) : (s.accept w).acc = s.acc := rfl
@[simp] theorem State.accept_operand (s : State) (w : Datum) : (s.accept w).operand = s.operand := rfl
@[simp] theorem State.accept_typebits (s : State) (w : Datum) : (s.accept w).typebits = s.typebits := rfl
@[simp] theorem State.accept_sizebits (s : State) (w : Datum) : (s.accept w).sizebits = s.sizebits := rfl
@[simp] theorem State.accept_vbyte (s : State) (w : Datum) : (s.accept w).vbyte = s.vbyte := rfl
@[simp] theorem State.accept_outType (s : State) (w : Datum) : (s.accept w).outType = s.outType := rfl
@[simp] theorem State.accept_sizelen (s : State) (w : Datum) : (s.accept w).sizelen = s.sizelen := rfl
@[simp] theorem State.accept_pfxLen (s : State) (w : Datum) : (s.accept w).pfxLen = s.pfxLen := rfl
@[simp] theorem State.accept_netLen (s : State) (w : Datum) : (s.accept w).netLen = s.netLen := rfl
@[simp] theorem State.accept_hashLen (s : State) (w : Datum) : (s.accept w).hashLen = s.hashLen := rfl
@[simp] theorem State.accept_byteLen (s : State) (w : Datum) : (s.accept w).byteLen = s.byteLen := rfl
@[simp] theorem State.accept_wordLen (s : State) (w : Datum) : (s.accept w).wordLen = s.wordLen := rfl
@[simp] theorem State.accept_strLen (s : State) (w : Datum) : (s.accept w).strLen = s.strLen := rfl
@[simp] theorem State.accept_mem (s : State) (w : Datum) : (s.accept w).mem = s.mem := rfl
@[simp] theorem State.accept_written (s : State) (w : Datum) : (s.accept w).written = s.written := rfl
@[simp] theorem State.accept_unwrittenUse (s : State) (w : Datum) : (s.accept w).unwrittenUse = s.unwrittenUse := rfl
@[simp] theorem State.accept_draws (s : State) (w : Datum) : (s.accept w).draws = s.draws + 1 := rfl
@[simp] theorem State.accept_host (s : State) (w : Datum) : (s.accept w).host = s.host := rfl
@[simp] theorem State.accept_readLog (s : State) (w : Datum) : (s.accept w).readLog = s.readLog := rfl

/-! ### State.tick -/

@[simp] theorem State.tick_pend (s : State) : s.tick.pend = s.pend.map fun p => { p with delay := p.delay - 1 } := rfl
@[simp] theorem State.tick_done (s : State) : s.tick.done = s.done := rfl
@[simp] theorem State.tick_err (s : State) : s.tick.err = s.err := rfl
@[simp] theorem State.tick_netValid (s : State) : s.tick.netValid = s.netValid := rfl
@[simp] theorem State.tick_ovr (s : State) : s.tick.ovr = s.ovr := rfl
@[simp] theorem State.tick_errcode (s : State) : s.tick.errcode = s.errcode := rfl
@[simp] theorem State.tick_acc (s : State) : s.tick.acc = s.acc := rfl
@[simp] theorem State.tick_operand (s : State) : s.tick.operand = s.operand := rfl
@[simp] theorem State.tick_typebits (s : State) : s.tick.typebits = s.typebits := rfl
@[simp] theorem State.tick_sizebits (s : State) : s.tick.sizebits = s.sizebits := rfl
@[simp] theorem State.tick_vbyte (s : State) : s.tick.vbyte = s.vbyte := rfl
@[simp] theorem State.tick_outType (s : State) : s.tick.outType = s.outType := rfl
@[simp] theorem State.tick_sizelen (s : State) : s.tick.sizelen = s.sizelen := rfl
@[simp] theorem State.tick_pfxLen (s : State) : s.tick.pfxLen = s.pfxLen := rfl
@[simp] theorem State.tick_netLen (s : State) : s.tick.netLen = s.netLen := rfl
@[simp] theorem State.tick_hashLen (s : State) : s.tick.hashLen = s.hashLen := rfl
@[simp] theorem State.tick_byteLen (s : State) : s.tick.byteLen = s.byteLen := rfl
@[simp] theorem State.tick_wordLen (s : State) : s.tick.wordLen = s.wordLen := rfl
@[simp] theorem State.tick_strLen (s : State) : s.tick.strLen = s.strLen := rfl
@[simp] theorem State.tick_mem (s : State) : s.tick.mem = s.mem := rfl
@[simp] theorem State.tick_written (s : State) : s.tick.written = s.written := rfl
@[simp] theorem State.tick_unwrittenUse (s : State) : s.tick.unwrittenUse = s.unwrittenUse := rfl
@[simp] theorem State.tick_draws (s : State) : s.tick.draws = s.draws := rfl
@[simp] theorem State.tick_host (s : State) : s.tick.host = s.host := rfl
@[simp] theorem State.tick_readLog (s : State) : s.tick.readLog = s.readLog := rfl

/-! ### State.advance -/

@[simp] theorem State.advance_pend (s : State) (rest : List HostStmt) : (s.advance rest).pend = s.pend.map fun p => { p with delay := p.delay - 1 } := rfl
@[simp] theorem State.advance_done (s : State) (rest : List HostStmt) : (s.advance rest).done = s.done := rfl
@[simp] theorem State.advance_err (s : State) (rest : List HostStmt) : (s.advance rest).err = s.err := rfl
@[simp] theorem State.advance_netValid (s : State) (rest : List HostStmt) : (s.advance rest).netValid = s.netValid := rfl
@[simp] theorem State.advance_ovr (s : State) (rest : List HostStmt) : (s.advance rest).ovr = s.ovr := rfl
@[simp] theorem State.advance_errcode (s : State) (rest : List HostStmt) : (s.advance rest).errcode = s.errcode := rfl
@[simp] theorem State.advance_acc (s : State) (rest : List HostStmt) : (s.advance rest).acc = s.acc := rfl
@[simp] theorem State.advance_operand (s : State) (rest : List HostStmt) : (s.advance rest).operand = s.operand := rfl
@[simp] theorem State.advance_typebits (s : State) (rest : List HostStmt) : (s.advance rest).typebits = s.typebits := rfl
@[simp] theorem State.advance_sizebits (s : State) (rest : List HostStmt) : (s.advance rest).sizebits = s.sizebits := rfl
@[simp] theorem State.advance_vbyte (s : State) (rest : List HostStmt) : (s.advance rest).vbyte = s.vbyte := rfl
@[simp] theorem State.advance_outType (s : State) (rest : List HostStmt) : (s.advance rest).outType = s.outType := rfl
@[simp] theorem State.advance_sizelen (s : State) (rest : List HostStmt) : (s.advance rest).sizelen = s.sizelen := rfl
@[simp] theorem State.advance_pfxLen (s : State) (rest : List HostStmt) : (s.advance rest).pfxLen = s.pfxLen := rfl
@[simp] theorem State.advance_netLen (s : State) (rest : List HostStmt) : (s.advance rest).netLen = s.netLen := rfl
@[simp] theorem State.advance_hashLen (s : State) (rest : List HostStmt) : (s.advance rest).hashLen = s.hashLen := rfl
@[simp] theorem State.advance_byteLen (s : State) (rest : List HostStmt) : (s.advance rest).byteLen = s.byteLen := rfl
@[simp] theorem State.advance_wordLen (s : State) (rest : List HostStmt) : (s.advance rest).wordLen = s.wordLen := rfl
@[simp] theorem State.advance_strLen (s : State) (rest : List HostStmt) : (s.advance rest).strLen = s.strLen := rfl
@[simp] theorem State.advance_mem (s : State) (rest : List HostStmt) : (s.advance rest).mem = s.mem := rfl
@[simp] theorem State.advance_written (s : State) (rest : List HostStmt) : (s.advance rest).written = s.written := rfl
@[simp] theorem State.advance_unwrittenUse (s : State) (rest : List HostStmt) : (s.advance rest).unwrittenUse = s.unwrittenUse := rfl
@[simp] theorem State.advance_draws (s : State) (rest : List HostStmt) : (s.advance rest).draws = s.draws := rfl
@[simp] theorem State.advance_host (s : State) (rest : List HostStmt) : (s.advance rest).host = rest := rfl
@[simp] theorem State.advance_readLog (s : State) (rest : List HostStmt) : (s.advance rest).readLog = s.readLog := rfl

/-! ### State.withPending -/

@[simp] theorem State.withPending_pend (s : State) (w : Datum) : (s.withPending w).pend = some { word := w, delay := 0 } := rfl
@[simp] theorem State.withPending_done (s : State) (w : Datum) : (s.withPending w).done = s.done := rfl
@[simp] theorem State.withPending_err (s : State) (w : Datum) : (s.withPending w).err = s.err := rfl
@[simp] theorem State.withPending_netValid (s : State) (w : Datum) : (s.withPending w).netValid = s.netValid := rfl
@[simp] theorem State.withPending_ovr (s : State) (w : Datum) : (s.withPending w).ovr = s.ovr := rfl
@[simp] theorem State.withPending_errcode (s : State) (w : Datum) : (s.withPending w).errcode = s.errcode := rfl
@[simp] theorem State.withPending_acc (s : State) (w : Datum) : (s.withPending w).acc = s.acc := rfl
@[simp] theorem State.withPending_operand (s : State) (w : Datum) : (s.withPending w).operand = s.operand := rfl
@[simp] theorem State.withPending_typebits (s : State) (w : Datum) : (s.withPending w).typebits = s.typebits := rfl
@[simp] theorem State.withPending_sizebits (s : State) (w : Datum) : (s.withPending w).sizebits = s.sizebits := rfl
@[simp] theorem State.withPending_vbyte (s : State) (w : Datum) : (s.withPending w).vbyte = s.vbyte := rfl
@[simp] theorem State.withPending_outType (s : State) (w : Datum) : (s.withPending w).outType = s.outType := rfl
@[simp] theorem State.withPending_sizelen (s : State) (w : Datum) : (s.withPending w).sizelen = s.sizelen := rfl
@[simp] theorem State.withPending_pfxLen (s : State) (w : Datum) : (s.withPending w).pfxLen = s.pfxLen := rfl
@[simp] theorem State.withPending_netLen (s : State) (w : Datum) : (s.withPending w).netLen = s.netLen := rfl
@[simp] theorem State.withPending_hashLen (s : State) (w : Datum) : (s.withPending w).hashLen = s.hashLen := rfl
@[simp] theorem State.withPending_byteLen (s : State) (w : Datum) : (s.withPending w).byteLen = s.byteLen := rfl
@[simp] theorem State.withPending_wordLen (s : State) (w : Datum) : (s.withPending w).wordLen = s.wordLen := rfl
@[simp] theorem State.withPending_strLen (s : State) (w : Datum) : (s.withPending w).strLen = s.strLen := rfl
@[simp] theorem State.withPending_mem (s : State) (w : Datum) : (s.withPending w).mem = s.mem := rfl
@[simp] theorem State.withPending_written (s : State) (w : Datum) : (s.withPending w).written = s.written := rfl
@[simp] theorem State.withPending_unwrittenUse (s : State) (w : Datum) : (s.withPending w).unwrittenUse = s.unwrittenUse := rfl
@[simp] theorem State.withPending_draws (s : State) (w : Datum) : (s.withPending w).draws = s.draws := rfl
@[simp] theorem State.withPending_host (s : State) (w : Datum) : (s.withPending w).host = s.host := rfl
@[simp] theorem State.withPending_readLog (s : State) (w : Datum) : (s.withPending w).readLog = s.readLog := rfl

/-! ### State.noteReads -/

@[simp] theorem State.noteReads_pend (s : State) (i : Instr) : (State.noteReads i s).pend = s.pend := rfl
@[simp] theorem State.noteReads_done (s : State) (i : Instr) : (State.noteReads i s).done = s.done := rfl
@[simp] theorem State.noteReads_err (s : State) (i : Instr) : (State.noteReads i s).err = s.err := rfl
@[simp] theorem State.noteReads_netValid (s : State) (i : Instr) : (State.noteReads i s).netValid = s.netValid := rfl
@[simp] theorem State.noteReads_ovr (s : State) (i : Instr) : (State.noteReads i s).ovr = s.ovr := rfl
@[simp] theorem State.noteReads_errcode (s : State) (i : Instr) : (State.noteReads i s).errcode = s.errcode := rfl
@[simp] theorem State.noteReads_acc (s : State) (i : Instr) : (State.noteReads i s).acc = s.acc := rfl
@[simp] theorem State.noteReads_operand (s : State) (i : Instr) : (State.noteReads i s).operand = s.operand := rfl
@[simp] theorem State.noteReads_typebits (s : State) (i : Instr) : (State.noteReads i s).typebits = s.typebits := rfl
@[simp] theorem State.noteReads_sizebits (s : State) (i : Instr) : (State.noteReads i s).sizebits = s.sizebits := rfl
@[simp] theorem State.noteReads_vbyte (s : State) (i : Instr) : (State.noteReads i s).vbyte = s.vbyte := rfl
@[simp] theorem State.noteReads_outType (s : State) (i : Instr) : (State.noteReads i s).outType = s.outType := rfl
@[simp] theorem State.noteReads_sizelen (s : State) (i : Instr) : (State.noteReads i s).sizelen = s.sizelen := rfl
@[simp] theorem State.noteReads_pfxLen (s : State) (i : Instr) : (State.noteReads i s).pfxLen = s.pfxLen := rfl
@[simp] theorem State.noteReads_netLen (s : State) (i : Instr) : (State.noteReads i s).netLen = s.netLen := rfl
@[simp] theorem State.noteReads_hashLen (s : State) (i : Instr) : (State.noteReads i s).hashLen = s.hashLen := rfl
@[simp] theorem State.noteReads_byteLen (s : State) (i : Instr) : (State.noteReads i s).byteLen = s.byteLen := rfl
@[simp] theorem State.noteReads_wordLen (s : State) (i : Instr) : (State.noteReads i s).wordLen = s.wordLen := rfl
@[simp] theorem State.noteReads_strLen (s : State) (i : Instr) : (State.noteReads i s).strLen = s.strLen := rfl
@[simp] theorem State.noteReads_mem (s : State) (i : Instr) : (State.noteReads i s).mem = s.mem := rfl
@[simp] theorem State.noteReads_written (s : State) (i : Instr) : (State.noteReads i s).written = s.written := rfl
@[simp] theorem State.noteReads_unwrittenUse (s : State) (i : Instr) : (State.noteReads i s).unwrittenUse = (s.unwrittenUse || readsUnwritten i s) := rfl
@[simp] theorem State.noteReads_draws (s : State) (i : Instr) : (State.noteReads i s).draws = s.draws := rfl
@[simp] theorem State.noteReads_host (s : State) (i : Instr) : (State.noteReads i s).host = s.host := rfl
@[simp] theorem State.noteReads_readLog (s : State) (i : Instr) : (State.noteReads i s).readLog = s.readLog := rfl

/-! ### State.resetBlock -/

@[simp] theorem State.resetBlock_pend (s : State) : s.resetBlock.pend = State.reset.pend := rfl
@[simp] theorem State.resetBlock_done (s : State) : s.resetBlock.done = State.reset.done := rfl
@[simp] theorem State.resetBlock_err (s : State) : s.resetBlock.err = State.reset.err := rfl
@[simp] theorem State.resetBlock_netValid (s : State) : s.resetBlock.netValid = State.reset.netValid := rfl
@[simp] theorem State.resetBlock_ovr (s : State) : s.resetBlock.ovr = State.reset.ovr := rfl
@[simp] theorem State.resetBlock_errcode (s : State) : s.resetBlock.errcode = State.reset.errcode := rfl
@[simp] theorem State.resetBlock_acc (s : State) : s.resetBlock.acc = State.reset.acc := rfl
@[simp] theorem State.resetBlock_operand (s : State) : s.resetBlock.operand = State.reset.operand := rfl
@[simp] theorem State.resetBlock_typebits (s : State) : s.resetBlock.typebits = State.reset.typebits := rfl
@[simp] theorem State.resetBlock_sizebits (s : State) : s.resetBlock.sizebits = State.reset.sizebits := rfl
@[simp] theorem State.resetBlock_vbyte (s : State) : s.resetBlock.vbyte = State.reset.vbyte := rfl
@[simp] theorem State.resetBlock_outType (s : State) : s.resetBlock.outType = State.reset.outType := rfl
@[simp] theorem State.resetBlock_sizelen (s : State) : s.resetBlock.sizelen = State.reset.sizelen := rfl
@[simp] theorem State.resetBlock_pfxLen (s : State) : s.resetBlock.pfxLen = State.reset.pfxLen := rfl
@[simp] theorem State.resetBlock_netLen (s : State) : s.resetBlock.netLen = State.reset.netLen := rfl
@[simp] theorem State.resetBlock_hashLen (s : State) : s.resetBlock.hashLen = State.reset.hashLen := rfl
@[simp] theorem State.resetBlock_byteLen (s : State) : s.resetBlock.byteLen = State.reset.byteLen := rfl
@[simp] theorem State.resetBlock_wordLen (s : State) : s.resetBlock.wordLen = State.reset.wordLen := rfl
@[simp] theorem State.resetBlock_strLen (s : State) : s.resetBlock.strLen = State.reset.strLen := rfl
@[simp] theorem State.resetBlock_mem (s : State) : s.resetBlock.mem = State.reset.mem := rfl
@[simp] theorem State.resetBlock_written (s : State) : s.resetBlock.written = State.reset.written := rfl
@[simp] theorem State.resetBlock_unwrittenUse (s : State) : s.resetBlock.unwrittenUse = s.unwrittenUse := rfl
@[simp] theorem State.resetBlock_draws (s : State) : s.resetBlock.draws = s.draws := rfl
@[simp] theorem State.resetBlock_host (s : State) : s.resetBlock.host = s.host := rfl
@[simp] theorem State.resetBlock_readLog (s : State) : s.resetBlock.readLog = s.readLog := rfl

/-! ### State.setLen -/

@[simp] theorem State.setLen_pend (s : State) (b : Buf) (n : Length) : (s.setLen b n).pend = s.pend := by
  cases b <;> rfl
@[simp] theorem State.setLen_done (s : State) (b : Buf) (n : Length) : (s.setLen b n).done = s.done := by
  cases b <;> rfl
@[simp] theorem State.setLen_err (s : State) (b : Buf) (n : Length) : (s.setLen b n).err = s.err := by
  cases b <;> rfl
@[simp] theorem State.setLen_netValid (s : State) (b : Buf) (n : Length) : (s.setLen b n).netValid = s.netValid := by
  cases b <;> rfl
@[simp] theorem State.setLen_ovr (s : State) (b : Buf) (n : Length) : (s.setLen b n).ovr = s.ovr := by
  cases b <;> rfl
@[simp] theorem State.setLen_errcode (s : State) (b : Buf) (n : Length) : (s.setLen b n).errcode = s.errcode := by
  cases b <;> rfl
@[simp] theorem State.setLen_acc (s : State) (b : Buf) (n : Length) : (s.setLen b n).acc = s.acc := by
  cases b <;> rfl
@[simp] theorem State.setLen_operand (s : State) (b : Buf) (n : Length) : (s.setLen b n).operand = s.operand := by
  cases b <;> rfl
@[simp] theorem State.setLen_typebits (s : State) (b : Buf) (n : Length) : (s.setLen b n).typebits = s.typebits := by
  cases b <;> rfl
@[simp] theorem State.setLen_sizebits (s : State) (b : Buf) (n : Length) : (s.setLen b n).sizebits = s.sizebits := by
  cases b <;> rfl
@[simp] theorem State.setLen_vbyte (s : State) (b : Buf) (n : Length) : (s.setLen b n).vbyte = s.vbyte := by
  cases b <;> rfl
@[simp] theorem State.setLen_outType (s : State) (b : Buf) (n : Length) : (s.setLen b n).outType = s.outType := by
  cases b <;> rfl
@[simp] theorem State.setLen_sizelen (s : State) (b : Buf) (n : Length) : (s.setLen b n).sizelen = s.sizelen := by
  cases b <;> rfl
@[simp] theorem State.setLen_pfxLen (s : State) (b : Buf) (n : Length) : (s.setLen b n).pfxLen = if b = .pfx then n else s.pfxLen := by
  cases b <;> rfl
@[simp] theorem State.setLen_netLen (s : State) (b : Buf) (n : Length) : (s.setLen b n).netLen = if b = .net then n else s.netLen := by
  cases b <;> rfl
@[simp] theorem State.setLen_hashLen (s : State) (b : Buf) (n : Length) : (s.setLen b n).hashLen = if b = .hash then n else s.hashLen := by
  cases b <;> rfl
@[simp] theorem State.setLen_byteLen (s : State) (b : Buf) (n : Length) : (s.setLen b n).byteLen = if b = .bytes then n else s.byteLen := by
  cases b <;> rfl
@[simp] theorem State.setLen_wordLen (s : State) (b : Buf) (n : Length) : (s.setLen b n).wordLen = if b = .words then n else s.wordLen := by
  cases b <;> rfl
@[simp] theorem State.setLen_strLen (s : State) (b : Buf) (n : Length) : (s.setLen b n).strLen = if b = .str then n else s.strLen := by
  cases b <;> rfl
@[simp] theorem State.setLen_mem (s : State) (b : Buf) (n : Length) : (s.setLen b n).mem = s.mem := by
  cases b <;> rfl
theorem State.setLen_written (s : State) (b : Buf) (n : Length) :
    (s.setLen b n).written = (b.lenReg.map fun r => s.written.insert r.offset).getD s.written := by
  cases b <;> rfl
@[simp] theorem State.setLen_unwrittenUse (s : State) (b : Buf) (n : Length) : (s.setLen b n).unwrittenUse = s.unwrittenUse := by
  cases b <;> rfl
@[simp] theorem State.setLen_draws (s : State) (b : Buf) (n : Length) : (s.setLen b n).draws = s.draws := by
  cases b <;> rfl
@[simp] theorem State.setLen_host (s : State) (b : Buf) (n : Length) : (s.setLen b n).host = s.host := by
  cases b <;> rfl
@[simp] theorem State.setLen_readLog (s : State) (b : Buf) (n : Length) : (s.setLen b n).readLog = s.readLog := by
  cases b <;> rfl

/-! ### State.storeReg: what no register write touches -/

@[simp] theorem State.storeReg_pend (s : State) (r : Reg) (d : Datum) : (s.storeReg r d).pend = s.pend := by
  cases r <;> rfl
@[simp] theorem State.storeReg_done (s : State) (r : Reg) (d : Datum) : (s.storeReg r d).done = s.done := by
  cases r <;> rfl
@[simp] theorem State.storeReg_err (s : State) (r : Reg) (d : Datum) : (s.storeReg r d).err = s.err := by
  cases r <;> rfl
@[simp] theorem State.storeReg_netValid (s : State) (r : Reg) (d : Datum) : (s.storeReg r d).netValid = s.netValid := by
  cases r <;> rfl
@[simp] theorem State.storeReg_ovr (s : State) (r : Reg) (d : Datum) : (s.storeReg r d).ovr = s.ovr := by
  cases r <;> rfl
@[simp] theorem State.storeReg_errcode (s : State) (r : Reg) (d : Datum) : (s.storeReg r d).errcode = s.errcode := by
  cases r <;> rfl
@[simp] theorem State.storeReg_mem (s : State) (r : Reg) (d : Datum) : (s.storeReg r d).mem = s.mem := by
  cases r <;> rfl
@[simp] theorem State.storeReg_unwrittenUse (s : State) (r : Reg) (d : Datum) : (s.storeReg r d).unwrittenUse = s.unwrittenUse := by
  cases r <;> rfl
@[simp] theorem State.storeReg_draws (s : State) (r : Reg) (d : Datum) : (s.storeReg r d).draws = s.draws := by
  cases r <;> rfl
@[simp] theorem State.storeReg_host (s : State) (r : Reg) (d : Datum) : (s.storeReg r d).host = s.host := by
  cases r <;> rfl
@[simp] theorem State.storeReg_readLog (s : State) (r : Reg) (d : Datum) : (s.storeReg r d).readLog = s.readLog := by
  cases r <;> rfl

end Sys2Proof.Machine
end

