-- ==== Sys2Proof/Laws/Ops.lean ====
section
/-! SUPPORT. What the shared operations do, said once: reading elements back, the frames of the register and buffer
writes and how they compose, and the ways a command's outcome can look. -/

namespace Sys2Proof.Machine

/-! ### Outcomes and checks -/

@[simp] theorem require_true (e : Err) : require true e = .ok () := rfl
@[simp] theorem require_false (e : Err) : require false e = .error e := rfl

@[simp] theorem require_eq_ok {cond : Bool} {e : Err} {x : Unit} : require cond e = .ok x ↔ cond = true := by
  cases cond <;> simp

@[simp] theorem require_eq_error {cond : Bool} {e e' : Err} :
    require cond e = .error e' ↔ cond = false ∧ e = e' := by
  cases cond <;> simp

/-- A check lets the rest of the pseudocode run exactly when it holds. -/
theorem require_bind {α : Type} (cond : Bool) (e : Err) (f : Unit → Except Err α) :
    (require cond e >>= f) = if cond then f () else .error e := by
  cases cond <;> rfl

@[simp] theorem ok_bind {α β : Type} (a : α) (f : α → Except Err β) : ((.ok a : Except Err α) >>= f) = f a := rfl
@[simp] theorem error_bind {α β : Type} (e : Err) (f : α → Except Err β) :
    ((.error e : Except Err α) >>= f) = .error e := rfl

/-- Pseudocode succeeds exactly when its check holds and the rest succeeds. -/
theorem require_bind_eq_ok {α : Type} {cond : Bool} {e : Err} {f : Unit → Except Err α} {a : α} :
    (require cond e >>= f) = .ok a ↔ cond = true ∧ f () = .ok a := by
  cases cond <;> simp

/-- Pseudocode fails in its check, or after it. -/
theorem require_bind_eq_error {α : Type} {cond : Bool} {e e' : Err} {f : Unit → Except Err α} :
    (require cond e >>= f) = .error e' ↔ cond = false ∧ e = e' ∨ cond = true ∧ f () = .error e' := by
  cases cond <;> simp

theorem bind_eq_ok {α β : Type} {x : Except Err α} {f : α → Except Err β} {b : β} :
    (x >>= f) = .ok b ↔ ∃ a, x = .ok a ∧ f a = .ok b := by
  cases x <;> simp

theorem bind_eq_error {α β : Type} {x : Except Err α} {f : α → Except Err β} {e : Err} :
    (x >>= f) = .error e ↔ x = .error e ∨ ∃ a, x = .ok a ∧ f a = .error e := by
  cases x <;> simp

@[simp] theorem pure_eq_ok {α : Type} (a : α) : (pure a : Except Err α) = .ok a := rfl

/-- A command with outputs answers a next state with its outputs written or with an error recorded. -/
theorem conclude_cases {s t : State} {r : Except Err State} (h : conclude s r = .next t) :
    (∃ u, r = .ok u ∧ t = u.finish) ∨ (∃ e, r = .error e ∧ t = s.raise e) := by
  cases r with
  | ok u => exact .inl ⟨u, rfl, by simpa [conclude] using h.symm⟩
  | error e => exact .inr ⟨e, rfl, by simpa [conclude] using h.symm⟩

/-- A command that concludes never stops the machine. -/
theorem conclude_next (s : State) (r : Except Err State) : ∃ t, conclude s r = .next t := by
  cases r <;> exact ⟨_, rfl⟩

/-! ### Elements and sequences -/

theorem Buf.slot_ne {b c : Buf} {i j : Nat} (hi : i < b.cap) (hj : j < c.cap) (h : b ≠ c ∨ i ≠ j) :
    b.slot i ≠ c.slot j := by
  cases b <;> cases c <;>
    simp_all [Buf.slot, Buf.base, Buf.cap, Config.capPfx, Config.capNet, Config.capHash, Config.capBytes,
      Config.capWords, Config.capStr, Config.nCk] <;> omega

@[simp] theorem State.seq_length (s : State) (b : Buf) (n : Nat) : (s.seq b n).length = n := by simp [State.seq]

@[simp] theorem State.seq_getElem (s : State) (b : Buf) (n i : Nat) (h : i < (s.seq b n).length) :
    (s.seq b n)[i] = s.elem b i := by simp [State.seq]

@[simp] theorem State.input_length (s : State) (b : Buf) : (s.input b).length = s.len b := by simp [State.input]

/-- The input length check (60_exceptions.md R245 (a)). -/
theorem State.lengthOk_iff {s : State} {b : Buf} : s.lengthOk b = true ↔ s.len b ≤ b.cap := by simp [State.lengthOk]

/-- What holds of every element holds of every member of the sequence. -/
theorem State.forall_mem_seq {s : State} {b : Buf} {n : Nat} {P : Byte → Prop} (h : ∀ k < n, P (s.elem b k)) :
    ∀ c ∈ s.seq b n, P c := by
  intro c hc
  obtain ⟨k, hk, rfl⟩ := List.mem_map.mp hc
  exact h k (List.mem_range.mp hk)

theorem State.exists_mem_seq {s : State} {b : Buf} {n : Nat} {P : Byte → Prop} (h : ∃ k < n, P (s.elem b k)) :
    ∃ c ∈ s.seq b n, P c := by
  obtain ⟨k, hk, h⟩ := h
  exact ⟨_, List.mem_map.mpr ⟨k, List.mem_range.mpr hk, rfl⟩, h⟩

/-- Writing a sequence puts it into the buffer's first elements. -/
theorem State.elem_setElems_at {s : State} (hs : s.mem.wf = true) (b : Buf) (vs : List Byte) (i : Nat)
    (hi : i < vs.length) : (s.setElems b vs).elem b i = vs[i] :=
  Memory.read_writeSlots_at hs b.base vs i hi

theorem State.seq_setElems {s : State} (hs : s.mem.wf = true) (b : Buf) (vs : List Byte) :
    (s.setElems b vs).seq b vs.length = vs := by
  apply List.ext_getElem (by simp)
  intro i h1 h2
  rw [State.seq_getElem, State.elem_setElems_at hs b vs i h2]

/-- Writing a sequence that fits leaves every other existing element alone: the later elements of the buffer and the
other buffers (93_implementation_defined.md U18). -/
theorem State.elem_setElems_other (s : State) {b c : Buf} {vs : List Byte} {i : Nat} (hvs : vs.length ≤ b.cap)
    (hi : i < c.cap) (h : c ≠ b ∨ vs.length ≤ i) : (s.setElems b vs).elem c i = s.elem c i := by
  apply Memory.read_writeSlots_other
  intro k hk
  apply Buf.slot_ne hi (Nat.lt_of_lt_of_le hk hvs)
  rcases h with h | h
  · exact .inl h
  · exact .inr (by omega)

theorem State.elem_congr {s t : State} (h : t.mem = s.mem) (b : Buf) (i : Nat) : t.elem b i = s.elem b i := by
  simp [State.elem, h]

theorem State.seq_congr {s t : State} (h : t.mem = s.mem) (b : Buf) (n : Nat) : t.seq b n = s.seq b n := by
  simp [State.seq, State.elem_congr h]

@[simp] theorem State.complete_elem (s : State) (c : BitVec 8) (b : Buf) (i : Nat) :
    (State.complete c s).elem b i = s.elem b i := rfl
@[simp] theorem State.finish_elem (s : State) (b : Buf) (i : Nat) : s.finish.elem b i = s.elem b i := rfl
@[simp] theorem State.setLen_elem (s : State) (b c : Buf) (n : Length) (i : Nat) :
    (s.setLen b n).elem c i = s.elem c i := State.elem_congr (by simp) _ _
@[simp] theorem State.setAcc_elem (s : State) (a : Acc) (b : Buf) (i : Nat) : (s.setAcc a).elem b i = s.elem b i := rfl
@[simp] theorem State.complete_seq (s : State) (c : BitVec 8) (b : Buf) (n : Nat) :
    (State.complete c s).seq b n = s.seq b n := rfl
@[simp] theorem State.finish_seq (s : State) (b : Buf) (n : Nat) : s.finish.seq b n = s.seq b n := rfl
@[simp] theorem State.setLen_seq (s : State) (b c : Buf) (n : Length) (k : Nat) :
    (s.setLen b n).seq c k = s.seq c k := State.seq_congr (by simp) _ _

/-- A loaded sequence is the buffer's input sequence. -/
theorem State.len_setSeq (s : State) {b : Buf} {r : Reg} (hr : b.lenReg = some r) (vs : List Byte)
    (hl : vs.length < 65536) : (s.setSeq b vs).len b = vs.length := by
  cases b <;> simp [Buf.lenReg] at hr <;> simp [State.setSeq, State.len, Nat.mod_eq_of_lt hl]

theorem State.input_setSeq {s : State} (hm : s.mem.wf = true) {b : Buf} {r : Reg} (hr : b.lenReg = some r)
    (vs : List Byte) (hl : vs.length < 65536) : (s.setSeq b vs).input b = vs := by
  rw [State.input, State.len_setSeq s hr vs hl, State.setSeq, State.setLen_seq, State.seq_setElems hm]

/-! ### The registers on the bus -/

theorem acc_halves (a : Acc) : a.extractLsb' 32 8 ++ a.extractLsb' 0 32 = a := by
  apply BitVec.eq_of_getLsbD_eq
  intro i hi
  rw [BitVec.getLsbD_append]
  by_cases h : i < 32
  · simp [h]
  · have h2 : i - 32 < 8 := by omega
    simp [h, h2, show 32 + (i - 32) = i by omega]

/-- The two bus halves determine ACC (10_state.md R26). -/
theorem acc_eq_of_halves {a b : Acc} (hlo : a.extractLsb' 0 32 = b.extractLsb' 0 32)
    (hhi : a.extractLsb' 32 8 = b.extractLsb' 32 8) : a = b := by
  rw [← acc_halves a, ← acc_halves b, hlo, hhi]

@[simp] theorem State.complete_regValue (s : State) (c : BitVec 8) (r : Reg) (h : r.isData = true) :
    (State.complete c s).regValue r = s.regValue r := by
  cases r <;> first | rfl | simp [Reg.isData] at h

/-! ### Frames -/

theorem Frame.refl (s : State) : Frame [] [] s s := by simp [Frame, OutsideKept]

theorem Frame.trans {r₁ r₂ : List Reg} {m₁ m₂ : List Nat} {s t u : State} (h₁ : Frame r₁ m₁ s t)
    (h₂ : Frame r₂ m₂ t u) : Frame (r₁ ++ r₂) (m₁ ++ m₂) s u := by
  obtain ⟨a₁, b₁, c₁, d₁⟩ := h₁
  obtain ⟨a₂, b₂, c₂, d₂⟩ := h₂
  refine ⟨fun r hr hn => ?_, fun a ha => ?_, fun a => ?_, ?_⟩
  · simp only [List.mem_append, not_or] at hn
    rw [a₂ r hr hn.2, a₁ r hr hn.1]
  · simp only [List.mem_append, not_or] at ha
    rw [b₂ a ha.2, b₁ a ha.1]
  · rw [c₂ a, c₁ a]
    simp only [List.map_append, List.mem_append]
    tauto
  · obtain ⟨o₁, o₂, o₃, o₄, o₅⟩ := d₁
    obtain ⟨p₁, p₂, p₃, p₄, p₅⟩ := d₂
    exact ⟨p₁.trans o₁, p₂.trans o₂, p₃.trans o₃, p₄.trans o₄, p₅.trans o₅⟩

/-- A completion writes no data register and no byte. -/
theorem Frame.complete (s : State) (c : BitVec 8) : Frame [] [] s (State.complete c s) := by
  refine ⟨fun r hr _ => State.complete_regValue s c r hr, fun _ _ => rfl, by simp, ?_⟩
  simp [OutsideKept]

theorem Frame.setElems (s : State) (b : Buf) (vs : List Byte) :
    Frame [] (slotsOf b vs.length) s (s.setElems b vs) := by
  refine ⟨fun r _ _ => by cases r <;> rfl, fun a ha => ?_, fun a => ?_, by simp [OutsideKept]⟩
  · apply Memory.read_writeSlots_other
    intro k hk he
    exact ha (by simpa [slotsOf, Buf.slot] using ⟨k, hk, he.symm⟩)
  · simp only [State.setElems_written, OffsetSet.mem_insertSlots, List.map_nil, List.not_mem_nil, false_or,
      slotsOf, List.mem_map, List.mem_range, Buf.slot]
    exact or_congr_right (exists_congr fun k => and_congr_right fun _ => eq_comm)

theorem Frame.setLen (s : State) {b : Buf} {r : Reg} (h : b.lenReg = some r) (n : Length) :
    Frame [r] [] s (s.setLen b n) := by
  refine ⟨fun q hq hn => ?_, fun _ _ => by simp, fun a => ?_, by simp [OutsideKept]⟩
  · cases b <;> simp [Buf.lenReg] at h <;> subst h <;> cases q <;> first | rfl | simp at hn
  · cases b <;> simp [Buf.lenReg] at h <;> subst h <;> simp [State.setLen_written, Buf.lenReg] <;> tauto

/-- `BUF <- s` writes the elements and the length register, and nothing else (00_scope.md R12). -/
theorem Frame.setSeq (s : State) {b : Buf} {r : Reg} (h : b.lenReg = some r) (vs : List Byte) :
    Frame [r] (slotsOf b vs.length) s (s.setSeq b vs) := by
  have := (Frame.setElems s b vs).trans (Frame.setLen (s.setElems b vs) h (BitVec.ofNat 16 vs.length))
  rwa [List.nil_append, List.append_nil] at this

theorem Frame.setAcc (s : State) (a : Acc) : Frame [.accLo, .accHi] [] s (s.setAcc a) := by
  refine ⟨fun q _ hn => ?_, fun _ _ => rfl, fun a => ?_, by simp [OutsideKept]⟩
  · cases q <;> first | rfl | simp at hn
  · simp; tauto

theorem Frame.setTypebits (s : State) (v : Byte) : Frame [.typebits] [] s (s.setTypebits v) := by
  refine ⟨fun q _ hn => ?_, fun _ _ => rfl, fun a => ?_, by simp [OutsideKept]⟩
  · cases q <;> first | rfl | simp at hn
  · simp; tauto

theorem Frame.setSizebits (s : State) (v : Byte) : Frame [.sizebits] [] s (s.setSizebits v) := by
  refine ⟨fun q _ hn => ?_, fun _ _ => rfl, fun a => ?_, by simp [OutsideKept]⟩
  · cases q <;> first | rfl | simp at hn
  · simp; tauto

theorem Frame.setVbyte (s : State) (v : Byte) : Frame [.vbyte] [] s (s.setVbyte v) := by
  refine ⟨fun q _ hn => ?_, fun _ _ => rfl, fun a => ?_, by simp [OutsideKept]⟩
  · cases q <;> first | rfl | simp at hn
  · simp; tauto

theorem Frame.setOutType (s : State) (v : Byte) : Frame [.outType] [] s (s.setOutType v) := by
  refine ⟨fun q _ hn => ?_, fun _ _ => rfl, fun a => ?_, by simp [OutsideKept]⟩
  · cases q <;> first | rfl | simp at hn
  · simp; tauto

theorem Frame.setSizelen (s : State) (v : Byte) : Frame [.sizelen] [] s (s.setSizelen v) := by
  refine ⟨fun q _ hn => ?_, fun _ _ => rfl, fun a => ?_, by simp [OutsideKept]⟩
  · cases q <;> first | rfl | simp at hn
  · simp; tauto

theorem Frame.setChecksum (s : State) (a : Acc) :
    Frame [.accLo, .accHi] (slotsOf .ckw Config.nCk) s (s.setChecksum a) := by
  have h := (Frame.setAcc s a).trans (Frame.setElems (s.setAcc a) .ckw (ckWords a))
  rwa [List.append_nil, List.nil_append, show (ckWords a).length = Config.nCk by simp [ckWords]] at h

/-- An error writes nothing but EXP's elements, and those only on ChecksumMismatch (60_exceptions.md R248). -/
theorem Frame.raise (s : State) (e : Err) :
    Frame [] (match e with | .checksumMismatch ex => slotsOf .exp ex.length | _ => []) s (s.raise e) := by
  cases e with
  | checksumMismatch ex =>
    have := (Frame.setElems s .exp ex).trans (Frame.complete (s.setElems .exp ex) (Err.checksumMismatch ex).code)
    rwa [List.nil_append, List.append_nil] at this
  | _ => exact Frame.complete s _

/-! ### Completion flags -/

theorem Ends.complete (s : State) (c : BitVec 8) : Ends c.toNat (State.complete c s) := by
  refine ⟨rfl, rfl, ?_, rfl⟩
  by_cases h : c = 0
  · subst h; rfl
  · have hn : c.toNat ≠ 0 := fun hn => h (BitVec.eq_of_toNat_eq hn)
    simp only [State.complete_err, hn, ne_eq, not_false_eq_true, decide_true, bne_iff_ne]
    exact h

theorem Ends.finish (s : State) : Ends 0 s.finish := Ends.complete s 0

theorem Ends.raise (s : State) (e : Err) : Ends e.code.toNat (s.raise e) := Ends.complete _ _

/-- Every error has a code from 1 to 22 (60_exceptions.md R241). -/
theorem Err.code_range (e : Err) : 1 ≤ e.code.toNat ∧ e.code.toNat ≤ 22 := by
  cases e <;> simp [Err.code]

end Sys2Proof.Machine
end

