-- ==== Sys2Proof/Laws/Framer.lean ====
section
/-! SUPPORT. What the framer's two functions do, said once: when they succeed and with what, and when they fail. -/

namespace Sys2Proof.Machine

theorem lower_length (s : List Byte) : (lower s).length = s.length := by simp [lower]

theorem charEnc_eq_ok {ws str : List Byte} (h : charEnc ws = .ok str) :
    (∀ w ∈ ws, wordOk w = true) ∧ str = ws.map charAt := by
  by_cases hw : ∀ w ∈ ws, wordOk w = true
  · rw [charEnc_ok hw] at h
    exact ⟨hw, by simpa using h.symm⟩
  · rw [charEnc_error (by simpa using hw)] at h
    cases h

theorem charDec_length {cs ws : List Byte} (h : charDec cs = .ok ws) : ws.length = cs.length := by
  rw [← (charDec_eq_ok h).1, List.length_map]

theorem checksumAcc_eq_ok {p ws : List Byte} {a : Acc} (h : checksumAcc p ws = .ok a) :
    (∀ c ∈ p, prefixCharOk c = true) ∧ (∀ w ∈ ws, wordOk w = true) ∧ a = checksumValue p ws := by
  by_cases hp : ∀ c ∈ p, prefixCharOk c = true
  · by_cases hw : ∀ w ∈ ws, wordOk w = true
    · rw [checksumAcc_ok hp hw] at h
      exact ⟨hp, hw, by simpa using h.symm⟩
    · rw [checksumAcc_word_error hp (by simpa using hw)] at h
      cases h
  · rw [checksumAcc_prefix_error ws (by simpa using hp)] at h
    cases h

/-! ### FrameEnc (44_framer.md R170) -/

/-- The frame of a prefix and words. -/
def frameText (p ws : List Byte) (inc : Bool) : List Byte :=
  let body := (ws ++ ckWords (checksumValue (lower p) ws)).map charAt
  if inc then lower p ++ sep :: body else body

theorem frameText_length (p ws : List Byte) (inc : Bool) :
    (frameText p ws inc).length = (if inc then p.length + 1 else 0) + ws.length + 8 := by
  cases inc with
  | false => simp [frameText]
  | true =>
    simp [frameText, lower]
    omega

theorem frameEnc_eq (p ws : List Byte) (inc : Bool) : frameEnc p ws inc =
    (require (!p.isEmpty) .emptyPrefix >>= fun _ =>
      checksumAcc (lower p) ws >>= fun a =>
      charEnc ws >>= fun body =>
      charEnc (ckWords a) >>= fun ck =>
      pure (if inc then lower p ++ sep :: (body ++ ck) else body ++ ck)) := rfl

theorem frameEnc_ok {p ws : List Byte} (inc : Bool) (h0 : p ≠ []) (hp : ∀ c ∈ lower p, prefixCharOk c = true)
    (hw : ∀ w ∈ ws, wordOk w = true) : frameEnc p ws inc = .ok (frameText p ws inc) := by
  have he : (!p.isEmpty) = true := by simpa using h0
  rw [frameEnc_eq, require_bind, if_pos he, checksumAcc_ok hp hw, ok_bind, charEnc_ok hw, ok_bind,
    charEnc_ok (ckWords_ok _), ok_bind, pure_eq_ok]
  cases inc <;> simp [frameText]

theorem frameEnc_empty (ws : List Byte) (inc : Bool) : frameEnc [] ws inc = .error .emptyPrefix := rfl

theorem frameEnc_prefix_error {p : List Byte} (ws : List Byte) (inc : Bool) (h0 : p ≠ [])
    (hp : ∃ c ∈ lower p, prefixCharOk c = false) : frameEnc p ws inc = .error .invalidPrefixChar := by
  have he : (!p.isEmpty) = true := by simpa using h0
  rw [frameEnc_eq, require_bind, if_pos he, checksumAcc_prefix_error ws hp, error_bind]

theorem frameEnc_word_error {p ws : List Byte} (inc : Bool) (h0 : p ≠ [])
    (hp : ∀ c ∈ lower p, prefixCharOk c = true) (hw : ∃ w ∈ ws, wordOk w = false) :
    frameEnc p ws inc = .error .invalidWord := by
  have he : (!p.isEmpty) = true := by simpa using h0
  rw [frameEnc_eq, require_bind, if_pos he, checksumAcc_word_error hp hw, error_bind]

/-- Encoding succeeds only on a non-empty prefix of legal characters and words in range. -/
theorem frameEnc_eq_ok {p ws str : List Byte} {inc : Bool} (h : frameEnc p ws inc = .ok str) :
    p ≠ [] ∧ (∀ c ∈ lower p, prefixCharOk c = true) ∧ (∀ w ∈ ws, wordOk w = true) ∧ str = frameText p ws inc := by
  by_cases h0 : p = []
  · subst h0
    cases h
  by_cases hp : ∀ c ∈ lower p, prefixCharOk c = true
  · by_cases hw : ∀ w ∈ ws, wordOk w = true
    · rw [frameEnc_ok inc h0 hp hw] at h
      exact ⟨h0, hp, hw, by simpa using h.symm⟩
    · rw [frameEnc_word_error inc h0 hp (by simpa using hw)] at h
      cases h
  · rw [frameEnc_prefix_error ws inc h0 (by simpa using hp)] at h
    cases h

/-! ### FrameDec (44_framer.md R175) -/

/-- Decoding reaches the split at the last separator. -/
theorem frameDec_split {str p q : List Byte} (hm : mixed str = false) (hs : lower str = p ++ sep :: q)
    (hq : sep ∉ q) : frameDec str = frameDecAt (p ++ sep :: q) p.length := by
  rw [frameDec, hm, hs, lastSep_eq_some.mpr ⟨p, q, rfl, rfl, hq⟩]
  rfl

/-- What is done once the separator is found (R175's lines after it). -/
theorem frameDecAt_eq (p q : List Byte) : frameDecAt (p ++ sep :: q) p.length =
    (require (p.length != 0) .missingSeparator >>= fun _ =>
      require (decide (8 ≤ q.length)) .payloadTooShort >>= fun _ =>
      charDec q >>= fun v =>
      checksumAcc p (v.take (v.length - 8)) >>= fun a =>
      require (ckWords a == v.drop (v.length - 8)) (.checksumMismatch ((ckWords a).map charAt)) >>= fun _ =>
      pure (p, v.take (v.length - 8))) := by
  have hd : (p ++ sep :: q).drop (p.length + 1) = q := by simp
  simp only [frameDecAt, List.take_left', hd]

/-- A frame in form decodes to its prefix and words, or reports the expected checksum (R175). -/
theorem frameDec_framed {str p ws c : List Byte} (h : Framed str p ws c) :
    frameDec str = if ckWords (checksumValue p ws) = c then .ok (p, ws)
      else .error (.checksumMismatch ((ckWords (checksumValue p ws)).map charAt)) := by
  have hq : sep ∉ (ws ++ c).map charAt := by
    intro hm
    obtain ⟨w, hw, he⟩ := List.mem_map.mp hm
    exact (charAt_not_upper (h.words w hw)).2 he
  have hl : (ws ++ c).length - 8 = ws.length := by simp [h.eight]
  have hp : (p.length != 0) = true := by simpa using h.nonempty
  have h8 : decide (8 ≤ ((ws ++ c).map charAt).length) = true := by simp [h.eight]
  rw [frameDec_split h.unmixed h.shape hq, frameDecAt_eq, require_bind, if_pos hp, require_bind, if_pos h8,
    charDec_map_charAt h.words, ok_bind, hl, List.take_left, List.drop_left,
    checksumAcc_ok h.chars fun w hw => h.words w (by simp [hw]), ok_bind, require_bind]
  simp only [beq_iff_eq, pure_eq_ok]

/-- Decoding gets to the checksum only on a frame in form. -/
theorem frameDec_reaches {str : List Byte} (h : ∀ e, frameDec str = .error e → ∃ ex, e = .checksumMismatch ex) :
    ∃ p ws c, Framed str p ws c := by
  by_cases hm : mixed str = true
  · obtain ⟨ex, he⟩ := h .mixedCase (by rw [frameDec, if_pos hm])
    cases he
  simp only [Bool.not_eq_true] at hm
  by_cases hs : sep ∈ lower str
  · cases hk : lastSep (lower str) with
    | none => exact absurd hs (lastSep_eq_none.mp hk)
    | some k =>
      obtain ⟨p, q, hl, rfl, hq⟩ := lastSep_eq_some.mp hk
      have hd := frameDec_split hm hl hq
      rw [frameDecAt_eq] at hd
      rw [hd] at h
      by_cases hp : (p.length != 0) = true
      · rw [require_bind, if_pos hp] at h
        by_cases h8 : decide (8 ≤ q.length) = true
        · rw [require_bind, if_pos h8] at h
          cases hv : charDec q with
          | error e =>
            have hee : e = .invalidCharacter := by
              by_cases hc : ∃ c ∈ q, charIndex c = none
              · rw [charDec_error hc] at hv
                simpa using hv.symm
              · have hall : ∀ c ∈ q, ∃ w, charIndex c = some w := fun c hc' => by
                  cases hi : charIndex c with
                  | none => exact absurd ⟨c, hc', hi⟩ hc
                  | some w => exact ⟨w, rfl⟩
                have hmap : (q.map fun c => (charIndex c).getD 0).map charAt = q := by
                  rw [List.map_map]
                  conv_rhs => rw [← List.map_id q]
                  apply List.map_congr_left
                  intro c hc'
                  obtain ⟨w, hw⟩ := hall c hc'
                  simp [hw, (charAt_charIndex c w hw).1]
                have hok : ∀ w ∈ q.map fun c => (charIndex c).getD 0, wordOk w = true := by
                  intro w hw
                  obtain ⟨c, hc', rfl⟩ := List.mem_map.mp hw
                  obtain ⟨v, hv'⟩ := hall c hc'
                  simp [hv', (charAt_charIndex c v hv').2]
                rw [← hmap, charDec_map_charAt hok] at hv
                cases hv
            subst hee
            obtain ⟨ex, he⟩ := h .invalidCharacter (by rw [hv, error_bind])
            cases he
          | ok v =>
            obtain ⟨hvq, hvok⟩ := charDec_eq_ok hv
            have hvl := charDec_length hv
            simp only [decide_eq_true_eq] at h8
            by_cases hpc : ∀ c ∈ p, prefixCharOk c = true
            · refine ⟨p, v.take (v.length - 8), v.drop (v.length - 8), hm, ?_, ?_, hpc, ?_, ?_⟩
              · rw [List.take_append_drop, hvq, hl]
              · rintro rfl
                simp at hp
              · simpa using hvok
              · rw [List.length_drop]
                omega
            · rw [hv, ok_bind, checksumAcc_prefix_error _ (by simpa using hpc), error_bind] at h
              obtain ⟨ex, he⟩ := h _ rfl
              cases he
        · rw [require_bind, if_neg h8] at h
          obtain ⟨ex, he⟩ := h _ rfl
          cases he
      · rw [require_bind, if_neg hp] at h
        obtain ⟨ex, he⟩ := h _ rfl
        cases he
  · obtain ⟨ex, he⟩ := h .missingSeparator (by rw [frameDec, hm, lastSep_eq_none.mpr hs]; rfl)
    cases he

/-- Decoding succeeds only on a valid frame. -/
theorem frameDec_eq_ok {str p d : List Byte} (h : frameDec str = .ok (p, d)) : ValidFrame str p d := by
  obtain ⟨p', ws, c, hf⟩ := frameDec_reaches (str := str) fun e he => by rw [h] at he; cases he
  have hd := frameDec_framed hf
  rw [h] at hd
  split at hd
  · next hc =>
    cases hd
    rw [ValidFrame, hc]
    exact hf
  · cases hd

/-- ChecksumMismatch always reports the checksum characters of a legal prefix and words (R175). -/
theorem frameDec_mismatch {str ex : List Byte} (h : frameDec str = .error (.checksumMismatch ex)) :
    ∃ p ws c, Framed str p ws c ∧ ex = (ckWords (checksumValue p ws)).map charAt := by
  obtain ⟨p, ws, c, hf⟩ := frameDec_reaches (str := str) fun e he => ⟨ex, by rw [h] at he; simpa using he.symm⟩
  have hd := frameDec_framed hf
  rw [h] at hd
  split at hd
  · cases hd
  · exact ⟨p, ws, c, hf, by simpa using hd⟩

theorem Framed.length {str p ws c : List Byte} (h : Framed str p ws c) : str.length = p.length + 1 + ws.length + 8 := by
  rw [← lower_length, h.shape]
  simp [h.eight]
  omega

end Sys2Proof.Machine
end

