-- ==== Sys2Proof/Laws/Radix.lean ====
section
/-! SUPPORT. What the two radix conversions yield: how many elements, and in which range. -/

namespace Sys2Proof.Machine

theorem setWidth_wordOk (x : BitVec 5) : wordOk (x.setWidth 8) = true := by
  simp only [wordOk, decide_eq_true_eq, BitVec.toNat_setWidth]
  have := x.isLt
  exact Nat.le_trans (Nat.mod_le _ _) (by omega)

/-- The groups cut off are words, their bits are gone, and at most fewer than five bits stay live (R121). -/
theorem cutGroups_five (acc : RadixAcc) {bits : Nat} (h : bits < 15) :
    (∀ w ∈ (cutGroups 5 2 acc bits).1, wordOk w = true) ∧
      5 * (cutGroups 5 2 acc bits).1.length + (cutGroups 5 2 acc bits).2 = bits ∧ (cutGroups 5 2 acc bits).2 < 5 := by
  by_cases h1 : 5 ≤ bits
  · by_cases h2 : 5 ≤ bits - 5
    · simp only [cutGroups, h1, h2, if_true]
      refine ⟨?_, ?_, ?_⟩
      · intro w hw
        rcases List.mem_cons.mp hw with rfl | hw
        · exact setWidth_wordOk _
        · rw [List.mem_singleton.mp hw]
          exact setWidth_wordOk _
      · simp
        omega
      · omega
    · simp only [cutGroups, h1, h2, if_true, if_false]
      refine ⟨?_, ?_, ?_⟩
      · intro w hw
        rw [List.mem_singleton.mp hw]
        exact setWidth_wordOk _
      · simp
        omega
      · omega
  · simp only [cutGroups, h1, if_false]
    simp
    omega

theorem b2wLoop_words (acc : RadixAcc) {bits : Nat} (h : bits < 5) (bs : List Byte) :
    (∀ w ∈ b2wLoop acc bits bs, wordOk w = true) ∧ (b2wLoop acc bits bs).length = (bits + 8 * bs.length + 4) / 5 := by
  induction bs generalizing acc bits with
  | nil =>
    rw [b2wLoop]
    split
    · simp only [List.mem_singleton, forall_eq, setWidth_wordOk, List.length_singleton, List.length_nil, true_and]
      omega
    · simp
      omega
  | cons b bs ih =>
    rw [b2wLoop]
    obtain ⟨hw, hl, hb⟩ := cutGroups_five ((acc <<< 8) ||| b.setWidth 12) (bits := bits + 8) (by omega)
    obtain ⟨iw, il⟩ := ih ((acc <<< 8) ||| b.setWidth 12) hb
    refine ⟨fun w hm => ?_, ?_⟩
    · rcases List.mem_append.mp hm with hm | hm
      · exact hw w hm
      · exact iw w hm
    · rw [List.length_append, il, List.length_cons]
      omega

/-- `B2W` yields words (R121). -/
theorem b2w_words (bs : List Byte) : ∀ w ∈ b2w bs, wordOk w = true := (b2wLoop_words 0 (by omega) bs).1

/-- `B2W` of `n` bytes yields `ceil(8n/5)` words (R122). -/
theorem b2w_length (bs : List Byte) : (b2w bs).length = (8 * bs.length + 4) / 5 := by
  rw [b2w, (b2wLoop_words 0 (by omega) bs).2]
  omega

theorem cutGroups_eight (acc : RadixAcc) {bits : Nat} (h : bits < 16) :
    8 * (cutGroups 8 1 acc bits).1.length + (cutGroups 8 1 acc bits).2 = bits ∧ (cutGroups 8 1 acc bits).2 < 8 := by
  by_cases h1 : 8 ≤ bits
  · simp [cutGroups, h1]
    omega
  · simp [cutGroups, h1]
    omega

theorem w2bLoop_length (acc : RadixAcc) {bits : Nat} (h : bits < 8) {ws bs : List Byte}
    (hok : w2bLoop acc bits ws = .ok bs) : bs.length = (bits + 5 * ws.length) / 8 := by
  induction ws generalizing acc bits bs with
  | nil =>
    rw [w2bLoop] at hok
    split at hok
    · cases hok
    · split at hok
      · cases hok
      · cases hok
        simp
        omega
  | cons w ws ih =>
    rw [w2bLoop] at hok
    split at hok
    · obtain ⟨hl, hb⟩ := cutGroups_eight ((acc <<< 5) ||| w.setWidth 12) (bits := bits + 5) (by omega)
      cases hr : w2bLoop ((acc <<< 5) ||| w.setWidth 12) (cutGroups 8 1 ((acc <<< 5) ||| w.setWidth 12) (bits + 5)).2 ws with
      | error e => simp only [hr] at hok; cases hok
      | ok vs =>
        simp only [hr] at hok
        cases hok
        rw [List.length_append, ih _ hb hr, List.length_cons]
        omega
    · cases hok

/-- `W2B` of `n` words yields `floor(5n/8)` bytes (R127). -/
theorem w2b_length {ws bs : List Byte} (h : w2b ws = .ok bs) : bs.length = 5 * ws.length / 8 := by
  rw [w2bLoop_length 0 (by omega) h]
  omega

theorem w2bLoop_words (acc : RadixAcc) (bits : Nat) {ws bs : List Byte} (hok : w2bLoop acc bits ws = .ok bs) :
    ∀ w ∈ ws, wordOk w = true := by
  induction ws generalizing acc bits bs with
  | nil => simp
  | cons w ws ih =>
    rw [w2bLoop] at hok
    split at hok
    · next hw =>
      cases hr : w2bLoop ((acc <<< 5) ||| w.setWidth 12) (cutGroups 8 1 ((acc <<< 5) ||| w.setWidth 12) (bits + 5)).2 ws with
      | error e => simp only [hr] at hok; cases hok
      | ok vs =>
        intro v hv
        rcases List.mem_cons.mp hv with rfl | hv
        · exact hw
        · exact ih _ _ hr v hv
    · cases hok

/-- Only words in range convert (R126). -/
theorem w2b_words {ws bs : List Byte} (h : w2b ws = .ok bs) : ∀ w ∈ ws, wordOk w = true := w2bLoop_words 0 0 h

end Sys2Proof.Machine
end

