-- ==== Sys2Proof/Laws/Commands.lean ====
section
/-! SUPPORT. Everything a command's completion can do, said once: without error it is the state its rule gives; with an
error it records the error and writes nothing else. -/

namespace Sys2Proof.Machine

/-- `u` is the state with the command's outputs written, its checks having passed: one line per command rule. -/
def Writes (i : Instr) (s u : State) : Prop :=
  match i with
  | .cfgNet => s.lengthOk .net = true ∧ s.netLen ≠ 0 ∧ mixed (s.input .net) = false ∧
      { s.setElems .net (lower (s.input .net)) with netValid := true } = u
  | .chrEnc => s.lengthOk .words = true ∧ ∃ str, charEnc (s.input .words) = .ok str ∧ s.setSeq .str str = u
  | .chrDec => s.lengthOk .str = true ∧ ∃ ws, charDec (s.input .str) = .ok ws ∧ ws.length ≤ Buf.cap .words ∧
      s.setSeq .words ws = u
  | .cvt8to5 => s.lengthOk .bytes = true ∧ s.setSeq .words (b2w (s.input .bytes)) = u
  | .cvt5to8 => s.lengthOk .words = true ∧ ∃ bs, w2b (s.input .words) = .ok bs ∧ s.setSeq .bytes bs = u
  | .accInit => s.setAcc 1 = u
  | .polyStep => s.setAcc (polyStep s.acc) = u
  | .polyFeedw => wordOk s.operand = true ∧ s.setAcc (absorbWord s.acc s.operand) = u
  | .polyFeedc => prefixCharOk s.operand = true ∧ s.setAcc (absorbChar s.acc s.operand) = u
  | .polyFinal => s.setChecksum (s.acc ^^^ 1) = u
  | .checksum => s.lengthOk .pfx = true ∧ s.lengthOk .words = true ∧
      ∃ a, checksumAcc (s.input .pfx) (s.input .words) = .ok a ∧ s.setChecksum a = u
  | .frmEnc nopfx => s.lengthOk .pfx = true ∧ s.lengthOk .words = true ∧
      ∃ str, frameEnc (s.input .pfx) (s.input .words) (!nopfx) = .ok str ∧ s.setSeq .str str = u
  | .frmDec => s.lengthOk .str = true ∧ ∃ p d, frameDec (s.input .str) = .ok (p, d) ∧ p.length ≤ Buf.cap .pfx ∧
      d.length ≤ Buf.cap .words ∧ (s.setSeq .pfx p).setSeq .words d = u
  | .vbPack => typebitsOk s.typebits = true ∧ sizebitsOk s.sizebits = true ∧
      s.setVbyte (versionByte s.typebits s.sizebits) = u
  | .vbUnpack => typebitsOk (vbType s.vbyte) = true ∧ (s.setTypebits (vbType s.vbyte)).setSizebits (vbSize s.vbyte) = u
  | .vbEncts => typeKnown s.outType = true ∧
      ∃ sb, sizeCode s.hashLen.toNat = some sb ∧ (s.setTypebits s.outType).setSizebits sb = u
  | .vbDects => typeKnown s.typebits = true ∧ sizebitsOk s.sizebits = true ∧
      (s.setOutType s.typebits).setSizelen (BitVec.ofNat 8 (sizeLength s.sizebits)) = u
  | .addrEncraw nopfx => s.lengthOk .hash = true ∧ s.netValid = true ∧
      ∃ str, addrEncRaw (s.input .net) s.typebits s.sizebits (s.input .hash) (!nopfx) = .ok str ∧ s.setSeq .str str = u
  | .addrEnc nopfx => s.lengthOk .hash = true ∧ s.netValid = true ∧ typeKnown s.outType = true ∧
      ∃ sb str, sizeCode s.hashLen.toNat = some sb ∧
        addrEncRaw (s.input .net) s.outType sb (s.input .hash) (!nopfx) = .ok str ∧ s.setSeq .str str = u
  | .addrDecraw => s.lengthOk .str = true ∧ s.netValid = true ∧
      ∃ r, addrDecRaw (s.input .net) (s.input .str) = .ok r ∧ r.hash.length ≤ Buf.cap .hash ∧
        ((s.setTypebits r.tb).setSizebits r.sb).setSeq .hash r.hash = u
  | .addrDec => s.lengthOk .str = true ∧ s.netValid = true ∧
      ∃ r, addrDecRaw (s.input .net) (s.input .str) = .ok r ∧ typeKnown r.tb = true ∧ sizebitsOk r.sb = true ∧
        r.hash.length = sizeLength r.sb ∧ (s.setOutType r.tb).setSeq .hash r.hash = u

theorem hashSizeCode_eq_ok {n : Nat} {sb : Byte} : hashSizeCode n = .ok sb ↔ sizeCode n = some sb := by
  unfold hashSizeCode
  cases sizeCode n <;> simp

theorem conclude_eq_next {s t : State} {r : Except Err State} :
    conclude s r = .next t ↔ (∃ u, r = .ok u ∧ t = u.finish) ∨ (∃ e, r = .error e ∧ t = s.raise e) := by
  cases r <;> simp [conclude] <;> exact eq_comm

/-! ### Which errors the shared functions report -/

/-- The checksum that a ChecksumMismatch reports is 8 checksum characters (44_framer.md R175). -/
def Err.Sound (e : Err) : Prop := ∀ ex, e = .checksumMismatch ex → ∃ a, ex = (ckWords a).map charAt

theorem Err.sound_of_ne {e : Err} (h : ∀ ex, e ≠ .checksumMismatch ex) : e.Sound := fun ex he => absurd he (h ex)

theorem charEnc_eq_error {ws : List Byte} {e : Err} (h : charEnc ws = .error e) : e = .invalidWord := by
  by_cases hw : ∀ w ∈ ws, wordOk w = true
  · rw [charEnc_ok hw] at h
    cases h
  · rw [charEnc_error (by simpa using hw)] at h
    simpa using h.symm

theorem charDec_eq_error {cs : List Byte} {e : Err} (h : charDec cs = .error e) : e = .invalidCharacter := by
  induction cs with
  | nil => cases h
  | cons c cs ih =>
    rw [charDec] at h
    split at h
    · simpa using h.symm
    · cases hd : charDec cs with
      | ok ws =>
        rw [hd] at h
        cases h
      | error e' =>
        rw [hd] at h
        cases h
        exact ih hd

theorem checksumAcc_eq_error {p ws : List Byte} {e : Err} (h : checksumAcc p ws = .error e) :
    e = .invalidPrefixChar ∨ e = .invalidWord := by
  by_cases hp : ∀ c ∈ p, prefixCharOk c = true
  · by_cases hw : ∀ w ∈ ws, wordOk w = true
    · rw [checksumAcc_ok hp hw] at h
      cases h
    · rw [checksumAcc_word_error hp (by simpa using hw)] at h
      exact .inr (by simpa using h.symm)
  · rw [checksumAcc_prefix_error ws (by simpa using hp)] at h
    exact .inl (by simpa using h.symm)

theorem w2bLoop_eq_error (acc : RadixAcc) (bits : Nat) {ws : List Byte} {e : Err}
    (h : w2bLoop acc bits ws = .error e) : e = .invalidWord ∨ e = .invalidPadding := by
  induction ws generalizing acc bits with
  | nil =>
    rw [w2bLoop] at h
    split at h
    · exact .inr (by simpa using h.symm)
    · split at h
      · exact .inr (by simpa using h.symm)
      · cases h
  | cons w ws ih =>
    rw [w2bLoop] at h
    split at h
    · cases hd : w2bLoop ((acc <<< 5) ||| w.setWidth 12) (cutGroups 8 1 ((acc <<< 5) ||| w.setWidth 12) (bits + 5)).2 ws with
      | ok bs =>
        simp only [hd] at h
        cases h
      | error e' =>
        simp only [hd] at h
        cases h
        exact ih _ _ hd
    · exact .inl (by simpa using h.symm)

theorem frameEnc_eq_error {p ws : List Byte} {inc : Bool} {e : Err} (h : frameEnc p ws inc = .error e) :
    e = .emptyPrefix ∨ e = .invalidPrefixChar ∨ e = .invalidWord := by
  by_cases h0 : p = []
  · subst h0
    exact .inl (by simpa [frameEnc_empty] using h.symm)
  by_cases hp : ∀ c ∈ lower p, prefixCharOk c = true
  · by_cases hw : ∀ w ∈ ws, wordOk w = true
    · rw [frameEnc_ok inc h0 hp hw] at h
      cases h
    · rw [frameEnc_word_error inc h0 hp (by simpa using hw)] at h
      exact .inr (.inr (by simpa using h.symm))
  · rw [frameEnc_prefix_error ws inc h0 (by simpa using hp)] at h
    exact .inr (.inl (by simpa using h.symm))

/-- Every error of the pseudocode is sound. -/
def AllSound {α : Type} (x : Except Err α) : Prop := ∀ e, x = .error e → e.Sound

theorem AllSound.ok {α : Type} (a : α) : AllSound (.ok a : Except Err α) := fun _ h => by cases h

theorem AllSound.require {cond : Bool} {e : Err} (h : ∀ ex, e ≠ .checksumMismatch ex) : AllSound (require cond e) := by
  intro e' he
  rw [← (require_eq_error.mp he).2]
  exact Err.sound_of_ne h

theorem AllSound.bind {α β : Type} {x : Except Err α} {f : α → Except Err β} (hx : AllSound x)
    (hf : ∀ a, AllSound (f a)) : AllSound (x >>= f) := by
  intro e he
  rcases bind_eq_error.mp he with h | ⟨a, _, h⟩
  · exact hx e h
  · exact hf a e h

theorem AllSound.charEnc (ws : List Byte) : AllSound (charEnc ws) := by
  intro e h
  rw [charEnc_eq_error h]
  exact Err.sound_of_ne (by simp)

theorem AllSound.charDec (cs : List Byte) : AllSound (charDec cs) := by
  intro e h
  rw [charDec_eq_error h]
  exact Err.sound_of_ne (by simp)

theorem AllSound.w2b (ws : List Byte) : AllSound (w2b ws) := by
  intro e h
  rcases w2bLoop_eq_error _ _ h with rfl | rfl <;> exact Err.sound_of_ne (by simp)

theorem AllSound.checksumAcc (p ws : List Byte) : AllSound (checksumAcc p ws) := by
  intro e h
  rcases checksumAcc_eq_error h with rfl | rfl <;> exact Err.sound_of_ne (by simp)

theorem AllSound.frameEnc (p ws : List Byte) (inc : Bool) : AllSound (frameEnc p ws inc) := by
  intro e h
  rcases frameEnc_eq_error h with rfl | rfl | rfl <;> exact Err.sound_of_ne (by simp)

theorem AllSound.frameDec (str : List Byte) : AllSound (frameDec str) := by
  rintro e h ex rfl
  obtain ⟨p, ws, _, _, rfl⟩ := frameDec_mismatch h
  exact ⟨_, rfl⟩

theorem AllSound.hashSizeCode (n : Nat) : AllSound (hashSizeCode n) := by
  intro e h
  unfold Machine.hashSizeCode at h
  split at h <;> cases h
  exact Err.sound_of_ne (by simp)

theorem AllSound.splitPayload (bs : List Byte) : AllSound (splitPayload bs) := by
  intro e h
  unfold Machine.splitPayload at h
  split at h
  · cases h
    exact Err.sound_of_ne (by simp)
  · split at h <;> cases h
    exact Err.sound_of_ne (by simp)

theorem AllSound.addrEncRaw (net : List Byte) (tb sb : Byte) (h : List Byte) (inc : Bool) :
    AllSound (addrEncRaw net tb sb h inc) :=
  .bind (.require (by simp)) fun _ => .bind (.require (by simp)) fun _ => .frameEnc _ _ _

theorem AllSound.addrDecRaw (net str : List Byte) : AllSound (addrDecRaw net str) :=
  .bind (.frameDec _) fun _ => .bind (.require (by simp)) fun _ => .bind (.w2b _) fun _ => .splitPayload _

/-! ### The outcome of a command -/

/-- The state an error of the command is recorded on: an error of CFG.NET clears NET_VALID (60_exceptions.md R248). -/
def onError (i : Instr) (s : State) : State := if i = .cfgNet then { s with netValid := false } else s

/-- NET_VALID is no part of a frame. -/
theorem Frame.withNetValid (s : State) (v : Bool) : Frame [] [] s { s with netValid := v } := by
  refine ⟨fun r hr _ => ?_, fun _ _ => rfl, by simp, rfl, rfl, rfl, rfl, rfl⟩
  cases r <;> first | rfl | simp [Reg.isData] at hr

theorem Frame.onError (i : Instr) (s : State) : Frame [] [] s (onError i s) := by
  unfold Machine.onError
  split
  · exact Frame.withNetValid s false
  · exact Frame.refl s

@[simp] theorem State.raise_errcode (s : State) (e : Err) : (s.raise e).errcode = e.code := rfl

@[simp] theorem State.raise_netValid (s : State) (e : Err) : (s.raise e).netValid = s.netValid := by
  cases e <;> rfl

@[simp] theorem onError_netValid (i : Instr) (s : State) :
    (onError i s).netValid = if i = .cfgNet then false else s.netValid := by
  unfold onError
  split <;> rfl

/-- An error writes nothing but EXP's 8 elements on ChecksumMismatch, its code 10 (60_exceptions.md R243, R248). -/
theorem Frame.raise_onError (i : Instr) (s : State) {e : Err} (he : e.Sound) :
    Frame [] (if e.code = 10 then slotsOf .exp 8 else []) s ((Machine.onError i s).raise e) := by
  have h := (Frame.onError i s).trans (Frame.raise (Machine.onError i s) e)
  cases e with
  | checksumMismatch ex =>
    obtain ⟨a, rfl⟩ := he ex rfl
    simpa [Err.code] using h
  | _ => exact h

/-- What a completion is. -/
def Completed (i : Instr) (s t : State) : Prop :=
  (∃ u, Writes i s u ∧ t = u.finish) ∨ ∃ e, e.Sound ∧ t = (onError i s).raise e

theorem completed_of_conclude {i : Instr} {s t : State} {r : Except Err State} (hi : i ≠ .cfgNet)
    (hr : AllSound r) (hw : ∀ u, r = .ok u → Writes i s u) (h : conclude s r = .next t) : Completed i s t := by
  rcases conclude_eq_next.mp h with ⟨u, hu, rfl⟩ | ⟨e, he, rfl⟩
  · exact .inl ⟨u, hw u hu, rfl⟩
  · exact .inr ⟨e, hr e he, by rw [onError, if_neg hi]⟩

theorem execCfgNet_completed {s t : State} (h : execCfgNet s = .next t) : Completed .cfgNet s t := by
  unfold execCfgNet at h
  split at h
  · next u hu =>
    refine .inl ⟨{ u with netValid := true }, ?_, by simpa using h.symm⟩
    simp only [cfgNetResult, require_bind_eq_ok, pure_eq_ok, Except.ok.injEq] at hu
    obtain ⟨h1, h2, h3, rfl⟩ := hu
    exact ⟨h1, by simpa using h2, by simpa using h3, rfl⟩
  · next e he =>
    have hs : AllSound (cfgNetResult s) :=
      .bind (.require (by simp)) fun _ => .bind (.require (by simp)) fun _ => .bind (.require (by simp)) fun _ => .ok _
    exact .inr ⟨e, hs e he, by simpa [onError] using h.symm⟩

/-- Every command completes: with its outputs written, or with an error recorded and no output. -/
theorem exec_cases {i : Instr} {s t : State} (h : exec i s = .next t) : Completed i s t := by
  cases i with
  | cfgNet => exact execCfgNet_completed h
  | chrEnc =>
    refine completed_of_conclude (by simp) (.bind (.require (by simp)) fun _ => .bind (.charEnc _) fun _ => .ok _)
      (fun u hu => ?_) h
    simpa [Writes, chrEncResult, bind_eq_ok] using hu
  | chrDec =>
    refine completed_of_conclude (by simp) (.bind (.require (by simp)) fun _ => .bind (.charDec _) fun _ =>
      .bind (.require (by simp)) fun _ => .ok _) (fun u hu => ?_) h
    simpa [Writes, chrDecResult, bind_eq_ok] using hu
  | cvt8to5 =>
    refine completed_of_conclude (by simp) (.bind (.require (by simp)) fun _ => .ok _) (fun u hu => ?_) h
    simpa [Writes, cvt8to5Result, bind_eq_ok] using hu
  | cvt5to8 =>
    refine completed_of_conclude (by simp) (.bind (.require (by simp)) fun _ => .bind (.w2b _) fun _ => .ok _)
      (fun u hu => ?_) h
    simpa [Writes, cvt5to8Result, bind_eq_ok] using hu
  | accInit => exact completed_of_conclude (by simp) (.ok _) (fun u hu => by simpa [Writes] using hu) h
  | polyStep => exact completed_of_conclude (by simp) (.ok _) (fun u hu => by simpa [Writes] using hu) h
  | polyFeedw =>
    refine completed_of_conclude (by simp) (.bind (.require (by simp)) fun _ => .ok _) (fun u hu => ?_) h
    simpa [Writes, polyFeedwResult, bind_eq_ok] using hu
  | polyFeedc =>
    refine completed_of_conclude (by simp) (.bind (.require (by simp)) fun _ => .ok _) (fun u hu => ?_) h
    simpa [Writes, polyFeedcResult, bind_eq_ok] using hu
  | polyFinal => exact completed_of_conclude (by simp) (.ok _) (fun u hu => by simpa [Writes] using hu) h
  | checksum =>
    refine completed_of_conclude (by simp) (.bind (.require (by simp)) fun _ => .bind (.checksumAcc _ _) fun _ => .ok _)
      (fun u hu => ?_) h
    simpa [Writes, checksumResult, bind_eq_ok, and_assoc] using hu
  | frmEnc nopfx =>
    refine completed_of_conclude (by simp) (.bind (.require (by simp)) fun _ => .bind (.frameEnc _ _ _) fun _ => .ok _)
      (fun u hu => ?_) h
    simpa [Writes, frmEncResult, bind_eq_ok, and_assoc] using hu
  | frmDec =>
    refine completed_of_conclude (by simp) (.bind (.require (by simp)) fun _ => .bind (.frameDec _) fun _ =>
      .bind (.require (by simp)) fun _ => .ok _) (fun u hu => ?_) h
    simpa [Writes, frmDecResult, bind_eq_ok, and_assoc] using hu
  | vbPack =>
    refine completed_of_conclude (by simp) (.bind (.require (by simp)) fun _ => .bind (.require (by simp)) fun _ => .ok _)
      (fun u hu => ?_) h
    simpa [Writes, vbPackResult, bind_eq_ok] using hu
  | vbUnpack =>
    refine completed_of_conclude (by simp) (.bind (.require (by simp)) fun _ => .ok _) (fun u hu => ?_) h
    simpa [Writes, vbUnpackResult, bind_eq_ok] using hu
  | vbEncts =>
    refine completed_of_conclude (by simp) (.bind (.require (by simp)) fun _ => .bind (.hashSizeCode _) fun _ => .ok _)
      (fun u hu => ?_) h
    simpa [Writes, vbEnctsResult, bind_eq_ok, hashSizeCode_eq_ok] using hu
  | vbDects =>
    refine completed_of_conclude (by simp) (.bind (.require (by simp)) fun _ => .bind (.require (by simp)) fun _ => .ok _)
      (fun u hu => ?_) h
    simpa [Writes, vbDectsResult, bind_eq_ok] using hu
  | addrEncraw nopfx =>
    refine completed_of_conclude (by simp) (.bind (.require (by simp)) fun _ => .bind (.require (by simp)) fun _ =>
      .bind (.addrEncRaw _ _ _ _ _) fun _ => .ok _) (fun u hu => ?_) h
    simpa [Writes, addrEncrawResult, bind_eq_ok] using hu
  | addrEnc nopfx =>
    refine completed_of_conclude (by simp) (.bind (.require (by simp)) fun _ => .bind (.require (by simp)) fun _ =>
      .bind (.require (by simp)) fun _ => .bind (.hashSizeCode _) fun _ =>
      .bind (.addrEncRaw _ _ _ _ _) fun _ => .ok _) (fun u hu => ?_) h
    simpa [Writes, addrEncResult, bind_eq_ok, hashSizeCode_eq_ok, and_assoc] using hu
  | addrDecraw =>
    refine completed_of_conclude (by simp) (.bind (.require (by simp)) fun _ => .bind (.require (by simp)) fun _ =>
      .bind (.addrDecRaw _ _) fun _ => .bind (.require (by simp)) fun _ => .ok _) (fun u hu => ?_) h
    simpa [Writes, addrDecrawResult, bind_eq_ok] using hu
  | addrDec =>
    refine completed_of_conclude (by simp) (.bind (.require (by simp)) fun _ => .bind (.require (by simp)) fun _ =>
      .bind (.addrDecRaw _ _) fun _ => .bind (.require (by simp)) fun _ => .bind (.require (by simp)) fun _ =>
      .bind (.require (by simp)) fun _ => .ok _) (fun u hu => ?_) h
    simpa [Writes, addrDecResult, bind_eq_ok, and_assoc] using hu

/-! ### From a command's result to its outcome -/

/-- Outputs written without error, in the words of the claims. -/
theorem succeeds_of_result {i : Instr} {s u : State} {r : Except Err State} {regs : List Reg} {slots : List Nat}
    (he : exec i s = conclude s r) (hr : r = .ok u) (hf : Frame regs slots s u) (hn : u.netValid = s.netValid) :
    Succeeds i s regs slots u.finish := by
  refine ⟨by rw [he, hr]; rfl, Ends.finish u, ?_, hn⟩
  have h := hf.trans (Frame.complete u 0)
  rw [List.append_nil, List.append_nil] at h
  exact h

/-- An error other than ChecksumMismatch, in the words of the claims. -/
theorem failsWith_of_result {i : Instr} {s : State} {r : Except Err State} {e : Err} (he : exec i s = conclude s r)
    (hr : r = .error e) (hm : e.code ≠ 10) : ∃ t, FailsWith i s e.code.toNat t := by
  refine ⟨s.raise e, by rw [he, hr]; rfl, Ends.raise s e, ?_, by simp⟩
  have h := Frame.raise s e
  cases e <;> first | exact h | exact absurd rfl hm

/-- ChecksumMismatch, in the words of the claims. -/
theorem failsWithExpected_of_result {i : Instr} {s : State} {r : Except Err State} {ex : List Byte}
    (he : exec i s = conclude s r) (hr : r = .error (.checksumMismatch ex)) (hl : ex.length = 8)
    (hm : s.mem.wf = true) : ∃ t, FailsWithExpected i s ex t := by
  have hf : Frame [] (slotsOf .exp ex.length) s (s.raise (.checksumMismatch ex)) := Frame.raise s _
  have hs : (s.raise (.checksumMismatch ex)).seq .exp ex.length = ex := State.seq_setElems hm .exp ex
  rw [hl] at hf hs
  exact ⟨s.raise (.checksumMismatch ex), by rw [he, hr]; rfl, Ends.raise s _, hf, by simp, hs⟩

end Sys2Proof.Machine
end

