-- ==== Sys2Proof/Laws/HostAsm.lean ====
section
/-! SUPPORT. What the host assembly's command words are, said once: they agree with the encoder, and decode to the command
named, or to nothing where .NOPFX is not legal. -/

namespace Sys2Proof.Machine

/-- Assembling a command's mnemonic with its NOPFX bit gives its word. -/
theorem commandWord_encode (i : Instr) : commandWord (mnemonicOf i) (nopfxBit i) = encode i := by
  cases i <;> first | rfl | (rename_i n; cases n <;> rfl)

/-- Without the suffix every mnemonic names a command. -/
theorem decode_commandWord (m : Mnemonic) : ∃ i, decode (commandWord m false) = .ok i ∧ mnemonicOf i = m := by
  cases m <;> exact ⟨_, rfl, rfl⟩

/-- With the suffix the word is illegal but for the three commands that have the operand (30_encoding.md R84). -/
theorem decode_commandWord_nopfx (m : Mnemonic) :
    (m = .frmEnc ∧ decode (commandWord m true) = .ok (.frmEnc true)) ∨
    (m = .addrEncraw ∧ decode (commandWord m true) = .ok (.addrEncraw true)) ∨
    (m = .addrEnc ∧ decode (commandWord m true) = .ok (.addrEnc true)) ∨
    decode (commandWord m true) = .error .nopfxNotAllowed := by
  cases m <;> decide

end Sys2Proof.Machine
end

