-- ==== Sys2Proof/Laws/Step.lean ====
section
/-! SUPPORT. Which agent a step belongs to, the window's map of offsets to slots, and what a host statement does, said
once. -/

namespace Sys2Proof.Machine

/-! ### Who moves -/

theorem step_of_engineNext {s : State} {p : Pending} (h : EngineNext s p) : step s = completeCommand p.word s := by
  obtain ⟨hp, hh⟩ := h
  simp only [step, transition, hp]
  rw [if_pos]
  rcases hh with h | h <;> simp [h]

theorem step_of_hostNext {s : State} (h : HostNext s) : step s = hostStep s := by
  simp only [step, transition]
  split
  · rfl
  · next p hp =>
    obtain ⟨hd, hh⟩ := h p hp
    rw [if_neg]
    simp [hd, hh]

/-- Every step is the engine's or the host's. -/
theorem engineNext_or_hostNext (s : State) : (∃ p, EngineNext s p) ∨ HostNext s := by
  cases hp : s.pend with
  | none => exact .inr fun p h => by simp [hp] at h
  | some p =>
    by_cases h : p.delay = 0 ∨ s.host = []
    · exact .inl ⟨p, hp, h⟩
    · refine .inr fun q hq => ?_
      rw [hp] at hq
      cases hq
      exact not_or.mp h

/-- Not both: an engine's step is not the host's. -/
theorem EngineNext.not_hostNext {s : State} {p : Pending} (h : EngineNext s p) : ¬ HostNext s := fun hn => by
  obtain ⟨hd, hh⟩ := hn p h.1
  exact h.2.elim hd hh

/-- With no statement left, the host moves only when nothing is pending, and then the block holds its state. -/
theorem HostNext.idle {s : State} (h : HostNext s) (hh : s.host = []) : step s = .next s := by
  rw [step_of_hostNext h, hostStep, hh]

/-! ### The window (20_memory.md R61, R62) -/

/-- Every slot that the window's map yields exists, and stands at that offset. -/
theorem slotAt_spec {o : Nat} {slot : Slot} (h : slotAt o = some slot) : slot.mapped = true ∧ slot.offset = o := by
  unfold slotAt at h
  split at h
  · cases h
  · next h4 =>
    split at h
    · next r hr =>
      cases h
      have hf := List.find?_some hr
      exact ⟨rfl, beq_iff_eq.mp hf⟩
    · obtain ⟨b, hb, hs⟩ := Option.map_eq_some_iff.mp h
      cases hs
      have hc := List.find?_some hb
      simp only [Buf.covers, Bool.and_eq_true, decide_eq_true_eq] at hc
      have hbase : b.base % 4 = 0 := by cases b <;> rfl
      simp only [bne_iff_ne, ne_eq, Decidable.not_not] at h4
      simp only [Slot.mapped, Slot.offset, Buf.slot, decide_eq_true_eq]
      omega

/-- The buffers' ranges do not overlap. -/
theorem Buf.covers_elem {b : Buf} {i : Nat} (h : i < b.cap) (c : Buf) :
    c.covers (b.base + 4 * i) = decide (c = b) := by
  by_cases hc : c = b
  · subst hc
    simp only [Buf.covers, decide_true, Bool.and_eq_true, decide_eq_true_eq]
    omega
  · simp only [Buf.covers, decide_eq_false hc, Bool.and_eq_false_iff, decide_eq_false_iff_not]
    revert hc
    cases b <;> cases c <;> intro hc <;> first | exact absurd rfl hc | skip
    all_goals
      clear hc
      simp only [Buf.base, Buf.cap, Config.capPfx, Config.capNet, Config.capHash, Config.capBytes,
        Config.capWords, Config.capStr, Config.nCk] at h ⊢
      omega

/-- Every slot that exists is reached at its offset, so the map is exactly the list of R62. -/
theorem slotAt_offset {slot : Slot} (h : slot.mapped = true) : slotAt slot.offset = some slot := by
  cases slot with
  | reg r => cases r <;> rfl
  | elem b i =>
    simp only [Slot.mapped, decide_eq_true_eq] at h
    show slotAt (b.base + 4 * i) = _
    unfold slotAt
    have hbase : b.base % 4 = 0 := by cases b <;> rfl
    have h4 : ((b.base + 4 * i) % 4 != 0) = false := by simp; omega
    rw [h4, if_neg Bool.false_ne_true]
    have hreg : Reg.all.find? (fun r => r.offset == b.base + 4 * i) = none := by
      rw [List.find?_eq_none]
      intro r _
      have hr : r.offset < 0x100 := by cases r <;> decide
      have hb : 0x100 ≤ b.base := by cases b <;> decide
      simp only [beq_iff_eq]
      omega
    have hbuf : Buf.all.find? (fun c => c.covers (b.base + 4 * i)) = some b := by
      simp only [Buf.covers_elem h]
      cases b <;> rfl
    rw [hreg, hbuf]
    simp

/-- Two existing slots at one offset are one slot. -/
theorem Slot.offset_inj {a b : Slot} (ha : a.mapped = true) (hb : b.mapped = true) (h : a.offset = b.offset) : a = b :=
  Option.some.inj ((slotAt_offset ha).symm.trans ((congrArg slotAt h).trans (slotAt_offset hb)))

/-! ### Reads that are not exact -/

@[simp] theorem State.advance_busy (s : State) (rest : List HostStmt) : (s.advance rest).busy = s.busy := by
  simp [State.busy]

/-- What a read that is not exact returns: any value while a command is pending, any value of the used bits otherwise. -/
theorem State.and_freeBits (s : State) (slot : Slot) (d : Datum) :
    d &&& s.freeBits slot = if s.busy then d else d &&& slot.usedBits := by
  unfold State.freeBits
  split
  · exact BitVec.and_allOnes (w := 32)
  · rfl

/-! ### What a step can do -/

/-- A step that answers a state is the engine's completion or a host statement. -/
theorem step_cases {s t : State} (h : step s = .next t) :
    (∃ p, EngineNext s p ∧ completeCommand p.word s = .next t) ∨ (HostNext s ∧ hostStep s = .next t) := by
  rcases engineNext_or_hostNext s with ⟨p, hp⟩ | hn
  · exact .inl ⟨p, hp, by rw [← step_of_engineNext hp, h]⟩
  · exact .inr ⟨hn, by rw [← step_of_hostNext hn, h]⟩

/-- A completion is that of an illegal word or of the command the word decodes to. -/
theorem completeCommand_cases {w : Datum} {s t : State} (h : completeCommand w s = .next t) :
    (∃ e, decode w = .error e ∧ t = s.raise .illegalCommand) ∨
      ∃ i, decode w = .ok i ∧ exec i (s.noteReads i) = .next t := by
  unfold completeCommand at h
  split at h
  · next e he => exact .inl ⟨e, he, by simpa using h.symm⟩
  · next i hi => exact .inr ⟨i, hi, h⟩

/-- The step from a state with a fetched command word is that command's completion, with the mark of log 2 kept. -/
theorem step_withPending {w : Datum} {i : Instr} (s : State) (hi : decode w = .ok i) :
    step (s.withPending w) = exec i ((s.withPending w).noteReads i) := by
  rw [step_of_engineNext (p := { word := w, delay := 0 }) ⟨rfl, .inl rfl⟩]
  simp only [completeCommand, hi]

/-- A host statement is a read or write of a mapped slot, a turn of WAIT, or a reset; with none left nothing happens. -/
theorem hostStep_cases {s t : State} (h : hostStep s = .next t) :
    (s.host = [] ∧ t = s) ∨
    (∃ off rest slot, s.host = .rd .w32 off :: rest ∧ slotAt off.toNat = some slot ∧
      t = (s.advance rest).readSlot off slot) ∨
    (∃ off d rest slot, s.host = .wr .w32 off d :: rest ∧ slotAt off.toNat = some slot ∧
      t = (s.advance rest).writeSlot slot d) ∨
    (∃ rest, s.host = .wait :: rest ∧ t = s.tick.poll rest) ∨
    (∃ rest, s.host = .reset :: rest ∧ t = { s.resetBlock with host := rest }) := by
  unfold hostStep at h
  split at h
  · next hh => exact .inl ⟨hh, by simpa using h.symm⟩
  · next width off rest hh =>
    unfold busRead at h
    split at h
    · cases h
    · next slot hs =>
      refine .inr (.inl ⟨off, rest, slot, ?_, ?_, by simpa using h.symm⟩) <;>
        cases width <;> simp_all [accessSlot]
  · next width off d rest hh =>
    unfold busWrite at h
    split at h
    · cases h
    · next slot hs =>
      refine .inr (.inr (.inl ⟨off, d, rest, slot, ?_, ?_, by simpa using h.symm⟩)) <;>
        cases width <;> simp_all [accessSlot]
  · next rest hh => exact .inr (.inr (.inr (.inl ⟨rest, hh, by simpa using h.symm⟩)))
  · next rest hh => exact .inr (.inr (.inr (.inr ⟨rest, hh, by simpa using h.symm⟩)))
  · cases h

/-! ### The spec's model (10_state.md R50, 60_exceptions.md R261) -/

theorem readsUnwritten_iff {i : Instr} {s : State} : readsUnwritten i s = true ↔ ∃ o ∈ reads i s, o ∉ s.written := by
  simp [readsUnwritten]

/-- UNWRITTEN is entered exactly at the completion of a command that reads something unwritten. -/
theorem entersUnwritten_iff {s : State} : entersUnwritten s = true ↔
    ∃ p i, EngineNext s p ∧ decode p.word = .ok i ∧ ∃ o ∈ reads i s, o ∉ s.written := by
  unfold entersUnwritten EngineNext
  split
  · next hp => simp [hp]
  · next p hp =>
    cases hd : decode p.word with
    | error e =>
      simp only [hp, Bool.and_false, Bool.false_eq_true, false_iff, not_exists]
      rintro q i ⟨⟨hq, -⟩, hi, -⟩
      cases hq
      rw [hd] at hi
      cases hi
    | ok i =>
      simp only [hp, Bool.and_eq_true, Bool.or_eq_true, beq_iff_eq, List.isEmpty_iff, readsUnwritten_iff]
      constructor
      · rintro ⟨hh, hr⟩
        exact ⟨p, i, ⟨rfl, hh⟩, hd, hr⟩
      · rintro ⟨q, j, ⟨hq, hh⟩, hj, hr⟩
        cases hq
        rw [hd] at hj
        cases hj
        exact ⟨hh, hr⟩

/-- The model goes on exactly where UNWRITTEN was not entered and is not entered now, with the machine's step. -/
theorem modelStep_next_iff {s t : State} : modelStep s = .next t ↔
    s.unwrittenUse = false ∧ entersUnwritten s = false ∧ step s = .next t := by
  unfold modelStep
  split
  · next h => simp only [Bool.or_eq_true] at h; rcases h with h | h <;> simp [h]
  · next h =>
    simp only [Bool.or_eq_true, not_or, Bool.not_eq_true] at h
    split <;> simp_all

theorem modelStep_unwritten_iff {s : State} :
    modelStep s = .unwritten ↔ s.unwrittenUse = true ∨ entersUnwritten s = true := by
  unfold modelStep
  split
  · next h => simpa using h
  · next h =>
    simp only [Bool.or_eq_true] at h
    split <;> simp [h]

end Sys2Proof.Machine
end

