-- ==== Sys2Proof/Laws/Outputs.lean ====
section
/-! SUPPORT. Where a command's outputs lie: the registers and elements it may write, and that each stored form stays
canonical. -/

namespace Sys2Proof.Machine

/-- Every offset is that of an existing element of one of the buffers. -/
def Fits (bs : List Buf) (slots : List Nat) : Prop := ∀ a ∈ slots, ∃ b ∈ bs, ∃ k, k < b.cap ∧ a = b.slot k

theorem Fits.nil (bs : List Buf) : Fits bs [] := fun _ ha => by simp at ha

theorem fits_slots {b : Buf} {n : Nat} (h : n ≤ b.cap) : Fits [b] (slotsOf b n) := by
  intro a ha
  obtain ⟨k, hk, rfl⟩ := List.mem_map.mp ha
  exact ⟨b, by simp, k, Nat.lt_of_lt_of_le (List.mem_range.mp hk) h, rfl⟩

theorem Fits.mono {bs cs : List Buf} {m : List Nat} (h : Fits bs m) (hb : ∀ b ∈ bs, b ∈ cs) : Fits cs m := by
  intro a ha
  obtain ⟨b, h1, h2⟩ := h a ha
  exact ⟨b, hb b h1, h2⟩

theorem Fits.append {bs : List Buf} {m n : List Nat} (h : Fits bs m) (h' : Fits bs n) : Fits bs (m ++ n) := by
  intro a ha
  rcases List.mem_append.mp ha with h1 | h1
  · exact h a h1
  · exact h' a h1

/-- How long an address can be (46_address.md R215, R216). -/
theorem addrEncRaw_length {net h str : List Byte} {tb sb : Byte} {inc : Bool}
    (hq : addrEncRaw net tb sb h inc = .ok str) :
    str.length ≤ net.length + 1 + (8 * (1 + h.length) + 4) / 5 + 8 := by
  simp only [addrEncRaw, require_bind_eq_ok] at hq
  obtain ⟨_, _, hq⟩ := hq
  obtain ⟨_, _, _, rfl⟩ := frameEnc_eq_ok hq
  rw [frameText_length, b2w_length, List.length_cons]
  split <;> omega

theorem sizeLength_le (sb : Byte) : sizeLength sb ≤ 64 := by
  have := forall_byte (fun sb => decide (sizeLength sb ≤ 64)) (by decide +kernel) sb
  simpa using this

/-- A command that ends without error writes exactly its output registers and elements of its output buffers
(30_encoding.md R83), and NET_VALID only if it is CFG.NET. -/
theorem Writes.frame {i : Instr} {s u : State} (hi : s.Inv) (h : Writes i s u) :
    ∃ slots, Frame (outputRegs i) slots s u ∧ Fits (outputBufs i) slots ∧
      u.netValid = (if i = .cfgNet then true else s.netValid) := by
  cases i <;> simp only [Writes] at h
  case cfgNet =>
    obtain ⟨h1, _, _, rfl⟩ := h
    refine ⟨_, ?_, fits_slots (b := .net) (n := (lower (s.input .net)).length) ?_, by simp⟩
    · have h := (Frame.setElems s .net (lower (s.input .net))).trans (Frame.withNetValid _ true)
      rw [List.append_nil, List.append_nil] at h
      exact h
    · rw [lower_length, State.input_length]
      exact State.lengthOk_iff.mp h1
  case chrEnc =>
    obtain ⟨h1, str, hs, rfl⟩ := h
    refine ⟨_, Frame.setSeq s (b := .str) rfl str, fits_slots ?_, by simp [State.setSeq]⟩
    rw [(charEnc_eq_ok hs).2, List.length_map, State.input_length]
    have : s.len .words ≤ 128 := State.lengthOk_iff.mp h1
    exact Nat.le_trans this (by decide)
  case chrDec =>
    obtain ⟨h1, ws, hs, hl, rfl⟩ := h
    exact ⟨_, Frame.setSeq s (b := .words) rfl ws, fits_slots hl, by simp [State.setSeq]⟩
  case cvt8to5 =>
    obtain ⟨h1, rfl⟩ := h
    refine ⟨_, Frame.setSeq s (b := .words) rfl _, fits_slots ?_, by simp [State.setSeq]⟩
    rw [b2w_length, State.input_length]
    have : s.len .bytes ≤ 80 := State.lengthOk_iff.mp h1
    show _ ≤ 128
    omega
  case cvt5to8 =>
    obtain ⟨h1, bs, hb, rfl⟩ := h
    refine ⟨_, Frame.setSeq s (b := .bytes) rfl _, fits_slots ?_, by simp [State.setSeq]⟩
    rw [w2b_length hb, State.input_length]
    have : s.len .words ≤ 128 := State.lengthOk_iff.mp h1
    show _ ≤ 80
    omega
  case accInit =>
    subst h
    exact ⟨_, Frame.setAcc s _, .nil _, rfl⟩
  case polyStep =>
    subst h
    exact ⟨_, Frame.setAcc s _, .nil _, rfl⟩
  case polyFeedw =>
    obtain ⟨_, rfl⟩ := h
    exact ⟨_, Frame.setAcc s _, .nil _, rfl⟩
  case polyFeedc =>
    obtain ⟨_, rfl⟩ := h
    exact ⟨_, Frame.setAcc s _, .nil _, rfl⟩
  case polyFinal =>
    subst h
    exact ⟨_, Frame.setChecksum s _, fits_slots (Nat.le_refl _), rfl⟩
  case checksum =>
    obtain ⟨_, _, a, _, rfl⟩ := h
    exact ⟨_, Frame.setChecksum s _, fits_slots (Nat.le_refl _), rfl⟩
  case frmEnc n =>
    obtain ⟨h1, h2, str, hs, rfl⟩ := h
    refine ⟨_, Frame.setSeq s (b := .str) rfl str, fits_slots ?_, by simp [State.setSeq]⟩
    obtain ⟨_, _, _, rfl⟩ := frameEnc_eq_ok hs
    rw [frameText_length, State.input_length, State.input_length]
    have : s.len .words ≤ 128 := State.lengthOk_iff.mp h2
    have : s.len .pfx ≤ 64 := State.lengthOk_iff.mp h1
    show _ ≤ 256
    split <;> omega
  case frmDec =>
    obtain ⟨h1, p, d, hs, hp, hd, rfl⟩ := h
    have f := (Frame.setSeq s (b := .pfx) rfl p).trans (Frame.setSeq (s.setSeq .pfx p) (b := .words) rfl d)
    refine ⟨_, f, .append ((fits_slots hp).mono ?_) ((fits_slots hd).mono ?_), by simp [State.setSeq]⟩ <;>
      simp [outputBufs]
  case vbPack =>
    obtain ⟨_, _, rfl⟩ := h
    exact ⟨_, Frame.setVbyte s _, .nil _, rfl⟩
  case vbUnpack =>
    obtain ⟨_, rfl⟩ := h
    exact ⟨_, (Frame.setTypebits s _).trans (Frame.setSizebits _ _), .nil _, rfl⟩
  case vbEncts =>
    obtain ⟨_, _, _, rfl⟩ := h
    exact ⟨_, (Frame.setTypebits s _).trans (Frame.setSizebits _ _), .nil _, rfl⟩
  case vbDects =>
    obtain ⟨_, _, rfl⟩ := h
    exact ⟨_, (Frame.setOutType s _).trans (Frame.setSizelen _ _), .nil _, rfl⟩
  case addrEncraw n =>
    obtain ⟨h1, h2, str, hs, rfl⟩ := h
    refine ⟨_, Frame.setSeq s (b := .str) rfl str, fits_slots ?_, by simp [State.setSeq]⟩
    have := addrEncRaw_length hs
    rw [State.input_length, State.input_length] at this
    have : s.len .hash ≤ 64 := State.lengthOk_iff.mp h1
    have : s.len .net ≤ 64 := (hi.netLower h2).2.1
    show _ ≤ 256
    omega
  case addrEnc n =>
    obtain ⟨h1, h2, _, sb, str, _, hs, rfl⟩ := h
    refine ⟨_, Frame.setSeq s (b := .str) rfl str, fits_slots ?_, by simp [State.setSeq]⟩
    have := addrEncRaw_length hs
    rw [State.input_length, State.input_length] at this
    have : s.len .hash ≤ 64 := State.lengthOk_iff.mp h1
    have : s.len .net ≤ 64 := (hi.netLower h2).2.1
    show _ ≤ 256
    omega
  case addrDecraw =>
    obtain ⟨_, _, r, _, hl, rfl⟩ := h
    exact ⟨_, ((Frame.setTypebits s _).trans (Frame.setSizebits _ _)).trans (Frame.setSeq _ (b := .hash) rfl _),
      fits_slots hl, by simp [State.setSeq]⟩
  case addrDec =>
    obtain ⟨_, _, r, _, _, _, hl, rfl⟩ := h
    refine ⟨_, (Frame.setOutType s _).trans (Frame.setSeq _ (b := .hash) rfl _), fits_slots ?_,
      by simp [State.setSeq]⟩
    rw [hl]
    exact sizeLength_le _

/-- In every state, what no command touches stays. -/
theorem Writes.outside {i : Instr} {s u : State} (h : Writes i s u) : OutsideKept s u := by
  cases i <;> simp only [Writes] at h
  all_goals simp only [OutsideKept]
  case cfgNet =>
    obtain ⟨_, _, _, rfl⟩ := h
    simp
  case chrEnc =>
    obtain ⟨_, _, _, rfl⟩ := h
    simp [State.setSeq]
  case chrDec =>
    obtain ⟨_, _, _, _, rfl⟩ := h
    simp [State.setSeq]
  case cvt8to5 =>
    obtain ⟨_, rfl⟩ := h
    simp [State.setSeq]
  case cvt5to8 =>
    obtain ⟨_, _, _, rfl⟩ := h
    simp [State.setSeq]
  case accInit =>
    subst h
    simp
  case polyStep =>
    subst h
    simp
  case polyFeedw =>
    obtain ⟨_, rfl⟩ := h
    simp
  case polyFeedc =>
    obtain ⟨_, rfl⟩ := h
    simp
  case polyFinal =>
    subst h
    simp [State.setChecksum]
  case checksum =>
    obtain ⟨_, _, _, _, rfl⟩ := h
    simp [State.setChecksum]
  case frmEnc =>
    obtain ⟨_, _, _, _, rfl⟩ := h
    simp [State.setSeq]
  case frmDec =>
    obtain ⟨_, _, _, _, _, _, rfl⟩ := h
    simp [State.setSeq]
  case vbPack =>
    obtain ⟨_, _, rfl⟩ := h
    simp
  case vbUnpack =>
    obtain ⟨_, rfl⟩ := h
    simp
  case vbEncts =>
    obtain ⟨_, _, _, rfl⟩ := h
    simp
  case vbDects =>
    obtain ⟨_, _, rfl⟩ := h
    simp
  case addrEncraw =>
    obtain ⟨_, _, _, _, rfl⟩ := h
    simp [State.setSeq]
  case addrEnc =>
    obtain ⟨_, _, _, _, _, _, _, rfl⟩ := h
    simp [State.setSeq]
  case addrDecraw =>
    obtain ⟨_, _, _, _, _, rfl⟩ := h
    simp [State.setSeq]
  case addrDec =>
    obtain ⟨_, _, _, _, _, _, _, rfl⟩ := h
    simp [State.setSeq]

/-- Every command answers a next state. -/
theorem exec_next (i : Instr) (s : State) : ∃ t, exec i s = .next t := by
  cases i <;> simp only [exec]
  case cfgNet =>
    simp only [execCfgNet]
    split <;> exact ⟨_, rfl⟩
  all_goals exact conclude_next _ _

/-! ### Canonical forms -/

/-- Both stored forms of `u` are canonical when those of `s` are. -/
def KeepsForms (s u : State) : Prop :=
  (s.mem.wf = true → u.mem.wf = true) ∧ (s.written.wf = true → u.written.wf = true)

theorem KeepsForms.trans {s t u : State} (h : KeepsForms s t) (h' : KeepsForms t u) : KeepsForms s u :=
  ⟨fun hm => h'.1 (h.1 hm), fun hw => h'.2 (h.2 hw)⟩

theorem KeepsForms.setElems (s : State) (b : Buf) (vs : List Byte) : KeepsForms s (s.setElems b vs) :=
  ⟨fun hm => Memory.wf_writeSlots hm _ _, fun hw => OffsetSet.wf_insertSlots hw _ _⟩

theorem KeepsForms.setElem (s : State) (b : Buf) (i : Nat) (v : Byte) : KeepsForms s (s.setElem b i v) :=
  ⟨fun hm => Memory.wf_write hm _ _, fun hw => OffsetSet.wf_insert hw _⟩

theorem KeepsForms.setLen (s : State) (b : Buf) (n : Length) : KeepsForms s (s.setLen b n) := by
  refine ⟨fun hm => by simpa using hm, fun hw => ?_⟩
  cases b <;> first | exact OffsetSet.wf_insert hw _ | exact hw

theorem KeepsForms.setSeq (s : State) (b : Buf) (vs : List Byte) : KeepsForms s (s.setSeq b vs) :=
  (KeepsForms.setElems s b vs).trans (KeepsForms.setLen _ b _)

theorem KeepsForms.storeReg (s : State) (r : Reg) (d : Datum) : KeepsForms s (s.storeReg r d) := by
  refine ⟨fun hm => by simpa using hm, fun hw => ?_⟩
  cases r <;> first | exact hw | exact OffsetSet.wf_insert hw _

theorem KeepsForms.setAcc (s : State) (a : Acc) : KeepsForms s (s.setAcc a) :=
  ⟨fun hm => hm, fun hw => OffsetSet.wf_insert (OffsetSet.wf_insert hw _) _⟩

theorem KeepsForms.setTypebits (s : State) (v : Byte) : KeepsForms s (s.setTypebits v) :=
  ⟨fun hm => hm, fun hw => OffsetSet.wf_insert hw _⟩

theorem KeepsForms.setSizebits (s : State) (v : Byte) : KeepsForms s (s.setSizebits v) :=
  ⟨fun hm => hm, fun hw => OffsetSet.wf_insert hw _⟩

theorem KeepsForms.setVbyte (s : State) (v : Byte) : KeepsForms s (s.setVbyte v) :=
  ⟨fun hm => hm, fun hw => OffsetSet.wf_insert hw _⟩

theorem KeepsForms.setOutType (s : State) (v : Byte) : KeepsForms s (s.setOutType v) :=
  ⟨fun hm => hm, fun hw => OffsetSet.wf_insert hw _⟩

theorem KeepsForms.setSizelen (s : State) (v : Byte) : KeepsForms s (s.setSizelen v) :=
  ⟨fun hm => hm, fun hw => OffsetSet.wf_insert hw _⟩

theorem KeepsForms.setChecksum (s : State) (a : Acc) : KeepsForms s (s.setChecksum a) :=
  (KeepsForms.setAcc s a).trans (KeepsForms.setElems _ _ _)

theorem KeepsForms.raise (s : State) (e : Err) : KeepsForms s (s.raise e) := by
  cases e with
  | checksumMismatch ex => exact KeepsForms.setElems s .exp ex
  | _ => exact ⟨id, id⟩

/-- A command's outputs keep both stored forms canonical. -/
theorem Writes.keepsForms {i : Instr} {s u : State} (h : Writes i s u) : KeepsForms s u := by
  cases i <;> simp only [Writes] at h
  case cfgNet =>
    obtain ⟨_, _, _, rfl⟩ := h
    exact KeepsForms.setElems s .net _
  case chrEnc =>
    obtain ⟨_, _, _, rfl⟩ := h
    exact .setSeq _ _ _
  case chrDec =>
    obtain ⟨_, _, _, _, rfl⟩ := h
    exact .setSeq _ _ _
  case cvt8to5 =>
    obtain ⟨_, rfl⟩ := h
    exact .setSeq _ _ _
  case cvt5to8 =>
    obtain ⟨_, _, _, rfl⟩ := h
    exact .setSeq _ _ _
  case accInit =>
    subst h
    exact .setAcc _ _
  case polyStep =>
    subst h
    exact .setAcc _ _
  case polyFeedw =>
    obtain ⟨_, rfl⟩ := h
    exact .setAcc _ _
  case polyFeedc =>
    obtain ⟨_, rfl⟩ := h
    exact .setAcc _ _
  case polyFinal =>
    subst h
    exact .setChecksum _ _
  case checksum =>
    obtain ⟨_, _, _, _, rfl⟩ := h
    exact .setChecksum _ _
  case frmEnc =>
    obtain ⟨_, _, _, _, rfl⟩ := h
    exact .setSeq _ _ _
  case frmDec =>
    obtain ⟨_, _, _, _, _, _, rfl⟩ := h
    exact (KeepsForms.setSeq _ _ _).trans (.setSeq _ _ _)
  case vbPack =>
    obtain ⟨_, _, rfl⟩ := h
    exact .setVbyte _ _
  case vbUnpack =>
    obtain ⟨_, rfl⟩ := h
    exact (KeepsForms.setTypebits _ _).trans (.setSizebits _ _)
  case vbEncts =>
    obtain ⟨_, _, _, rfl⟩ := h
    exact (KeepsForms.setTypebits _ _).trans (.setSizebits _ _)
  case vbDects =>
    obtain ⟨_, _, rfl⟩ := h
    exact (KeepsForms.setOutType _ _).trans (.setSizelen _ _)
  case addrEncraw =>
    obtain ⟨_, _, _, _, rfl⟩ := h
    exact .setSeq _ _ _
  case addrEnc =>
    obtain ⟨_, _, _, _, _, _, _, rfl⟩ := h
    exact .setSeq _ _ _
  case addrDecraw =>
    obtain ⟨_, _, _, _, _, rfl⟩ := h
    exact ((KeepsForms.setTypebits _ _).trans (.setSizebits _ _)).trans (.setSeq _ _ _)
  case addrDec =>
    obtain ⟨_, _, _, _, _, _, _, rfl⟩ := h
    exact (KeepsForms.setOutType _ _).trans (.setSeq _ _ _)

/-! ### What a frame says of the invariant's parts -/

/-- The stored cells and the written offsets stay within the window's map. -/
theorem Frame.mapped {s u : State} {regs : List Reg} {slots : List Nat} {bs : List Buf} (hk : KeepsForms s u)
    (hi : s.Inv) (hf : Frame regs slots s u) (hs : Fits bs slots) :
    (∀ c ∈ u.mem, ∃ b i, i < Buf.cap b ∧ c.1 = b.slot i) ∧ (∀ o ∈ u.written, (slotAt o).isSome = true) := by
  obtain ⟨_, fm, fw, _⟩ := hf
  constructor
  · intro c hc
    obtain ⟨h1, h2⟩ := Memory.read_of_mem (hk.1 hi.memWf) hc
    by_cases ha : c.1 ∈ slots
    · obtain ⟨b, _, k, hk, he⟩ := hs _ ha
      exact ⟨b, k, hk, he⟩
    · have hr := fm _ ha
      rw [h1] at hr
      obtain ⟨b, i, h3, h4⟩ := hi.memMapped _ (Memory.mem_of_read_ne (a := c.1) (by rw [← hr]; exact h2))
      exact ⟨b, i, h3, h4⟩
  · intro o ho
    rcases (fw o).mp ho with h | h | h
    · exact hi.writtenMapped o h
    · obtain ⟨r, _, rfl⟩ := List.mem_map.mp h
      have hr : slotAt r.offset = some (.reg r) := slotAt_offset (slot := .reg r) rfl
      rw [hr]
      rfl
    · obtain ⟨b, _, k, hk, rfl⟩ := hs _ h
      have hr : slotAt (b.slot k) = some (.elem b k) :=
        slotAt_offset (slot := .elem b k) (by simp [Slot.mapped, hk])
      rw [hr]
      rfl

/-- Elements of a buffer that is none of those written keep their values. -/
theorem Frame.elem_kept {s u : State} {regs : List Reg} {slots : List Nat} {bs : List Buf}
    (hf : Frame regs slots s u) (hs : Fits bs slots) {b : Buf} (hb : b ∉ bs) {i : Nat} (hi : i < b.cap) :
    u.elem b i = s.elem b i := by
  apply hf.2.1
  intro ha
  obtain ⟨c, hc, k, hk, he⟩ := hs _ ha
  exact Buf.slot_ne hi hk (.inl (by rintro rfl; exact hb hc)) he

/-- NET_LEN keeps its value unless it is written. -/
theorem Frame.netLen_kept {s u : State} {regs : List Reg} {slots : List Nat} (hf : Frame regs slots s u)
    (hr : Reg.netLen ∉ regs) : u.netLen = s.netLen := by
  have h := congrArg BitVec.toNat (hf.1 .netLen rfl hr)
  simp only [State.regValue, BitVec.toNat_setWidth] at h
  have hu := u.netLen.isLt
  have hs := s.netLen.isLt
  exact BitVec.eq_of_toNat_eq (by omega)

end Sys2Proof.Machine
end

