-- ==== Sys2Proof/Laws/PerInstr.lean ====
section
/-! SUPPORT. Statements made per command. TableRow: the command word meets its row of spec/opcode_table.json, so its fixed
bits have the row's values. -/

namespace Sys2Proof.Laws.TableRow

/-- The row's mask (spec/opcode_table.json). -/
def mask : Instr → Datum
  | .cfgNet => 0xFFFFFFFF
  | .chrEnc => 0xFFFFFFFF
  | .chrDec => 0xFFFFFFFF
  | .cvt8to5 => 0xFFFFFFFF
  | .cvt5to8 => 0xFFFFFFFF
  | .accInit => 0xFFFFFFFF
  | .polyStep => 0xFFFFFFFF
  | .polyFeedw => 0xFFFFFFFF
  | .polyFeedc => 0xFFFFFFFF
  | .polyFinal => 0xFFFFFFFF
  | .checksum => 0xFFFFFFFF
  | .frmEnc _ => 0xFFFFFEFF
  | .frmDec => 0xFFFFFFFF
  | .vbPack => 0xFFFFFFFF
  | .vbUnpack => 0xFFFFFFFF
  | .vbEncts => 0xFFFFFFFF
  | .vbDects => 0xFFFFFFFF
  | .addrEncraw _ => 0xFFFFFEFF
  | .addrEnc _ => 0xFFFFFEFF
  | .addrDecraw => 0xFFFFFFFF
  | .addrDec => 0xFFFFFFFF

/-- The row's match (spec/opcode_table.json). -/
def pattern : Instr → Datum
  | .cfgNet => 0x00000001
  | .chrEnc => 0x00000010
  | .chrDec => 0x00000011
  | .cvt8to5 => 0x00000018
  | .cvt5to8 => 0x00000019
  | .accInit => 0x00000020
  | .polyStep => 0x00000021
  | .polyFeedw => 0x00000022
  | .polyFeedc => 0x00000023
  | .polyFinal => 0x00000024
  | .checksum => 0x00000028
  | .frmEnc _ => 0x00000030
  | .frmDec => 0x00000031
  | .vbPack => 0x00000038
  | .vbUnpack => 0x00000039
  | .vbEncts => 0x0000003A
  | .vbDects => 0x0000003B
  | .addrEncraw _ => 0x00000040
  | .addrEnc _ => 0x00000041
  | .addrDecraw => 0x00000042
  | .addrDec => 0x00000043

/-- The command word agrees with its row, and the syntax leaves no ill-formed command. -/
def Statement (i : Instr) : Prop := encode i &&& mask i = pattern i ∧ i.wellFormed = true

theorem cfgNet : Statement .cfgNet := ⟨by decide, rfl⟩
theorem chrEnc : Statement .chrEnc := ⟨by decide, rfl⟩
theorem chrDec : Statement .chrDec := ⟨by decide, rfl⟩
theorem cvt8to5 : Statement .cvt8to5 := ⟨by decide, rfl⟩
theorem cvt5to8 : Statement .cvt5to8 := ⟨by decide, rfl⟩
theorem accInit : Statement .accInit := ⟨by decide, rfl⟩
theorem polyStep : Statement .polyStep := ⟨by decide, rfl⟩
theorem polyFeedw : Statement .polyFeedw := ⟨by decide, rfl⟩
theorem polyFeedc : Statement .polyFeedc := ⟨by decide, rfl⟩
theorem polyFinal : Statement .polyFinal := ⟨by decide, rfl⟩
theorem checksum : Statement .checksum := ⟨by decide, rfl⟩
theorem frmEnc (nopfx : Bool) : Statement (.frmEnc nopfx) := by cases nopfx <;> exact ⟨by decide, rfl⟩
theorem frmDec : Statement .frmDec := ⟨by decide, rfl⟩
theorem vbPack : Statement .vbPack := ⟨by decide, rfl⟩
theorem vbUnpack : Statement .vbUnpack := ⟨by decide, rfl⟩
theorem vbEncts : Statement .vbEncts := ⟨by decide, rfl⟩
theorem vbDects : Statement .vbDects := ⟨by decide, rfl⟩
theorem addrEncraw (nopfx : Bool) : Statement (.addrEncraw nopfx) := by cases nopfx <;> exact ⟨by decide, rfl⟩
theorem addrEnc (nopfx : Bool) : Statement (.addrEnc nopfx) := by cases nopfx <;> exact ⟨by decide, rfl⟩
theorem addrDecraw : Statement .addrDecraw := ⟨by decide, rfl⟩
theorem addrDec : Statement .addrDec := ⟨by decide, rfl⟩

end Sys2Proof.Laws.TableRow
end

