-- ==== Sys2Proof/Tests/Slice0.lean ====
section
/-! SUPPORT. Tests: ill-formed terms refused, words decoded as the spec writes them out, at most two one-step tests per
command with results taken from the spec's own vectors (95_test_vectors.md and the examples of the command rules), and
for every statement with hypotheses a witness that meets them. -/

set_option Elab.async false -- kernel computations one after another: fewer threads, less memory

namespace Sys2Proof.Tests
open Sys2Proof.Machine

/-! ### Builders -/

/-- The state after reset with host statements to take. -/
def hosted (hs : List HostStmt) : State := { State.reset with host := hs }

/-- The state after reset with a command pending. -/
def pending (w : Datum) (delay : Nat) (hs : List HostStmt) : State :=
  { State.reset with pend := some { word := w, delay := delay }, host := hs }

/-- A state with the network prefix "p" configured. -/
def ready : State :=
  { State.reset with netValid := true, netLen := 1, mem := [(0x200, 0x70)], written := [0x034, 0x200] }

/-- A text as bytes (00_scope.md R11). -/
def ascii (text : String) : List Byte := text.toList.map fun c => BitVec.ofNat 8 c.toNat

/-- A part of the state a command answers. -/
def answer {α : Type} (o : Host.Outcome State Fault Refusal) (f : State → α) : Option α :=
  match o with
  | .next t => some (f t)
  | .fault _ => none
  | .refused _ => none

/-- ERRCODE and the sequence that a buffer and its length register hold. -/
def result (b : Buf) (t : State) : BitVec 8 × List Byte := (t.errcode, t.input b)

theorem hostNext_of_idle {s : State} (h : s.pend = none) : HostNext s := fun p hp => by simp [h] at hp

theorem hostNext_of_delay {s : State} {p : Pending} (h : s.pend = some p) (hd : p.delay ≠ 0) (hh : s.host ≠ []) :
    HostNext s := fun q hq => by
  rw [h] at hq
  cases hq
  exact ⟨hd, hh⟩

/-! ### Well-formedness: every check refuses an ill-formed term (30_encoding.md R86, R87; 20_memory.md R61, R62) -/

theorem test_wellFormed_refuses_other_widths :
    [Width.w8, .w16, .w64].all (fun w => !(HostStmt.rd w 0x000).wellFormed && !(HostStmt.wr w 0x018 0).wellFormed) := by
  decide

theorem test_wellFormed_refuses_misaligned_offsets :
    [0x001, 0x002, 0x003, 0x102].all (fun o => !(HostStmt.rd .w32 o).wellFormed && !(HostStmt.wr .w32 o 0).wellFormed) := by
  decide

theorem test_wellFormed_refuses_unmapped_offsets :
    [0x048, 0x0FC, 0x540, 0x5FC, 0xC20, 0xC3C, 0xC60, 0xFFC].all (fun o =>
      !(HostStmt.rd .w32 o).wellFormed && !(HostStmt.wr .w32 o 0).wellFormed) := by
  decide

theorem test_wellFormed_refuses_inexpressible : HostStmt.inexpressible.wellFormed = false := by decide

theorem test_wellFormed_accepts_mapped_offsets :
    [0x000, 0x044, 0x100, 0x53C, 0x600, 0xBFC, 0xC00, 0xC1C, 0xC40, 0xC5C].all (fun o =>
      (HostStmt.rd .w32 o).wellFormed && (HostStmt.wr .w32 o 0).wellFormed) := by
  decide

/-- No assembly statement for what the bus cannot carry (R86, R87): an element past a capacity, a load into CKW or EXP,
a character of more than 8 bits. -/
theorem test_assemble_refuses :
    assemble (.wrElem .pfx 64 0) = [.inexpressible] ∧ assemble (.rdElem .bytes 80) = [.inexpressible] ∧
    assemble (.ldb .ckw [1]) = [.inexpressible] ∧ assemble (.lds .exp "a") = [.inexpressible] ∧
    assemble (.lds .pfx "Ā") = [.inexpressible] := by
  decide

/-- R87's bus accesses of LDS and RUN. -/
theorem test_assemble_lds_run :
    assemble (.lds .pfx "p") = [.wr .w32 0x100 0x70, .wr .w32 0x030 1] ∧
    assemble (.run .frmEnc true) = [.wr .w32 0x004 0x130, .wait] := by
  decide

/-- R86: the suffix .NOPFX stands after every mnemonic; on CHR.ENC the word is that of 95_test_vectors.md D-EX3. -/
theorem test_assemble_nopfx :
    assemble (.cmd .chrEnc true) = [.wr .w32 0x004 0x110] ∧ assemble (.run .addrEnc true) = [.wr .w32 0x004 0x141, .wait] ∧
    assemble (.cmd .addrDec false) = [.wr .w32 0x004 0x043] := by
  decide

/-- R87: the hex form of LDB, with the first bytes of a hash of 95_test_vectors.md; an odd digit and no digit. -/
theorem test_assemble_ldb_hex :
    assemble (.ldbHex .hash "76a0") = [.wr .w32 0x300 0x76, .wr .w32 0x304 0xA0, .wr .w32 0x038 2] ∧
    assemble (.ldbHex .hash "76A0") = assemble (.ldb .hash [0x76, 0xA0]) ∧
    assemble (.ldbHex .hash "76a") = [.inexpressible] ∧ assemble (.ldbHex .hash "7g") = [.inexpressible] ∧
    assemble (.ldbHex .ckw "00") = [.inexpressible] := by
  decide

/-! ### Decoding: words written out bit by bit from 30_encoding.md R80 and R83 -/

theorem test_decode_network_and_charset :
    decode 0b00000000000000000000000000000001 = .ok .cfgNet ∧
    decode 0b00000000000000000000000000010000 = .ok .chrEnc ∧
    decode 0b00000000000000000000000000010001 = .ok .chrDec := by decide

theorem test_decode_radix :
    decode 0b00000000000000000000000000011000 = .ok .cvt8to5 ∧
    decode 0b00000000000000000000000000011001 = .ok .cvt5to8 := by decide

theorem test_decode_checksum :
    decode 0b00000000000000000000000000100000 = .ok .accInit ∧
    decode 0b00000000000000000000000000100001 = .ok .polyStep ∧
    decode 0b00000000000000000000000000100010 = .ok .polyFeedw ∧
    decode 0b00000000000000000000000000100011 = .ok .polyFeedc ∧
    decode 0b00000000000000000000000000100100 = .ok .polyFinal ∧
    decode 0b00000000000000000000000000101000 = .ok .checksum := by decide

theorem test_decode_framer :
    decode 0b00000000000000000000000000110000 = .ok (.frmEnc false) ∧
    decode 0b00000000000000000000000100110000 = .ok (.frmEnc true) ∧
    decode 0b00000000000000000000000000110001 = .ok .frmDec := by decide

theorem test_decode_version_byte :
    decode 0b00000000000000000000000000111000 = .ok .vbPack ∧
    decode 0b00000000000000000000000000111001 = .ok .vbUnpack ∧
    decode 0b00000000000000000000000000111010 = .ok .vbEncts ∧
    decode 0b00000000000000000000000000111011 = .ok .vbDects := by decide

theorem test_decode_address :
    decode 0b00000000000000000000000001000000 = .ok (.addrEncraw false) ∧
    decode 0b00000000000000000000000101000000 = .ok (.addrEncraw true) ∧
    decode 0b00000000000000000000000001000001 = .ok (.addrEnc false) ∧
    decode 0b00000000000000000000000101000001 = .ok (.addrEnc true) ∧
    decode 0b00000000000000000000000001000010 = .ok .addrDecraw ∧
    decode 0b00000000000000000000000001000011 = .ok .addrDec := by decide

/-- R84: an opcode outside the table, NOPFX on a command without it, a reserved bit. -/
theorem test_decode_illegal_words :
    decode 0x00000000 = .error .unknownOpcode ∧ decode 0x000000FF = .error .unknownOpcode ∧
    decode 0x00000110 = .error .nopfxNotAllowed ∧ decode 0x00000131 = .error .nopfxNotAllowed ∧
    decode 0x00000230 = .error .reservedBits ∧ decode 0x80000001 = .error .reservedBits := by decide

/-- 20_memory.md R64: lane 0 holds bits [7:0]. -/
theorem test_decodeLanes_little_endian :
    decodeLanes [0x30, 0x01, 0x00, 0x00, 0xAA] = some (.ok (.frmEnc true), [0xAA]) ∧
    decodeLanes [0x30, 0x01, 0x00] = none := by decide

theorem test_decodeTableWord :
    decodeTableWord 32 0x00000130 = some (.frmEnc true) ∧ decodeTableWord 8 0x30 = some (.frmEnc false) ∧
    decodeTableWord 32 0x00000100 = none ∧ decodeTableWord 64 0x30 = none := by decide

/-- 10_state.md R50, 60_exceptions.md R261: POLY.STEP reads ACC, of which nothing has been written. The machine completes
it and sets the mark; the spec's model ends in UNWRITTEN. -/
theorem test_unwritten_read :
    answer (step (pending 0x21 0 [])) (fun t => (t.unwrittenUse, t.pend, t.done)) = some (true, none, true) ∧
    modelStep (pending 0x21 0 []) = .unwritten := by
  decide +kernel

/-- 60_exceptions.md R261: the spec's model never leaves UNWRITTEN, not even by a reset. -/
theorem test_unwritten_is_never_left :
    modelStep { pending 0x21 1 [.reset] with unwrittenUse := true } = .unwritten := rfl

/-- 10_state.md R21: the unused bits of an unwritten OPERAND read as zero. -/
theorem test_unwritten_operand_high_bits :
    answer (step (hosted [.rd .w32 0x018])) (fun t => t.readLog.map fun r => r.value &&& 0xFFFFFF00) = some [0] := by
  show some [Config.draw 0 &&& 0xFF &&& 0xFFFFFF00] = some [0]
  rw [BitVec.and_assoc]
  simp

/-- A command that reads registers runs as the first one after reset. -/
theorem test_withFetchWord_runs_polyStep :
    answer (step (State.reset.withFetchWord 32 0x21)) (fun t => (t.acc, t.done, t.pend)) = some (0, true, none) := by
  decide +kernel

theorem test_withFetchWord_runs_the_word :
    answer (step (State.reset.withFetchWord 32 0x20)) (fun t => (t.acc, t.done, t.pend)) = some (1, true, none) := by
  decide +kernel

/-! ### Commands, one step each; the expected results are the spec's -/

/-- 41_charset.md R102's example. -/
theorem test_chrEnc : answer (exec .chrEnc (State.reset.setSeq .words [0, 1, 2])) (result .str) =
    some (0, ascii "qpz") := by decide +kernel

/-- R102: a word above 31 fails InvalidWord and STR_LEN keeps its value. -/
theorem test_chrEnc_word_32 : answer (exec .chrEnc (State.reset.setSeq .words [31, 32])) (result .str) =
    some (2, []) := by decide +kernel

/-- 41_charset.md R105's example. -/
theorem test_chrDec : answer (exec .chrDec (State.reset.setSeq .str (ascii "l7"))) (result .words) =
    some (0, [31, 30]) := by decide +kernel

/-- R105: decoding is case-sensitive. -/
theorem test_chrDec_uppercase : answer (exec .chrDec (State.reset.setSeq .str (ascii "QP"))) (result .words) =
    some (3, []) := by decide +kernel

/-- 42_radix.md R123's example. -/
theorem test_cvt8to5 : answer (exec .cvt8to5 (State.reset.setSeq .bytes [0xFF])) (result .words) =
    some (0, [31, 28]) := by decide +kernel

/-- 42_radix.md R129's corner cases. -/
theorem test_cvt5to8 : answer (exec .cvt5to8 (State.reset.setSeq .words [31, 28])) (result .bytes) =
    some (0, [0xFF]) := by decide +kernel

theorem test_cvt5to8_leftover_bit : answer (exec .cvt5to8 (State.reset.setSeq .words [31, 29])) (result .bytes) =
    some (4, []) := by decide +kernel

/-- 95_test_vectors.md D-PR1. -/
theorem test_accInit : answer (exec .accInit { State.reset with acc := 0x123456789A }) State.acc = some 1 := by
  decide +kernel

/-- 95_test_vectors.md D-ST11 and D-ST9. -/
theorem test_polyStep : answer (exec .polyStep { State.reset with acc := 0x1234567890 }) State.acc =
    some 0x3F3DA28BE2 := by decide +kernel

theorem test_polyStep_all_generators : answer (exec .polyStep { State.reset with acc := 0xFFFFFFFFFF }) State.acc =
    some 0x5DE5995D7F := by decide +kernel

/-- 95_test_vectors.md D-PR2 and D-PR3. -/
theorem test_polyFeedw : answer (exec .polyFeedw { State.reset with acc := 1, operand := 31 }) State.acc =
    some 0x3F := by decide +kernel

theorem test_polyFeedw_word_32 :
    answer (exec .polyFeedw { State.reset with acc := 1, operand := 32 }) (fun t => (t.errcode, t.err, t.acc)) =
      some (2, true, 1) := by decide +kernel

/-- 95_test_vectors.md D-PR5 and D-PR9. -/
theorem test_polyFeedc : answer (exec .polyFeedc { State.reset with acc := 1, operand := 0x70 }) State.acc =
    some 0x30 := by decide +kernel

theorem test_polyFeedc_uppercase :
    answer (exec .polyFeedc { State.reset with acc := 1, operand := 0x41 }) (fun t => (t.errcode, t.acc)) =
      some (5, 1) := by decide +kernel

/-- 95_test_vectors.md D-PR16. -/
theorem test_polyFinal :
    answer (exec .polyFinal { State.reset with acc := 0x40527DD6FF }) (fun t => (t.acc, t.seq .ckw 8)) =
      some (0x40527DD6FE, [8, 1, 9, 7, 27, 21, 23, 30]) := by decide +kernel

/-- 95_test_vectors.md S3. -/
theorem test_checksum :
    answer (exec .checksum (State.reset.setSeq .pfx (ascii "prefix"))) (fun t => (t.acc, t.seq .ckw 8)) =
      some (0x36AB336AE2, [6, 26, 21, 19, 6, 26, 23, 2]) := by decide +kernel

/-- 95_test_vectors.md S3; 44_framer.md R171: an uppercase prefix is lowercased. -/
theorem test_frmEnc : answer (exec (.frmEnc false) (State.reset.setSeq .pfx (ascii "PREFIX"))) (result .str) =
    some (0, ascii "prefix:x64nx6hz") := by decide +kernel

/-- 95_test_vectors.md S2, without the prefix (44_framer.md R170). -/
theorem test_frmEnc_nopfx : answer (exec (.frmEnc true) (State.reset.setSeq .pfx (ascii "p"))) (result .str) =
    some (0, ascii "gpf8m4h7") := by decide +kernel

/-- 95_test_vectors.md S10. -/
theorem test_frmDec :
    answer (exec .frmDec (State.reset.setSeq .str (ascii "P:GPF8M4H7"))) (fun t => (result .pfx t, t.wordLen)) =
      some ((0, ascii "p"), 0) := by decide +kernel

/-- 95_test_vectors.md S9. -/
theorem test_frmDec_mismatch :
    answer (exec .frmDec (State.reset.setSeq .str (ascii "prefix:x64nx6hx"))) (fun t => (t.errcode, t.seq .exp 8)) =
      some (10, ascii "x64nx6hz") := by decide +kernel

/-- 45_version_byte.md R192's example and corner case. -/
theorem test_vbPack : answer (exec .vbPack { State.reset with typebits := 1, sizebits := 3 }) State.vbyte =
    some 0x0B := by decide +kernel

theorem test_vbPack_order : answer (exec .vbPack { State.reset with typebits := 16, sizebits := 9 }) State.errcode =
    some 13 := by decide +kernel

/-- 45_version_byte.md R193's example and corner case. -/
theorem test_vbUnpack :
    answer (exec .vbUnpack { State.reset with vbyte := 0x0B }) (fun t => (t.typebits, t.sizebits)) = some (1, 3) := by
  decide +kernel

theorem test_vbUnpack_bit7 : answer (exec .vbUnpack { State.reset with vbyte := 0x80 }) State.errcode = some 13 := by
  decide +kernel

/-- 95_test_vectors.md S5; 45_version_byte.md R194: 1000 is no LengthExceeded. -/
theorem test_vbEncts :
    answer (exec .vbEncts { State.reset with outType := 1, hashLen := 32 }) (fun t => (t.typebits, t.sizebits)) =
      some (1, 3) := by decide +kernel

theorem test_vbEncts_length_1000 : answer (exec .vbEncts { State.reset with hashLen := 1000 }) State.errcode =
    some 16 := by decide +kernel

/-- 95_test_vectors.md S5. -/
theorem test_vbDects :
    answer (exec .vbDects { State.reset with typebits := 1, sizebits := 3 }) (fun t => (t.outType, t.sizelen)) =
      some (1, 32) := by decide +kernel

theorem test_vbDects_size_8 : answer (exec .vbDects { State.reset with sizebits := 8 }) State.errcode = some 18 := by
  decide +kernel

/-- 46_address.md R210's example. -/
theorem test_cfgNet :
    answer (exec .cfgNet (State.reset.setSeq .net (ascii "BCHTEST"))) (fun t => (result .net t, t.netValid)) =
      some ((0, ascii "bchtest"), true) := by decide +kernel

/-- 46_address.md R210: mixed case fails InvalidPrefix and clears NET_VALID. -/
theorem test_cfgNet_mixed :
    answer (exec .cfgNet { State.reset.setSeq .net (ascii "aB") with netValid := true })
      (fun t => (result .net t, t.netValid)) = some ((11, ascii "aB"), false) := by decide +kernel

/-- "bitcoincash" configured. -/
def bitcoincash : State := { State.reset.setSeq .net (ascii "bitcoincash") with netValid := true }

/-- The hash of 95_test_vectors.md S8. -/
def hashS8 : List Byte :=
  [0x76, 0xA0, 0x40, 0x53, 0xBD, 0xA0, 0xA8, 0x8B, 0xDA, 0x51] ++
    [0x77, 0xB8, 0x6A, 0x15, 0xC3, 0xB2, 0x9F, 0x55, 0x98, 0x73]

/-- 46_address.md R217's example. -/
theorem test_addrEncraw : answer (exec (.addrEncraw false) bitcoincash) (result .str) =
    some (0, ascii "bitcoincash:qqyq78nf2w") := by decide +kernel

/-- 46_address.md R212. -/
theorem test_addrEncraw_unconfigured : answer (exec (.addrEncraw true) State.reset) State.errcode = some 20 := by
  decide +kernel

/-- 46_address.md R218's example. -/
theorem test_addrEnc : answer (exec (.addrEnc false) (bitcoincash.setSeq .hash hashS8)) (result .str) =
    some (0, ascii "bitcoincash:qpm2qsznhks23z7629mms6s4cwef74vcwvy22gdx6a") := by decide +kernel

/-- 46_address.md R223 on the string of R217's example, its prefix left out (R219). -/
theorem test_addrDecraw :
    answer (exec .addrDecraw (bitcoincash.setSeq .str (ascii "qqyq78nf2w")))
      (fun t => (result .hash t, t.typebits, t.sizebits)) = some ((0, []), 0, 0) := by decide +kernel

/-- 46_address.md R224's example. -/
theorem test_addrDec :
    answer (exec .addrDec (bitcoincash.setSeq .str (ascii "BITCOINCASH:QPM2QSZNHKS23Z7629MMS6S4CWEF74VCWVY22GDX6A")))
      (fun t => (result .hash t, t.outType)) = some ((0, hashS8), 0) := by decide +kernel

/-- 46_address.md R224: no hash at all does not match size code 0. -/
theorem test_addrDec_length_mismatch :
    answer (exec .addrDec (bitcoincash.setSeq .str (ascii "bitcoincash:qqyq78nf2w"))) State.errcode = some 19 := by
  decide +kernel

/-! ### Witnesses: states and operands that meet the hypotheses of each statement together -/

theorem ready_inv : ready.Inv where
  memWf := by decide
  writtenWf := by decide
  memMapped := by
    intro c hc
    rw [List.mem_singleton.mp hc]
    exact ⟨.net, 0, by decide, rfl⟩
  writtenMapped := by decide
  netLower := by decide
  errcodeBound := by decide
  busyClears := by decide
  errNeedsDone := by decide
  errMatchesCode := by decide
  ckwWords := by decide

/-- Loading a buffer other than NET and CKW keeps the invariant. -/
theorem inv_setSeq {s : State} (hs : s.Inv) {b : Buf} {r : Reg} (hr : b.lenReg = some r) (hb : b ≠ .net) (vs : List Byte)
    (hl : vs.length ≤ b.cap) : (s.setSeq b vs).Inv := by
  have hk := KeepsForms.setSeq s b vs
  have hf := Frame.setSeq s hr vs
  have hfit : Fits [b] (slotsOf b vs.length) := fits_slots hl
  have hn : Reg.netLen ∉ [r] := by
    cases b <;> simp [Buf.lenReg] at hr hb <;> subst hr <;> decide
  have hc : Buf.ckw ∉ [b] := by cases b <;> simp [Buf.lenReg] at hr ⊢
  obtain ⟨m1, m2⟩ := Frame.mapped hk hs hf hfit
  refine ⟨hk.1 hs.memWf, hk.2 hs.writtenWf, m1, m2, fun hv => ?_, ?_, ?_, ?_, ?_, fun i hi => ?_⟩
  · have hv' : s.netValid = true := by simpa [State.setSeq] using hv
    obtain ⟨h1, h2, h3⟩ := hs.netLower hv'
    rw [hf.netLen_kept hn]
    refine ⟨h1, h2, fun i hi => ?_⟩
    rw [hf.elem_kept hfit (by simpa using hb.symm) (show i < Buf.net.cap from Nat.lt_of_lt_of_le hi h2)]
    exact h3 i hi
  · simpa [State.setSeq] using hs.errcodeBound
  · simpa [State.setSeq] using hs.busyClears
  · simpa [State.setSeq] using hs.errNeedsDone
  · simpa [State.setSeq] using hs.errMatchesCode
  · rw [hf.elem_kept hfit hc hi]
    exact hs.ckwWords i hi

/-- The frame of a prefix and words, with the right checksum. -/
def frameOf (p ws : List Byte) : List Byte := p ++ sep :: (ws ++ ckWords (checksumValue p ws)).map charAt

theorem frameOf_valid {p ws : List Byte} (h0 : p ≠ []) (hp : ∀ c ∈ p, prefixCharOk c = true)
    (hw : ∀ w ∈ ws, wordOk w = true) : ValidFrame (frameOf p ws) p ws := by
  have hws : ∀ w ∈ ws ++ ckWords (checksumValue p ws), wordOk w = true := by
    intro w hm
    rcases List.mem_append.mp hm with hm | hm
    · exact hw w hm
    · exact ckWords_ok _ w hm
  have hu : ∀ c ∈ frameOf p ws, isUpper c = false := by
    intro c hc
    rcases List.mem_append.mp hc with hc | hc
    · exact prefixCharOk_not_upper (hp c hc)
    · rcases List.mem_cons.mp hc with rfl | hc
      · decide
      · obtain ⟨w, hm, rfl⟩ := List.mem_map.mp hc
        exact (charAt_not_upper (hws w hm)).1
  exact ⟨mixed_of_not_upper hu, lower_of_not_upper hu, h0, hp, hws, by simp⟩

theorem witness_IllegalWordsEndInIllegalCommand :
    ((hosted [.wr .w32 0x004 0x30]).pend = none ∧ (hosted [.wr .w32 0x004 0x30]).host = .wr .w32 0x004 0x30 :: []) ∧
    (EngineNext (pending 0x200 0 []) { word := 0x200, delay := 0 } ∧ ∃ e, decode 0x200 = .error e) :=
  ⟨⟨rfl, rfl⟩, ⟨rfl, .inl rfl⟩, _, rfl⟩

/-- Both ways in which the engine moves next. -/
theorem witness_StepRunsTheDecodedCommand :
    (EngineNext (pending 0x20 0 [.wait]) { word := 0x20, delay := 0 } ∧ decode 0x20 = .ok .accInit) ∧
    (EngineNext (pending 0x20 3 []) { word := 0x20, delay := 3 } ∧ decode 0x20 = .ok .accInit) :=
  ⟨⟨⟨rfl, .inl rfl⟩, rfl⟩, ⟨rfl, .inr rfl⟩, rfl⟩

theorem witness_CmdWriteStartsTheCommand :
    (hosted [.wr .w32 0x004 0x20, .wait]).pend = none ∧
      (hosted [.wr .w32 0x004 0x20, .wait]).host = .wr .w32 0x004 0x20 :: [.wait] :=
  ⟨rfl, rfl⟩

theorem witness_BusyWritesAreLostAndSetOvr :
    ((pending 0x20 1 [.wr .w32 0x018 5]).pend.isSome = true ∧ HostNext (pending 0x20 1 [.wr .w32 0x018 5]) ∧
      slotAt (0x018 : Offset).toNat = some (.reg .operand)) ∧
    ((pending 0x20 1 [.wr .w32 0x008 5]).pend.isSome = true ∧ HostNext (pending 0x20 1 [.wr .w32 0x008 5]) ∧
      slotAt (0x008 : Offset).toNat = some (.reg .status)) ∧
    (let s : State := { State.reset with ovr := true }
     step s = .next s ∧ s.ovr = true ∧ ∀ rest, s.host ≠ .reset :: rest) ∧
    (∃ t, step (pending 0x20 1 [.wr .w32 0x018 5]) = .next t ∧ (pending 0x20 1 [.wr .w32 0x018 5]).ovr = false ∧
      t.ovr = true) :=
  ⟨⟨rfl, hostNext_of_delay rfl (by decide) (by decide), by decide⟩,
    ⟨rfl, hostNext_of_delay rfl (by decide) (by decide), by decide⟩,
    ⟨rfl, rfl, by intro rest h; cases h⟩, _, rfl, rfl, rfl⟩

/-- Busy and exact, busy and not, idle and exact (a control register, a written register), idle and not. -/
theorem witness_HostReadsReturnExactValuesOrDraws :
    (HostNext (pending 0x20 1 [.rd .w32 0x008]) ∧ slotAt (0x008 : Offset).toNat = some (.reg .status)) ∧
    (HostNext (pending 0x20 1 [.rd .w32 0x018]) ∧ slotAt (0x018 : Offset).toNat = some (.reg .operand)) ∧
    (HostNext (hosted [.rd .w32 0x00C]) ∧ slotAt (0x00C : Offset).toNat = some (.reg .errcode)) ∧
    (HostNext { ready with host := [.rd .w32 0x200] } ∧ slotAt (0x200 : Offset).toNat = some (.elem .net 0) ∧
      (Slot.elem .net 0).offset ∈ ready.written) ∧
    (HostNext (hosted [.rd .w32 0xC5C]) ∧ slotAt (0xC5C : Offset).toNat = some (.elem .exp 7) ∧
      (Slot.elem .exp 7).offset ∉ State.reset.written) :=
  ⟨⟨hostNext_of_delay rfl (by decide) (by decide), by decide⟩,
    ⟨hostNext_of_delay rfl (by decide) (by decide), by decide⟩, ⟨hostNext_of_idle rfl, by decide⟩,
    ⟨hostNext_of_idle rfl, by decide, by decide⟩, hostNext_of_idle rfl, by decide, by decide⟩

/-- Boundary offsets on both sides, a width and an alignment that are refused. -/
theorem witness_BusErrorsAreExactlyTheRefusedAccesses :
    HostNext (hosted [.rd .w8 0x000]) ∧ HostNext (hosted [.wr .w32 0x002 0]) ∧ HostNext (hosted [.rd .w32 0x048]) ∧
    HostNext (hosted [.rd .w32 0x0FC]) ∧ HostNext (hosted [.wr .w32 0xC60 0]) ∧ HostNext (hosted [.rd .w32 0x044]) ∧
    HostNext (hosted [.rd .w32 0x100]) ∧ HostNext (hosted [.wr .w32 0xC5C 0]) :=
  ⟨hostNext_of_idle rfl, hostNext_of_idle rfl, hostNext_of_idle rfl, hostNext_of_idle rfl, hostNext_of_idle rfl,
    hostNext_of_idle rfl, hostNext_of_idle rfl, hostNext_of_idle rfl⟩

theorem witness_HostWritesStoreTheUsedBits :
    (ready.pend = none ∧ ready.mem.wf = true ∧ slotAt (0xC00 : Offset).toNat = some (.elem .ckw 0) ∧
      (Slot.elem .ckw 0).readOnly = true) ∧
    (slotAt (0x014 : Offset).toNat = some (.reg .accHi) ∧ (Slot.reg .accHi).readOnly = false) ∧
    (slotAt (0x2FC : Offset).toNat = some (.elem .net 63) ∧ (Slot.elem .net 63).readOnly = false ∧
      ready.netValid = true) := by
  decide

theorem witness_WaitPollsUntilIdleAndIdleHolds :
    HostNext (hosted [.wait]) ∧ HostNext (pending 0x20 2 [.wait]) ∧ State.reset.pend = none ∧ State.reset.host = [] :=
  ⟨hostNext_of_idle rfl, hostNext_of_delay rfl (by decide) (by decide), rfl, rfl⟩

theorem witness_ResetClearsControlState :
    HostNext (pending 0x20 2 [.reset]) ∧ (pending 0x20 2 [.reset]).host = .reset :: [] :=
  ⟨hostNext_of_delay rfl (by decide) (by decide), rfl⟩

theorem witness_StepKeepsTheInvariant :
    (ready.Inv ∧ step ready = .next ready) ∧
    (State.reset.setSeq .words [31]).mem.wf = true ∧ ∃ t, step { ready with host := [.reset] } = .next t :=
  ⟨⟨ready_inv, rfl⟩, by decide, _, rfl⟩

theorem witness_PendingCommandCompletesWithinItsLatency :
    (pending 0x20 3 [.wait, .rd .w32 0x000]).pend = some { word := 0x20, delay := 3 } ∧
      ∀ st ∈ (pending 0x20 3 [.wait, .rd .w32 0x000]).host, st.wellFormed = true := by
  decide

/-- The sequence of 70_reset_and_hazards.md R275. -/
theorem witness_PollingHostKeepsOvrClear :
    let s := hosted [.wr .w32 0x018 1, .wr .w32 0x004 0x22, .rd .w32 0x008, .wait, .rd .w32 0x00C]
    s.ovr = false ∧ obeysPolling s.busy s.host = true ∧ ∃ t, step s = .next t :=
  ⟨rfl, by decide, _, rfl⟩

/-- A command that reads an unwritten register, and one that reads none, each with its step; a host step; a mark that is
set; the three answers of the spec's model. -/
theorem witness_UnwrittenMarkIsExactAndNeverCleared :
    (EngineNext (pending 0x21 0 []) { word := 0x21, delay := 0 } ∧ decode 0x21 = .ok .polyStep ∧
      (∃ t, step (pending 0x21 0 []) = .next t) ∧
      (∃ o ∈ reads .polyStep (pending 0x21 0 []), o ∉ (pending 0x21 0 []).written) ∧
      modelStep (pending 0x21 0 []) = .unwritten) ∧
    (EngineNext (pending 0x20 0 []) { word := 0x20, delay := 0 } ∧ decode 0x20 = .ok .accInit ∧
      reads .accInit (pending 0x20 0 []) = [] ∧
      ∃ t, step (pending 0x20 0 []) = .next t ∧ modelStep (pending 0x20 0 []) = .next t) ∧
    (HostNext (hosted [.wait]) ∧ ∃ t, step (hosted [.wait]) = .next t ∧ modelStep (hosted [.wait]) = .next t) ∧
    (let s : State := { State.reset with unwrittenUse := true }
     s.unwrittenUse = true ∧ step s = .next s ∧ modelStep s = .unwritten) ∧
    modelStep (hosted [.rd .w8 0x000]) = .busErr ∧ modelStep (hosted [.inexpressible]) = .refused :=
  ⟨⟨⟨rfl, .inl rfl⟩, rfl, ⟨_, rfl⟩, ⟨0x010, by decide, by decide⟩, rfl⟩, ⟨⟨rfl, .inl rfl⟩, rfl, rfl, _, rfl, rfl⟩,
    ⟨hostNext_of_idle rfl, _, rfl, rfl⟩, ⟨rfl, rfl, rfl⟩, rfl, rfl⟩

theorem inv_withHost {s : State} (h : s.Inv) (hs : List HostStmt) : ({ s with host := hs } : State).Inv :=
  ⟨h.memWf, h.writtenWf, h.memMapped, h.writtenMapped, h.netLower, h.errcodeBound, h.busyClears, h.errNeedsDone,
    h.errMatchesCode, h.ckwWords⟩

/-- NET_VALID cleared by reset and by a write to NET_LEN; NET_VALID kept. -/
theorem witness_NetValidGuardsTheConfiguredPrefix :
    (({ ready with host := [.reset] } : State).Inv ∧
      ∃ t, step { ready with host := [.reset] } = .next t ∧ t.netValid = false) ∧
    (({ ready with host := [.wr .w32 0x034 2] } : State).Inv ∧
      ∃ t, step { ready with host := [.wr .w32 0x034 2] } = .next t ∧ t.netValid = false) ∧
    (ready.Inv ∧ ready.netValid = true ∧ step ready = .next ready) :=
  ⟨⟨inv_withHost ready_inv _, _, rfl, rfl⟩, ⟨inv_withHost ready_inv _, _, rfl, rfl⟩, ready_inv, rfl, rfl⟩

/-- An ordinary error, an error of CFG.NET, and ChecksumMismatch. -/
theorem witness_ErrorsLeaveEveryOutputAlone :
    answer (exec .polyFeedw { State.reset with operand := 32 }) State.errcode = some 2 ∧
    answer (exec .cfgNet State.reset) State.errcode = some 11 ∧
    answer (exec .frmDec (State.reset.setSeq .str (ascii "p:qqqqqqqq"))) State.errcode = some 10 := by
  decide +kernel

theorem witness_CommandsWriteOnlyTheirOutputs : ready.Inv ∧ ∃ t, exec .accInit ready = .next t :=
  ⟨ready_inv, _, rfl⟩

theorem witness_NoCommandStoresAWordAbove31 :
    (State.reset.setSeq .bytes [0xFF]).mem.wf = true ∧
      ∃ t, exec .cvt8to5 (State.reset.setSeq .bytes [0xFF]) = .next t :=
  ⟨by decide, exec_next _ _⟩

/-- A length one above its buffer's capacity; an output one above its buffer's capacity. -/
theorem witness_InputLengthsAreCheckedFirst :
    (∃ b ∈ checkedInputs .chrEnc, b.cap < State.len { State.reset with wordLen := 129 } b) ∧
    (let s := State.reset.setSeq .str (List.replicate 129 0x71)
     (∀ b ∈ checkedInputs .chrDec, s.len b ≤ b.cap) ∧ ∃ t, exec .chrDec s = .next t ∧ t.errcode = 21) := by
  refine ⟨by decide, ?_⟩
  have hl : (State.reset.setSeq .str (List.replicate 129 0x71)).len .str = 129 := State.len_setSeq _ rfl _ (by simp)
  have hi : (State.reset.setSeq .str (List.replicate 129 0x71)).input .str = List.replicate 129 0x71 :=
    State.input_setSeq (by decide) rfl _ (by simp)
  have hd : charDec (List.replicate 129 0x71) = .ok (List.replicate 129 0) := by decide +kernel
  refine ⟨fun b hb => by rw [show b = .str from List.mem_singleton.mp hb, hl]; decide,
    (State.reset.setSeq .str (List.replicate 129 0x71)).raise .lengthExceeded, ?_, rfl⟩
  have hok : (State.reset.setSeq .str (List.replicate 129 0x71)).lengthOk .str = true := by
    rw [State.lengthOk_iff, hl]
    decide
  have hr : chrDecResult (State.reset.setSeq .str (List.replicate 129 0x71)) = .error .lengthExceeded := by
    rw [chrDecResult, require_bind, if_pos hok, hi, hd, ok_bind, require_bind,
      if_neg (by rw [List.length_replicate]; decide)]
  exact (show ∀ (s : State) (e : Err), chrDecResult s = .error e → exec .chrDec s = .next (s.raise e) from
    fun s e h => congrArg (conclude s) h) _ _ hr

theorem witness_AddressCommandsNeedANetwork :
    (∀ i ∈ [.addrDecraw, .addrDec, .addrEncraw true, .addrEnc false], ∀ b ∈ checkedInputs i,
      State.reset.len b ≤ b.cap) ∧ State.reset.netValid = false := by
  decide

/-- Two states that differ in a register the command does not read. -/
theorem witness_ResultDependsOnlyOnWhatIsRead :
    let t : State := { ready with operand := 7 }
    ready.Inv ∧ t.Inv ∧ AgreeOn (reads .polyStep ready) ready t ∧ ready.netValid = t.netValid ∧
      (∃ u, exec .polyStep ready = .next u) ∧ ∃ u, exec .polyStep t = .next u := by
  refine ⟨ready_inv, ⟨ready_inv.memWf, ready_inv.writtenWf, ready_inv.memMapped, ready_inv.writtenMapped,
    ready_inv.netLower, ready_inv.errcodeBound, ready_inv.busyClears, ready_inv.errNeedsDone, ready_inv.errMatchesCode,
    ready_inv.ckwWords⟩, ?_, rfl, ⟨_, rfl⟩, _, rfl⟩
  intro slot _ ho
  cases slot with
  | elem b i => rfl
  | reg r => cases r <;> first | rfl | exact absurd ho (by decide)

theorem witness_CharsetCodecIsABijection :
    (∀ w ∈ ([0, 31] : List Byte), w.toNat ≤ 31) ∧ ∀ c ∈ ascii "ql", c ∈ charset := by
  decide

theorem witness_ChrEncMapsWordsToCharacters :
    (let s : State := { State.reset with wordLen := 129 }
     s.mem.wf = true ∧ 128 < s.wordLen.toNat) ∧
    (let s := State.reset.setSeq .words [32]
     s.mem.wf = true ∧ s.wordLen.toNat ≤ 128 ∧ ∃ k < s.wordLen.toNat, 31 < (s.elem .words k).toNat) ∧
    (let s := State.reset.setSeq .words [31, 0]
     s.mem.wf = true ∧ s.wordLen.toNat ≤ 128 ∧ ∀ k < s.wordLen.toNat, (s.elem .words k).toNat ≤ 31) := by
  decide +kernel

theorem witness_ChrDecMapsCharactersToWords :
    (256 < ({ State.reset with strLen := 257 } : State).strLen.toNat) ∧
    (let s := State.reset.setSeq .str (ascii "q1")
     s.mem.wf = true ∧ s.strLen.toNat ≤ 256 ∧ ∃ k < s.strLen.toNat, s.elem .str k ∉ charset) ∧
    (let s := State.reset.setSeq .str (ascii "ql")
     s.mem.wf = true ∧ s.strLen.toNat ≤ 128 ∧ ∀ k < s.strLen.toNat, s.elem .str k ∈ charset) := by
  decide +kernel

/-- 129 alphabet characters: more than WORDS holds. -/
theorem witness_ChrDecMapsCharactersToWords_output :
    let s := State.reset.setSeq .str (List.replicate 129 0x71)
    s.mem.wf = true ∧ s.strLen.toNat ≤ 256 ∧ 128 < s.strLen.toNat ∧ ∀ k < s.strLen.toNat, s.elem .str k ∈ charset := by
  have h : (State.reset.setSeq .str (List.replicate 129 0x71)).len .str = (List.replicate 129 (0x71 : Byte)).length :=
    State.len_setSeq _ rfl _ (by simp)
  have hl : (State.reset.setSeq .str (List.replicate 129 0x71)).strLen.toNat = 129 := h.trans (List.length_replicate ..)
  refine ⟨(KeepsForms.setSeq State.reset .str _).1 rfl, by rw [hl]; decide, by rw [hl]; decide, fun k hk => ?_⟩
  rw [hl] at hk
  rw [State.setSeq, State.setLen_elem, State.elem_setElems_at (by decide) _ _ _ (by simpa using hk),
    List.getElem_replicate]
  exact (by decide : (0x71 : Byte) ∈ charset)

theorem witness_WordsToBytesAcceptsExactlyZeroPadding :
    w2b [32] = .error .invalidWord ∧ w2b [31, 29] = .error .invalidPadding := by
  decide

theorem witness_RadixConversionsRoundTrip : w2b [31, 28] = .ok [0xFF] := by decide

theorem witness_Cvt8to5ConvertsBytes :
    80 < ({ State.reset with byteLen := 81 } : State).byteLen.toNat ∧
    ({ State.reset with byteLen := 80 } : State).byteLen.toNat ≤ 80 ∧ State.reset.mem.wf = true := by
  decide

/-- Each error clause, and a conversion. -/
theorem witness_Cvt5to8ConvertsWords :
    128 < ({ State.reset with wordLen := 129 } : State).wordLen.toNat ∧
    (let s := State.reset.setSeq .words [32]
     s.mem.wf = true ∧ s.wordLen.toNat ≤ 128 ∧ ∃ k < s.wordLen.toNat, 31 < (s.elem .words k).toNat) ∧
    (let s := State.reset.setSeq .words [31]
     (∀ k < s.wordLen.toNat, (s.elem .words k).toNat ≤ 31) ∧ s.wordLen.toNat % 8 ∈ [1, 3, 6]) ∧
    (let s := State.reset.setSeq .words [31, 29]
     (∀ k < s.wordLen.toNat, (s.elem .words k).toNat ≤ 31) ∧
       w2b (s.seq .words s.wordLen.toNat) = .error .invalidPadding) ∧
    (let s := State.reset.setSeq .words [31, 28]
     (∀ k < s.wordLen.toNat, (s.elem .words k).toNat ≤ 31) ∧ w2b (s.seq .words s.wordLen.toNat) = .ok [0xFF]) := by
  decide +kernel

theorem witness_StepIsABijection : polyStep 5 = polyStep 5 ∧ (5 : Acc) ≠ 0 := by decide

theorem witness_PolyFinalSplitsTheAccumulator : State.reset.mem.wf = true := rfl

theorem witness_PolyFeedwAbsorbsAWord :
    31 < ({ State.reset with operand := 32 } : State).operand.toNat ∧
      ({ State.reset with operand := 31 } : State).operand.toNat ≤ 31 := by
  decide

/-- The boundaries of 10_state.md R48's `PrefixCharOK`. -/
theorem witness_PolyFeedcAbsorbsACharacter :
    (∀ n ∈ ([32, 127, 0x41, 0x5A] : List Byte),
      n.toNat < 33 ∨ 126 < n.toNat ∨ (0x41 ≤ n.toNat ∧ n.toNat ≤ 0x5A)) ∧
    (∀ n ∈ ([33, 126, 0x40, 0x5B] : List Byte),
      33 ≤ n.toNat ∧ n.toNat ≤ 126 ∧ (n.toNat < 0x41 ∨ 0x5A < n.toNat)) := by
  decide

/-- Each length, a bad prefix character, a bad word, and a good pair. -/
theorem witness_ChecksumCommandComputesTheChecksum :
    64 < ({ State.reset with pfxLen := 65 } : State).pfxLen.toNat ∧
    128 < ({ State.reset with wordLen := 129 } : State).wordLen.toNat ∧
    (let s := State.reset.setSeq .pfx (ascii "A")
     s.mem.wf = true ∧ s.pfxLen.toNat ≤ 64 ∧ s.wordLen.toNat ≤ 128 ∧
       ∃ k < s.pfxLen.toNat, prefixCharOk (s.elem .pfx k) = false) ∧
    (let s := (State.reset.setSeq .pfx (ascii "p")).setSeq .words [32]
     s.mem.wf = true ∧ (∀ k < s.pfxLen.toNat, prefixCharOk (s.elem .pfx k) = true) ∧
       ∃ k < s.wordLen.toNat, 31 < (s.elem .words k).toNat) ∧
    (let s := (State.reset.setSeq .pfx (ascii "p")).setSeq .words [31]
     s.mem.wf = true ∧ (∀ k < s.pfxLen.toNat, prefixCharOk (s.elem .pfx k) = true) ∧
       ∀ k < s.wordLen.toNat, (s.elem .words k).toNat ≤ 31) := by
  decide +kernel

theorem witness_PrimitivesComputeTheChecksum :
    let s := (State.reset.setSeq .pfx (ascii "p")).setSeq .words [31]
    s.mem.wf = true ∧ s.pfxLen.toNat ≤ 64 ∧ s.wordLen.toNat ≤ 128 ∧
      (∀ k < s.pfxLen.toNat, prefixCharOk (s.elem .pfx k) = true) ∧
      ∀ k < s.wordLen.toNat, (s.elem .words k).toNat ≤ 31 := by
  decide +kernel

theorem witness_ChecksumSeesOnlyFiveBitsOfThePrefix :
    (ascii "prefix").length = (ascii "pre&ix").length ∧
    (∀ c ∈ ascii "prefix" ++ ascii "pre&ix", prefixCharOk c = true) ∧
    (ascii "prefix").map (fun c => c.toNat % 32) = (ascii "pre&ix").map (fun c => c.toNat % 32) := by
  decide +kernel

/-- A character of the checksum and a character of a data word, each substituted. -/
theorem witness_SingleSubstitutionIsDetected :
    (let str := ascii "p:gpf8m4h7"
     frameDec str = .ok (ascii "p", []) ∧ lastSep str = some 1 ∧ 1 < 9 ∧ str[9]? = some 0x37 ∧ lowerC 0x71 ∈ charset ∧
       lowerC 0x71 ≠ lowerC 0x37 ∧ mixed (str.set 9 0x71) = false) ∧
    (let str := frameOf (ascii "p") [0]
     frameDec str = .ok (ascii "p", [0]) ∧ lastSep str = some 1 ∧ 1 < 2 ∧ str[2]? = some 0x71 ∧ lowerC 0x70 ∈ charset ∧
       lowerC 0x70 ≠ lowerC 0x71 ∧ mixed (str.set 2 0x70) = false) := by
  decide +kernel

/-- Each error clause in order, and a frame. -/
theorem witness_FrmEncFramesPrefixAndWords :
    64 < ({ State.reset with pfxLen := 65 } : State).pfxLen.toNat ∧
    128 < ({ State.reset with wordLen := 129 } : State).wordLen.toNat ∧
    (State.reset.mem.wf = true ∧ State.reset.pfxLen = 0 ∧ State.reset.wordLen.toNat ≤ 128) ∧
    (let s := State.reset.setSeq .pfx (ascii " ")
     s.mem.wf = true ∧ s.pfxLen ≠ 0 ∧ ∃ k < s.pfxLen.toNat, prefixCharOk (lowerC (s.elem .pfx k)) = false) ∧
    (let s := (State.reset.setSeq .pfx (ascii "P")).setSeq .words [32]
     s.mem.wf = true ∧ s.pfxLen ≠ 0 ∧ (∀ k < s.pfxLen.toNat, prefixCharOk (lowerC (s.elem .pfx k)) = true) ∧
       ∃ k < s.wordLen.toNat, 31 < (s.elem .words k).toNat) ∧
    (let s := (State.reset.setSeq .pfx (ascii "P")).setSeq .words [31]
     s.mem.wf = true ∧ s.pfxLen ≠ 0 ∧ (∀ k < s.pfxLen.toNat, prefixCharOk (lowerC (s.elem .pfx k)) = true) ∧
       ∀ k < s.wordLen.toNat, (s.elem .words k).toNat ≤ 31) := by
  decide +kernel

/-- A string that is too long, an error of `FrameDec`, wrong checksum words, right ones. -/
theorem witness_FrmDecReadsFrames :
    256 < ({ State.reset with strLen := 257 } : State).strLen.toNat ∧
    (frameDec (State.reset.input .str) = .error .missingSeparator ∧ Err.code .missingSeparator ≠ 10) ∧
    (let str := ascii "p:qqqqqqqq"
     Framed str (ascii "p") [] (List.replicate 8 0) ∧ List.replicate 8 0 ≠ ckWords (checksumValue (ascii "p") [])) ∧
    (let s := State.reset.setSeq .str (frameOf (ascii "p") [31])
     s.mem.wf = true ∧ s.strLen.toNat ≤ 256 ∧
       Framed (s.input .str) (ascii "p") [31] (ckWords (checksumValue (ascii "p") [31]))) := by
  refine ⟨by decide, by decide, ⟨⟨by decide, by decide, by decide, by decide, by decide, by decide⟩, by decide +kernel⟩,
    by decide +kernel, by decide +kernel, ?_⟩
  rw [State.input_setSeq (by decide) rfl _ (by decide +kernel)]
  exact frameOf_valid (by decide) (by decide) (by decide)

/-- Valid frames whose prefix, or whose words, do not fit their buffer. -/
theorem witness_FrmDecReadsFrames_output :
    (let p := List.replicate 65 (0x61 : Byte)
     ValidFrame (frameOf p []) p [] ∧ 64 < p.length ∧ (frameOf p []).length ≤ 256) ∧
    (let ws := List.replicate 129 (0 : Byte)
     ValidFrame (frameOf (ascii "p") ws) (ascii "p") ws ∧ 128 < ws.length ∧ (frameOf (ascii "p") ws).length ≤ 256) := by
  refine ⟨⟨frameOf_valid (by simp) (fun c hc => ?_) (by simp), by simp, by simp [frameOf]⟩,
    frameOf_valid (by decide) (by decide) (fun w hw => ?_), by simp, by simp [frameOf, ascii]⟩
  · rw [List.eq_of_mem_replicate hc]
    decide
  · rw [List.eq_of_mem_replicate hw]
    decide

/-- One string per clause. -/
theorem witness_FrameDecErrorOrder :
    mixed (ascii "aB:") = true ∧ (mixed (ascii "ab") = false ∧ sep ∉ ascii "ab") ∧
    (∀ pq ∈ [(ascii "", ascii "qqqqqqqq"), (ascii "p", ascii "qqqqqqq"), (ascii "p", ascii "qqqqqqq1"),
        (ascii "p q", ascii "qqqqqqqq"), (ascii "p:q", ascii "qqqqqqqq")],
      let str := pq.1 ++ sep :: pq.2
      mixed str = false ∧ lower str = pq.1 ++ sep :: pq.2 ∧ sep ∉ pq.2) ∧
    (ascii "qqqqqqq").length < 8 ∧ (∃ c ∈ ascii "qqqqqqq1", c ∉ charset) ∧
    (∃ c ∈ ascii "p q", prefixCharOk c = false) ∧ (∀ c ∈ ascii "p:q", prefixCharOk c = true) := by
  decide +kernel

theorem witness_FramesRoundTrip :
    frameEnc (ascii "P") [] true = .ok (ascii "p:gpf8m4h7") ∧ frameDec (ascii "p:gpf8m4h7") = .ok (ascii "p", []) := by
  decide +kernel

theorem witness_FrameDecIgnoresCase : mixed (ascii "p:gpf8m4h7") = false ∧ mixed (ascii "P:GPF8M4H7") = false := by
  decide +kernel

theorem witness_VersionBytePacksAndUnpacks :
    15 < ({ State.reset with typebits := 16 } : State).typebits.toNat ∧
    (let s : State := { State.reset with typebits := 15, sizebits := 8 }
     s.typebits.toNat ≤ 15 ∧ 7 < s.sizebits.toNat) ∧
    (let s : State := { State.reset with typebits := 15, sizebits := 7 }
     s.typebits.toNat ≤ 15 ∧ s.sizebits.toNat ≤ 7) ∧
    128 ≤ ({ State.reset with vbyte := 128 } : State).vbyte.toNat ∧
    ({ State.reset with vbyte := 127 } : State).vbyte.toNat < 128 := by
  decide

theorem witness_TypeAndSizeCodesMap :
    1 < ({ State.reset with outType := 2 } : State).outType.toNat ∧
    (let s : State := { State.reset with outType := 1, hashLen := 65 }
     s.outType.toNat ≤ 1 ∧ s.hashLen.toNat ∉ [20, 24, 28, 32, 40, 48, 56, 64]) ∧
    (let s : State := { State.reset with outType := 1, hashLen := 64 }
     s.outType.toNat ≤ 1 ∧ [20, 24, 28, 32, 40, 48, 56, 64][7]? = some s.hashLen.toNat) ∧
    1 < ({ State.reset with typebits := 2 } : State).typebits.toNat ∧
    (let s : State := { State.reset with typebits := 1, sizebits := 8 }
     s.typebits.toNat ≤ 1 ∧ 7 < s.sizebits.toNat) ∧
    (let s : State := { State.reset with typebits := 1, sizebits := 7 }
     s.typebits.toNat ≤ 1 ∧ s.sizebits.toNat ≤ 7) := by
  decide

theorem witness_VersionByteCommandsRoundTrip :
    (let s : State := { State.reset with typebits := 15, sizebits := 7 }
     s.typebits.toNat ≤ 15 ∧ s.sizebits.toNat ≤ 7) ∧
    ({ State.reset with vbyte := 127 } : State).vbyte.toNat < 128 ∧
    (let s : State := { State.reset with outType := 1, hashLen := 64 }
     s.outType.toNat ≤ 1 ∧ s.hashLen.toNat ∈ [20, 24, 28, 32, 40, 48, 56, 64]) ∧
    ∀ t : State, (let v : State := { State.reset with vbyte := t.vbyte, sizebits := 3 }; v.vbyte = t.vbyte) ∧
      (let v : State := { State.reset with typebits := t.typebits, sizebits := t.sizebits, outType := 9 }
       v.typebits = t.typebits ∧ v.sizebits = t.sizebits) :=
  ⟨by decide, by decide, by decide, fun _ => ⟨rfl, rfl, rfl⟩⟩

theorem witness_CfgNetValidatesAndLowercases :
    64 < ({ State.reset with netLen := 65 } : State).netLen.toNat ∧ State.reset.netLen = 0 ∧
    (let s := State.reset.setSeq .net (ascii "aB")
     s.mem.wf = true ∧ s.netLen.toNat ≤ 64 ∧ mixed (s.input .net) = true) ∧
    (let s := State.reset.setSeq .net (ascii "AB")
     s.mem.wf = true ∧ s.netLen ≠ 0 ∧ s.netLen.toNat ≤ 64 ∧ mixed (s.input .net) = false) := by
  decide +kernel

/-- The prefix "p" configured, with other data registers. -/
def readyWith (tb sb ty : Byte) (hashLen : Length) : State :=
  { ready with typebits := tb, sizebits := sb, outType := ty, hashLen := hashLen }

theorem readyWith_inv (tb sb ty : Byte) (n : Length) : (readyWith tb sb ty n).Inv :=
  ⟨ready_inv.memWf, ready_inv.writtenWf, ready_inv.memMapped, ready_inv.writtenMapped, ready_inv.netLower,
    ready_inv.errcodeBound, ready_inv.busyClears, ready_inv.errNeedsDone, ready_inv.errMatchesCode, ready_inv.ckwWords⟩

/-- A network prefix that CFG.NET accepts and the framer does not (46_address.md R213): a space. -/
def readySpace : State := { ready with mem := [(0x200, 0x20)], hashLen := 20 }

theorem readySpace_inv : readySpace.Inv where
  memWf := by decide
  writtenWf := by decide
  memMapped := by
    intro c hc
    rw [List.mem_singleton.mp hc]
    exact ⟨.net, 0, by decide, rfl⟩
  writtenMapped := by decide
  netLower := by decide
  errcodeBound := by decide
  busyClears := by decide
  errNeedsDone := by decide
  errMatchesCode := by decide
  ckwWords := by decide

theorem witness_AddrEncrawBuildsTheAddress :
    ((readyWith 0 0 0 65).Inv ∧ 64 < (readyWith 0 0 0 65).hashLen.toNat) ∧
    (({ ready with netValid := false } : State).hashLen.toNat ≤ 64) ∧
    ((readyWith 16 0 0 64).Inv ∧ (readyWith 16 0 0 64).netValid = true ∧ (readyWith 16 0 0 64).hashLen.toNat ≤ 64 ∧
      15 < (readyWith 16 0 0 64).typebits.toNat) ∧
    ((readyWith 15 8 0 0).Inv ∧ (readyWith 15 8 0 0).typebits.toNat ≤ 15 ∧ 7 < (readyWith 15 8 0 0).sizebits.toNat) ∧
    (readySpace.Inv ∧ readySpace.netValid = true ∧
      ∃ k < readySpace.netLen.toNat, prefixCharOk (readySpace.elem .net k) = false) ∧
    ((readyWith 15 7 0 64).Inv ∧
      ∀ k < (readyWith 15 7 0 64).netLen.toNat, prefixCharOk ((readyWith 15 7 0 64).elem .net k) = true) :=
  ⟨⟨readyWith_inv _ _ _ _, by decide⟩, by decide, ⟨readyWith_inv _ _ _ _, by decide, by decide, by decide⟩,
    ⟨readyWith_inv _ _ _ _, by decide, by decide⟩, ⟨readySpace_inv, rfl, by decide⟩, readyWith_inv _ _ _ _, by decide⟩

/-- An invariant state without a configured network. -/
theorem inv_without_network :
    let s : State := { ready with netValid := false }
    s.Inv ∧ s.netValid = false ∧ s.hashLen.toNat ≤ 64 ∧ s.strLen.toNat ≤ 256 := by
  exact ⟨{ ready_inv with netLower := fun h => by cases h }, rfl, by decide, by decide⟩

theorem witness_AddrEncBuildsTheAddress :
    ((readyWith 0 0 2 0).Inv ∧ 1 < (readyWith 0 0 2 0).outType.toNat) ∧
    ((readyWith 0 0 1 63).Inv ∧ (readyWith 0 0 1 63).outType.toNat ≤ 1 ∧
      (readyWith 0 0 1 63).hashLen.toNat ∉ [20, 24, 28, 32, 40, 48, 56, 64]) ∧
    (readySpace.Inv ∧ [20, 24, 28, 32, 40, 48, 56, 64][0]? = some readySpace.hashLen.toNat ∧
      ∃ j < readySpace.netLen.toNat, prefixCharOk (readySpace.elem .net j) = false) ∧
    ((readyWith 0 0 1 64).Inv ∧ (readyWith 0 0 1 64).netValid = true ∧
      [20, 24, 28, 32, 40, 48, 56, 64][7]? = some (readyWith 0 0 1 64).hashLen.toNat ∧
      ∀ j < (readyWith 0 0 1 64).netLen.toNat, prefixCharOk ((readyWith 0 0 1 64).elem .net j) = true) :=
  ⟨⟨readyWith_inv _ _ _ _, by decide⟩, ⟨readyWith_inv _ _ _ _, by decide, by decide⟩,
    ⟨readySpace_inv, by decide, by decide⟩, readyWith_inv _ _ _ _, rfl, by decide, by decide⟩

/-- A frame of any prefix and words, loaded into STR of `ready`, is what the address commands decode. -/
theorem ready_frame {p ws : List Byte} (h0 : p ≠ []) (hp : ∀ c ∈ p, prefixCharOk c = true)
    (hw : ∀ w ∈ ws, wordOk w = true) (hl : p.length + 1 + ws.length + 8 ≤ 256) :
    let s := ready.setSeq .str (frameOf p ws)
    s.Inv ∧ s.netValid = true ∧ s.strLen.toNat ≤ 256 ∧ ValidFrame s.addressInput p ws := by
  have hlen : (frameOf p ws).length = p.length + 1 + ws.length + 8 := (frameOf_valid h0 hp hw).length
  have hi : (ready.setSeq .str (frameOf p ws)).input .str = frameOf p ws :=
    State.input_setSeq (by decide) rfl _ (by omega)
  refine ⟨inv_setSeq ready_inv rfl (by decide) _ (by rw [hlen]; exact hl), rfl, ?_, ?_⟩
  · have h : (ready.setSeq .str (frameOf p ws)).strLen.toNat = (frameOf p ws).length :=
      State.len_setSeq ready (b := .str) rfl _ (by omega)
    omega
  · have hs : (frameOf p ws).contains sep = true := by simp [frameOf]
    rw [State.addressInput, hi, withImplicitPrefix, if_pos hs]
    exact frameOf_valid h0 hp hw

/-- The words of each clause convert as the clause says. -/
theorem witness_address_payloads :
    w2b [0] = .error .invalidPadding ∧ w2b [16, 0] = .ok [0x80] ∧ w2b [2, 0] = .ok [0x10] ∧ w2b [0, 0] = .ok [0] ∧
    w2b (List.replicate 106 0) = .ok (0 :: List.replicate 65 0) ∧
    w2b (List.replicate 34 0) = .ok (0 :: List.replicate 20 0) := by
  decide +kernel

theorem ready_input_net : ready.input .net = ascii "p" := by decide

/-- ADDR.DECRAW and ADDR.DEC: no network, an error of `FrameDec`, wrong checksum words, another prefix, and every payload
of `witness_address_payloads` in a valid frame of the network's prefix. -/
theorem witness_AddrDecrawReadsAddresses :
    (256 < ({ State.reset with strLen := 257 } : State).strLen.toNat) ∧
    (frameDec ready.addressInput = .error .payloadTooShort ∧ Err.code .payloadTooShort ≠ 10 ∧ ready.netValid = true) ∧
    (let s := ready.setSeq .str (ascii "qqqqqqqq")
     Framed s.addressInput (ascii "p") [] (List.replicate 8 0) ∧
       List.replicate 8 0 ≠ ckWords (checksumValue (ascii "p") [])) ∧
    (ValidFrame (ready.setSeq .str (frameOf (ascii "q") [])).addressInput (ascii "q") [] ∧
      ascii "q" ≠ ready.input .net) ∧
    (∀ ws ∈ [[], [0], [16, 0], [2, 0], [0, 0], List.replicate 106 0, List.replicate 34 0],
      ValidFrame (ready.setSeq .str (frameOf (ascii "p") ws)).addressInput (ascii "p") ws) := by
  refine ⟨by decide, ⟨by decide +kernel, by decide, rfl⟩,
    ⟨⟨by decide +kernel, by decide +kernel, by decide, by decide, by decide, by decide⟩, by decide +kernel⟩,
    ⟨(ready_frame (by decide) (by decide) (by simp) (by decide)).2.2.2, by decide⟩, fun ws hws => ?_⟩
  have hall : [[], [0], [16, 0], [2, 0], [0, 0], List.replicate 106 0, List.replicate 34 0].all
      (fun ws => ws.all wordOk && decide (ws.length ≤ 106)) = true := by decide +kernel
  have h := List.all_eq_true.mp hall ws hws
  simp only [Bool.and_eq_true, List.all_eq_true, decide_eq_true_eq] at h
  exact (ready_frame (by decide) (by decide) h.1 (by simp [ascii]; omega)).2.2.2

/-- The state of the last clause, for ADDR.DEC: 20 hash bytes with size code 0. -/
theorem witness_AddrDecReadsAddresses :
    let s := ready.setSeq .str (frameOf (ascii "p") (List.replicate 34 0))
    s.Inv ∧ s.netValid = true ∧ s.strLen.toNat ≤ 256 ∧ ValidFrame s.addressInput (ascii "p") (List.replicate 34 0) ∧
      [20, 24, 28, 32, 40, 48, 56, 64][(0 : Byte).toNat % 8]? = some (List.replicate 20 (0 : Byte)).length :=
  have h := ready_frame (p := ascii "p") (ws := List.replicate 34 0) (by decide) (by decide) (by decide) (by decide)
  ⟨h.1, h.2.1, h.2.2.1, h.2.2.2, by decide⟩

theorem witness_AddressesRoundTrip :
    (readyWith 0 0 1 20).Inv ∧ (readyWith 0 0 1 20).netValid = true ∧
    (∀ k < (readyWith 0 0 1 20).netLen.toNat, prefixCharOk ((readyWith 0 0 1 20).elem .net k) = true) ∧
    (readyWith 0 0 1 20).outType.toNat ≤ 1 ∧
    (readyWith 0 0 1 20).hashLen.toNat ∈ [20, 24, 28, 32, 40, 48, 56, 64] ∧
    answer (exec (.addrEnc false) (readyWith 0 0 1 20)) (fun t => (t.mem.wf, t.netValid)) = some (true, true) ∧
    ∀ t : State, t.mem.wf = true → t.netValid = true →
      let v : State := { t with outType := 7, hashLen := 3 }
      v.mem.wf = true ∧ v.netValid = true ∧ v.netLen = t.netLen ∧ v.strLen = t.strLen ∧
        (∀ k < t.netLen.toNat, v.elem .net k = t.elem .net k) ∧ ∀ k < t.strLen.toNat, v.elem .str k = t.elem .str k :=
  ⟨readyWith_inv _ _ _ _, rfl, by decide, by decide, by decide, by decide +kernel,
    fun _ hm hn => ⟨hm, hn, rfl, rfl, fun _ _ => rfl, fun _ _ => rfl⟩⟩

theorem witness_UppercaseWithoutPrefixFailsMixedCase :
    let s := ready.setSeq .str (ascii "Q")
    s.Inv ∧ s.netValid = true ∧ s.strLen.toNat ≤ 256 ∧ sep ∉ s.input .str ∧ (∃ c ∈ s.input .str, isUpper c = true) ∧
      ∃ c ∈ s.input .net, isLowerLetter c = true :=
  ⟨inv_setSeq ready_inv rfl (by decide) _ (by decide), rfl, by decide, by decide, by decide, by decide⟩

end Sys2Proof.Tests
end

section
/-! PROOFS (00_scope.md). O26: a command is a function of what it reads. Two runs of one command are compared stage by
stage: its checks and computed values agree because what they read agrees, and its writes then put the same values at
the same places. -/

namespace Sys2Proof.Machine

/-! ### Two states written alike -/

/-- `u` and `v` come from `s` and `t` by writing the same values at the same places, and agree on NET_VALID. -/
structure SameWrites (s t u v : State) : Prop where
  memWf : u.mem.wf = true ∧ v.mem.wf = true
  netValid : u.netValid = v.netValid
  reg : ∀ r, r.isData = true →
    u.regValue r = v.regValue r ∨ u.regValue r = s.regValue r ∧ v.regValue r = t.regValue r
  byte : ∀ a, u.mem.read a = v.mem.read a ∨ u.mem.read a = s.mem.read a ∧ v.mem.read a = t.mem.read a

theorem SameWrites.refl {s t : State} (hs : s.Inv) (ht : t.Inv) (hn : s.netValid = t.netValid) :
    SameWrites s t s t :=
  ⟨⟨hs.memWf, ht.memWf⟩, hn, fun _ _ => .inr ⟨rfl, rfl⟩, fun _ => .inr ⟨rfl, rfl⟩⟩

section
variable {s t u v : State} (h : SameWrites s t u v)
include h

/-- Two further writes with one frame keep the states alike if they agree on all that the frame lets change. -/
theorem SameWrites.frame {u' v' : State} {regs : List Reg} {slots : List Nat} (fu : Frame regs slots u u')
    (fv : Frame regs slots v v') (ku : KeepsForms u u') (kv : KeepsForms v v') (hn : u'.netValid = v'.netValid)
    (hr : ∀ r ∈ regs, u'.regValue r = v'.regValue r) (hb : ∀ a ∈ slots, u'.mem.read a = v'.mem.read a) :
    SameWrites s t u' v' := by
  obtain ⟨ru, bu, _, _⟩ := fu
  obtain ⟨rv, bv, _, _⟩ := fv
  refine ⟨⟨ku.1 h.memWf.1, kv.1 h.memWf.2⟩, hn, fun r hd => ?_, fun a => ?_⟩
  · by_cases hm : r ∈ regs
    · exact .inl (hr r hm)
    · rw [ru r hd hm, rv r hd hm]
      exact h.reg r hd
  · by_cases hm : a ∈ slots
    · exact .inl (hb a hm)
    · rw [bu a hm, bv a hm]
      exact h.byte a

theorem SameWrites.setElems (b : Buf) (vs : List Byte) : SameWrites s t (u.setElems b vs) (v.setElems b vs) := by
  refine h.frame (.setElems u b vs) (.setElems v b vs) (.setElems u b vs) (.setElems v b vs) h.netValid (by simp) ?_
  intro a ha
  obtain ⟨k, hk, rfl⟩ := List.mem_map.mp ha
  have hk := List.mem_range.mp hk
  exact (State.elem_setElems_at h.memWf.1 b vs k hk).trans (State.elem_setElems_at h.memWf.2 b vs k hk).symm

theorem SameWrites.setLen {b : Buf} {r : Reg} (hr : b.lenReg = some r) (n : Length) :
    SameWrites s t (u.setLen b n) (v.setLen b n) := by
  refine h.frame (.setLen u hr n) (.setLen v hr n) (.setLen u b n) (.setLen v b n) (by simpa using h.netValid) ?_
    (by simp)
  cases b <;> simp [Buf.lenReg] at hr <;> subst hr <;> simp [State.regValue]

theorem SameWrites.setSeq {b : Buf} {r : Reg} (hr : b.lenReg = some r) (vs : List Byte) :
    SameWrites s t (u.setSeq b vs) (v.setSeq b vs) :=
  (h.setElems b vs).setLen hr _

theorem SameWrites.setAcc (a : Acc) : SameWrites s t (u.setAcc a) (v.setAcc a) :=
  h.frame (.setAcc u a) (.setAcc v a) (.setAcc u a) (.setAcc v a) h.netValid (by simp [State.regValue]) (by simp)

theorem SameWrites.setChecksum (a : Acc) : SameWrites s t (u.setChecksum a) (v.setChecksum a) :=
  (h.setAcc a).setElems .ckw _

theorem SameWrites.setTypebits (x : Byte) : SameWrites s t (u.setTypebits x) (v.setTypebits x) :=
  h.frame (.setTypebits u x) (.setTypebits v x) (.setTypebits u x) (.setTypebits v x) h.netValid
    (by simp [State.regValue]) (by simp)

theorem SameWrites.setSizebits (x : Byte) : SameWrites s t (u.setSizebits x) (v.setSizebits x) :=
  h.frame (.setSizebits u x) (.setSizebits v x) (.setSizebits u x) (.setSizebits v x) h.netValid
    (by simp [State.regValue]) (by simp)

theorem SameWrites.setVbyte (x : Byte) : SameWrites s t (u.setVbyte x) (v.setVbyte x) :=
  h.frame (.setVbyte u x) (.setVbyte v x) (.setVbyte u x) (.setVbyte v x) h.netValid
    (by simp [State.regValue]) (by simp)

theorem SameWrites.setOutType (x : Byte) : SameWrites s t (u.setOutType x) (v.setOutType x) :=
  h.frame (.setOutType u x) (.setOutType v x) (.setOutType u x) (.setOutType v x) h.netValid
    (by simp [State.regValue]) (by simp)

theorem SameWrites.setSizelen (x : Byte) : SameWrites s t (u.setSizelen x) (v.setSizelen x) :=
  h.frame (.setSizelen u x) (.setSizelen v x) (.setSizelen u x) (.setSizelen v x) h.netValid
    (by simp [State.regValue]) (by simp)

theorem SameWrites.withNetValid (b : Bool) : SameWrites s t { u with netValid := b } { v with netValid := b } :=
  h.frame (.withNetValid u b) (.withNetValid v b) ⟨id, id⟩ ⟨id, id⟩ rfl (by simp) (by simp)

theorem SameWrites.errorOutputs (e : Err) : SameWrites s t (u.errorOutputs e) (v.errorOutputs e) := by
  cases e with
  | checksumMismatch ex => exact h.setElems .exp ex
  | _ => exact h

end

/-- The conclusion of O26: the two ends agree on ERRCODE and NET_VALID, and on every slot but STATUS that is not kept in
both. -/
def EndsAlike (s t s' t' : State) : Prop :=
  s'.errcode = t'.errcode ∧ s'.netValid = t'.netValid ∧
  ∀ slot : Slot, slot.mapped = true → slot ≠ .reg .status →
    s'.slotValue slot = t'.slotValue slot ∨
      (s'.slotValue slot = s.slotValue slot ∧ t'.slotValue slot = t.slotValue slot)

theorem SameWrites.complete {s t u v : State} (h : SameWrites s t u v) (code : BitVec 8) :
    EndsAlike s t (u.complete code) (v.complete code) := by
  refine ⟨rfl, h.netValid, fun slot _ hs => ?_⟩
  cases slot with
  | reg r =>
    cases hd : r.isData with
    | true => simpa [State.slotValue, hd] using h.reg r hd
    | false =>
      left
      cases r <;> first | rfl | exact absurd rfl hs | cases hd
  | elem b i =>
    rcases h.byte (b.slot i) with hb | ⟨hu, hv⟩
    · exact .inl (congrArg (BitVec.setWidth 32) hb)
    · exact .inr ⟨congrArg (BitVec.setWidth 32) hu, congrArg (BitVec.setWidth 32) hv⟩

/-! ### Two runs of one command -/

/-- Two runs' checks and outputs: both reach the same error, or both pass and write alike. -/
inductive SameOutcome (s t : State) : Except Err State → Except Err State → Prop where
  | ok {u v : State} (h : SameWrites s t u v) : SameOutcome s t (.ok u) (.ok v)
  | error (e : Err) : SameOutcome s t (.error e) (.error e)

/-- Both runs compute the same value, or the same error, and go on alike from the value. -/
theorem SameOutcome.bind {s t : State} {α : Type} {x y : Except Err α} {f g : α → Except Err State} (hx : x = y)
    (hf : ∀ a, x = .ok a → SameOutcome s t (f a) (g a)) : SameOutcome s t (x >>= f) (y >>= g) := by
  subst hx
  cases x with
  | ok a => exact hf a rfl
  | error e => exact .error e

/-- Both runs make the same check, and go on alike if it passes. -/
theorem SameOutcome.require {s t : State} {c d : Bool} {e : Err} {f g : Unit → Except Err State} (hc : c = d)
    (hf : c = true → SameOutcome s t (f ()) (g ())) :
    SameOutcome s t (Machine.require c e >>= f) (Machine.require d e >>= g) :=
  .bind (by rw [hc]) fun _ ha => hf (require_eq_ok.mp ha)

theorem SameOutcome.endsAlike {s t s' t' : State} {x y : Except Err State} (h : SameOutcome s t x y)
    (hw : SameWrites s t s t) (hs : conclude s x = .next s') (ht : conclude t y = .next t') : EndsAlike s t s' t' := by
  cases h with
  | ok h =>
    cases hs
    cases ht
    exact h.complete 0
  | error e =>
    cases hs
    cases ht
    exact (hw.errorOutputs e).complete e.code

/-! ### Agreement on what is read -/

/-- The bus view of a register or element determines its value (10_state.md R40). -/
theorem eq_of_setWidth_eq {n : Nat} {x y : BitVec n} (h : x.setWidth 32 = y.setWidth 32) (hn : n ≤ 32 := by decide) :
    x = y := by
  have h := congrArg (BitVec.setWidth n) h
  rwa [BitVec.setWidth_setWidth_of_le x hn, BitVec.setWidth_setWidth_of_le y hn, BitVec.setWidth_eq,
    BitVec.setWidth_eq] at h

section
variable {s t : State} {l m : List Nat} {b : Buf} {r : Reg}

theorem AgreeOn.cons (h : AgreeOn (r.offset :: l) s t) : s.regValue r = t.regValue r ∧ AgreeOn l s t :=
  ⟨h (.reg r) rfl (List.mem_cons_self ..), fun slot hm ho => h slot hm (List.mem_cons_of_mem _ ho)⟩

theorem AgreeOn.append (h : AgreeOn (l ++ m) s t) : AgreeOn l s t ∧ AgreeOn m s t :=
  ⟨fun slot hm ho => h slot hm (List.mem_append_left _ ho), fun slot hm ho => h slot hm (List.mem_append_right _ ho)⟩

theorem AgreeOn.onlyIf {c : Bool} (h : AgreeOn (Machine.onlyIf c l) s t) (hc : c = true) : AgreeOn l s t := by
  rwa [Machine.onlyIf, if_pos hc] at h

theorem AgreeOn.acc (h : AgreeOn accSlots s t) : s.acc = t.acc := by
  obtain ⟨hlo, h⟩ := h.cons
  obtain ⟨hhi, _⟩ := h.cons
  exact acc_eq_of_halves hlo (eq_of_setWidth_eq hhi)

theorem AgreeOn.seq {n : Nat} (h : AgreeOn (slotsOf b n) s t) (hn : n ≤ b.cap) : s.seq b n = t.seq b n := by
  refine List.map_congr_left fun k hk => ?_
  have hm : (Slot.elem b k).mapped = true := decide_eq_true (Nat.lt_of_lt_of_le (List.mem_range.mp hk) hn)
  exact eq_of_setWidth_eq (h _ hm (List.mem_map_of_mem hk))

theorem AgreeOn.len (h : AgreeOn (r.offset :: l) s t) (hb : b.lenReg = some r) :
    s.len b = t.len b ∧ AgreeOn l s t := by
  obtain ⟨hr, h⟩ := h.cons
  refine ⟨?_, h⟩
  cases b <;> cases hb <;> exact congrArg BitVec.toNat (eq_of_setWidth_eq hr)

theorem State.lengthOk_congr (hl : s.len b = t.len b) : s.lengthOk b = t.lengthOk b := by
  rw [State.lengthOk, State.lengthOk, hl]

theorem AgreeOn.whole (h : AgreeOn (s.whole b) s t) (hl : s.len b = t.len b) (hok : s.lengthOk b = true) :
    s.input b = t.input b := by
  rw [State.input, State.input, ← hl]
  exact h.seq (State.lengthOk_iff.mp hok)

end

/-- While NET_VALID = 1 NET_LEN is within NET (10_state.md R43). -/
theorem State.Inv.net_lengthOk {s : State} (hi : s.Inv) (hv : s.netValid = true) : s.lengthOk .net = true := by
  obtain ⟨_, hle, _⟩ := hi.netLower hv
  exact State.lengthOk_iff.mpr hle

/-- What the two decoding commands share: the contents of STR and NET they go on with. -/
theorem addrDecReads_inputs {s t : State} (hi : s.Inv) (h : AgreeOn (addrDecReads s) s t) :
    s.len .str = t.len .str ∧ (s.lengthOk .str = true → s.netValid = true →
      addrDecRaw (s.input .net) (s.input .str) = addrDecRaw (t.input .net) (t.input .str)) := by
  obtain ⟨hl, h⟩ := h.len (b := .str) rfl
  refine ⟨hl, fun hok hv => ?_⟩
  obtain ⟨hstr, h⟩ := (h.onlyIf (Bool.and_eq_true_iff.mpr ⟨hok, hv⟩)).append
  obtain ⟨hnl, hnet⟩ := h.len (b := .net) rfl
  rw [hstr.whole hl hok, hnet.whole hnl (hi.net_lengthOk hv)]

/-! ### Scans that stop at the first failing element -/

/-- A scan cannot tell the two sequences apart: they are equal, or it fails on both. -/
def SameScan (ok : Byte → Bool) (xs ys : List Byte) : Prop :=
  xs = ys ∨ (∃ x ∈ xs, ok x = false) ∧ ∃ y ∈ ys, ok y = false

theorem scanned_le (ok : Byte → Bool) (xs : List Byte) : scanned ok xs ≤ xs.length := by
  induction xs with
  | nil => simp [scanned]
  | cons x xs ih =>
    rw [scanned, List.length_cons]
    split <;> omega

theorem sameScan_of_take {ok : Byte → Bool} {xs ys : List Byte} (hl : xs.length = ys.length)
    (h : xs.take (scanned ok xs) = ys.take (scanned ok xs)) : SameScan ok xs ys := by
  induction xs generalizing ys with
  | nil => exact .inl (List.length_eq_zero_iff.mp hl.symm).symm
  | cons x xs ih =>
    cases ys with
    | nil => simp at hl
    | cons y ys =>
      cases hx : ok x with
      | true =>
        simp only [scanned, hx, if_true, List.take_succ_cons, List.cons.injEq] at h
        obtain ⟨rfl, h⟩ := h
        rcases ih (by simpa using hl) h with rfl | ⟨⟨c, hc, hcf⟩, d, hd, hdf⟩
        · exact .inl rfl
        · exact .inr ⟨⟨c, List.mem_cons_of_mem _ hc, hcf⟩, d, List.mem_cons_of_mem _ hd, hdf⟩
      | false =>
        simp only [scanned, hx, Bool.false_eq_true, if_false, List.take_succ_cons, List.cons.injEq] at h
        exact .inr ⟨⟨x, by simp, hx⟩, y, by simp, h.1 ▸ hx⟩

theorem State.take_input (s : State) (b : Buf) {n : Nat} (hn : n ≤ s.len b) : (s.input b).take n = s.seq b n := by
  rw [State.input, State.seq, State.seq, ← List.map_take, List.take_range, Nat.min_eq_left hn]

theorem AgreeOn.scan {s t : State} {b : Buf} {ok : Byte → Bool} (h : AgreeOn (s.scan b ok) s t)
    (hl : s.len b = t.len b) (hok : s.lengthOk b = true) : SameScan ok (s.input b) (t.input b) := by
  have hn : scanned ok (s.input b) ≤ s.len b := by simpa using scanned_le ok (s.input b)
  apply sameScan_of_take (by simpa using hl)
  rw [State.take_input s b hn, State.take_input t b (hl ▸ hn)]
  exact h.seq (Nat.le_trans hn (State.lengthOk_iff.mp hok))

theorem w2bLoop_error (acc : RadixAcc) (bits : Nat) {ws : List Byte} (h : ∃ w ∈ ws, wordOk w = false) :
    w2bLoop acc bits ws = .error .invalidWord := by
  induction ws generalizing acc bits with
  | nil => simp at h
  | cons w ws ih =>
    rw [w2bLoop]
    split
    · next hw =>
      have h : ∃ v ∈ ws, wordOk v = false := by simpa [hw] using h
      simp only [ih _ _ h]
      rfl
    · rfl

section
variable {p p' ws ws' : List Byte}

theorem charEnc_congr (h : SameScan wordOk ws ws') : charEnc ws = charEnc ws' := by
  rcases h with rfl | ⟨h, h'⟩
  · rfl
  · rw [charEnc_error h, charEnc_error h']

theorem charDec_congr {cs cs' : List Byte} (h : SameScan (fun c => (charIndex c).isSome) cs cs') :
    charDec cs = charDec cs' := by
  rcases h with rfl | ⟨h, h'⟩
  · rfl
  · rw [charDec_error (by simpa using h), charDec_error (by simpa using h')]

theorem w2b_congr (h : SameScan wordOk ws ws') : w2b ws = w2b ws' := by
  rcases h with rfl | ⟨h, h'⟩
  · rfl
  · rw [w2b, w2b, w2bLoop_error _ _ h, w2bLoop_error _ _ h']

/-- `Checksum` reads the words only after the whole of `p` has passed. -/
theorem checksumAcc_congr (hp : SameScan prefixCharOk p p')
    (hw : p.all prefixCharOk = true → SameScan wordOk ws ws') : checksumAcc p ws = checksumAcc p' ws' := by
  rcases hp with rfl | ⟨h, h'⟩
  · by_cases hall : p.all prefixCharOk = true
    · have hok := List.all_eq_true.mp hall
      rcases hw hall with rfl | ⟨h, h'⟩
      · rfl
      · rw [checksumAcc_word_error hok h, checksumAcc_word_error hok h']
    · have hbad : ∃ c ∈ p, prefixCharOk c = false := by simpa using hall
      rw [checksumAcc_prefix_error ws hbad, checksumAcc_prefix_error ws' hbad]
  · rw [checksumAcc_prefix_error ws h, checksumAcc_prefix_error ws' h']

/-- `FrameEnc` reads the words only after a non-empty `p` has passed. -/
theorem frameEnc_congr (inc : Bool) (hw : p ≠ [] → (lower p).all prefixCharOk = true → SameScan wordOk ws ws') :
    frameEnc p ws inc = frameEnc p ws' inc := by
  by_cases h0 : p = []
  · rw [h0, frameEnc_empty, frameEnc_empty]
  by_cases hall : (lower p).all prefixCharOk = true
  · have hok := List.all_eq_true.mp hall
    rcases hw h0 hall with rfl | ⟨h, h'⟩
    · rfl
    · rw [frameEnc_word_error inc h0 hok h, frameEnc_word_error inc h0 hok h']
  · have hbad : ∃ c ∈ lower p, prefixCharOk c = false := by simpa using hall
    rw [frameEnc_prefix_error ws inc h0 hbad, frameEnc_prefix_error ws' inc h0 hbad]

/-- `AddrEncRaw` reads `net` and `hash` only after both codes have passed. -/
theorem addrEncRaw_congr {net net' hash hash' : List Byte} {tb sb : Byte} (inc : Bool)
    (h : (typebitsOk tb && sizebitsOk sb) = true → net = net' ∧ hash = hash') :
    addrEncRaw net tb sb hash inc = addrEncRaw net' tb sb hash' inc := by
  simp only [addrEncRaw, require_bind]
  split
  · next ht =>
    split
    · next hs =>
      obtain ⟨rfl, rfl⟩ := h (by simp [ht, hs])
      rfl
    · rfl
  · rfl

end

/-! ### The commands -/

section
variable {s t : State} (hw : SameWrites s t s t)
include hw

theorem cfgNet_sameOutcome (h : AgreeOn (reads .cfgNet s) s t) : SameOutcome s t (cfgNetResult s) (cfgNetResult t) := by
  obtain ⟨hl, h⟩ := h.len (b := .net) rfl
  have hn : s.netLen = t.netLen := BitVec.eq_of_toNat_eq hl
  refine .require (State.lengthOk_congr hl) fun hok => .require (by rw [hn]) fun _ => ?_
  have hi := (h.onlyIf hok).whole hl hok
  refine .require (by rw [hi]) fun _ => ?_
  rw [hi]
  exact .ok (hw.setElems .net _)

theorem cfgNet_endsAlike {s' t' : State} (h : AgreeOn (reads .cfgNet s) s t) (hs : execCfgNet s = .next s')
    (ht : execCfgNet t = .next t') : EndsAlike s t s' t' := by
  have h := cfgNet_sameOutcome hw h
  unfold execCfgNet at hs ht
  generalize cfgNetResult s = x at h hs
  generalize cfgNetResult t = y at h ht
  cases h with
  | ok h =>
    cases hs
    cases ht
    exact (h.withNetValid true).complete 0
  | error e =>
    cases hs
    cases ht
    exact ((hw.withNetValid false).errorOutputs e).complete e.code

theorem chrEnc_sameOutcome (h : AgreeOn (reads .chrEnc s) s t) : SameOutcome s t (chrEncResult s) (chrEncResult t) := by
  obtain ⟨hl, h⟩ := h.len (b := .words) rfl
  refine .require (State.lengthOk_congr hl) fun hok => ?_
  have hi := (h.onlyIf hok).scan hl hok
  exact .bind (charEnc_congr hi) fun str _ => .ok (hw.setSeq rfl str)

theorem chrDec_sameOutcome (h : AgreeOn (reads .chrDec s) s t) : SameOutcome s t (chrDecResult s) (chrDecResult t) := by
  obtain ⟨hl, h⟩ := h.len (b := .str) rfl
  refine .require (State.lengthOk_congr hl) fun hok => ?_
  have hi := (h.onlyIf hok).scan hl hok
  exact .bind (charDec_congr hi) fun ws _ => .require rfl fun _ => .ok (hw.setSeq rfl ws)

theorem cvt8to5_sameOutcome (h : AgreeOn (reads .cvt8to5 s) s t) :
    SameOutcome s t (cvt8to5Result s) (cvt8to5Result t) := by
  obtain ⟨hl, h⟩ := h.len (b := .bytes) rfl
  refine .require (State.lengthOk_congr hl) fun hok => ?_
  rw [(h.onlyIf hok).whole hl hok]
  exact .ok (hw.setSeq rfl _)

theorem cvt5to8_sameOutcome (h : AgreeOn (reads .cvt5to8 s) s t) :
    SameOutcome s t (cvt5to8Result s) (cvt5to8Result t) := by
  obtain ⟨hl, h⟩ := h.len (b := .words) rfl
  refine .require (State.lengthOk_congr hl) fun hok => ?_
  have hi := (h.onlyIf hok).scan hl hok
  exact .bind (w2b_congr hi) fun bs _ => .ok (hw.setSeq rfl bs)

theorem polyStep_sameOutcome (h : AgreeOn (reads .polyStep s) s t) :
    SameOutcome s t (.ok (s.setAcc (polyStep s.acc))) (.ok (t.setAcc (polyStep t.acc))) := by
  rw [AgreeOn.acc h]
  exact .ok (hw.setAcc _)

theorem polyFinal_sameOutcome (h : AgreeOn (reads .polyFinal s) s t) :
    SameOutcome s t (.ok (s.setChecksum (s.acc ^^^ 1))) (.ok (t.setChecksum (t.acc ^^^ 1))) := by
  rw [AgreeOn.acc h]
  exact .ok (hw.setChecksum _)

theorem polyFeedw_sameOutcome (h : AgreeOn (reads .polyFeedw s) s t) :
    SameOutcome s t (polyFeedwResult s) (polyFeedwResult t) := by
  obtain ⟨ho, h⟩ := h.cons
  have ho : s.operand = t.operand := eq_of_setWidth_eq ho
  refine .require (by rw [ho]) fun hok => ?_
  rw [(h.onlyIf hok).acc, ho]
  exact .ok (hw.setAcc _)

theorem polyFeedc_sameOutcome (h : AgreeOn (reads .polyFeedc s) s t) :
    SameOutcome s t (polyFeedcResult s) (polyFeedcResult t) := by
  obtain ⟨ho, h⟩ := h.cons
  have ho : s.operand = t.operand := eq_of_setWidth_eq ho
  refine .require (by rw [ho]) fun hok => ?_
  rw [(h.onlyIf hok).acc, ho]
  exact .ok (hw.setAcc _)

theorem checksum_sameOutcome (h : AgreeOn (reads .checksum s) s t) :
    SameOutcome s t (checksumResult s) (checksumResult t) := by
  obtain ⟨hp, h⟩ := h.len (b := .pfx) rfl
  obtain ⟨hn, h⟩ := h.len (b := .words) rfl
  refine .require (by rw [State.lengthOk_congr hp, State.lengthOk_congr hn]) fun hok => ?_
  obtain ⟨hpfx, hwords⟩ := (h.onlyIf hok).append
  obtain ⟨hokp, hokw⟩ := Bool.and_eq_true_iff.mp hok
  have hc := checksumAcc_congr (hpfx.scan hp hokp) fun hall =>
    (hwords.onlyIf hall).scan hn hokw
  exact .bind hc fun a _ => .ok (hw.setChecksum a)

theorem frmEnc_sameOutcome {nopfx : Bool} (h : AgreeOn (reads (.frmEnc nopfx) s) s t) :
    SameOutcome s t (frmEncResult nopfx s) (frmEncResult nopfx t) := by
  obtain ⟨hp, h⟩ := h.len (b := .pfx) rfl
  obtain ⟨hn, h⟩ := h.len (b := .words) rfl
  refine .require (by rw [State.lengthOk_congr hp, State.lengthOk_congr hn]) fun hok => ?_
  refine .bind ?_ fun str _ => .ok (hw.setSeq rfl str)
  obtain ⟨hokp, hokw⟩ := Bool.and_eq_true_iff.mp hok
  by_cases h0 : s.pfxLen = 0
  · have hs : s.len .pfx = 0 := congrArg BitVec.toNat h0
    have hs' : s.input .pfx = [] := List.length_eq_zero_iff.mp (by simpa using hs)
    have ht' : t.input .pfx = [] := List.length_eq_zero_iff.mp (by simpa [← hp] using hs)
    rw [hs', ht', frameEnc_empty, frameEnc_empty]
  · obtain ⟨hpfx, hwords⟩ := (h.onlyIf (Bool.and_eq_true_iff.mpr ⟨hok, bne_iff_ne.mpr h0⟩)).append
    rw [← hpfx.whole hp hokp]
    exact frameEnc_congr _ fun _ hall => (hwords.onlyIf hall).scan hn hokw

theorem frmDec_sameOutcome (h : AgreeOn (reads .frmDec s) s t) : SameOutcome s t (frmDecResult s) (frmDecResult t) := by
  obtain ⟨hl, h⟩ := h.len (b := .str) rfl
  refine .require (State.lengthOk_congr hl) fun hok => ?_
  have hi := (h.onlyIf hok).whole hl hok
  exact .bind (by rw [hi]) fun r _ => .require rfl fun _ => .ok ((hw.setSeq rfl r.1).setSeq rfl r.2)

theorem vbPack_sameOutcome (h : AgreeOn (reads .vbPack s) s t) : SameOutcome s t (vbPackResult s) (vbPackResult t) := by
  obtain ⟨htb, h⟩ := h.cons
  obtain ⟨hsb, _⟩ := h.cons
  have htb : s.typebits = t.typebits := eq_of_setWidth_eq htb
  have hsb : s.sizebits = t.sizebits := eq_of_setWidth_eq hsb
  refine .require (by rw [htb]) fun _ => .require (by rw [hsb]) fun _ => ?_
  rw [htb, hsb]
  exact .ok (hw.setVbyte _)

theorem vbUnpack_sameOutcome (h : AgreeOn (reads .vbUnpack s) s t) :
    SameOutcome s t (vbUnpackResult s) (vbUnpackResult t) := by
  have hv : s.vbyte = t.vbyte := eq_of_setWidth_eq h.cons.1
  refine .require (by rw [hv]) fun _ => ?_
  rw [hv]
  exact .ok ((hw.setTypebits _).setSizebits _)

theorem vbEncts_sameOutcome (h : AgreeOn (reads .vbEncts s) s t) :
    SameOutcome s t (vbEnctsResult s) (vbEnctsResult t) := by
  obtain ⟨hty, h⟩ := h.cons
  have hty : s.outType = t.outType := eq_of_setWidth_eq hty
  refine .require (by rw [hty]) fun hok => ?_
  have hl : s.hashLen = t.hashLen := eq_of_setWidth_eq (h.onlyIf hok).cons.1
  rw [hty, hl]
  exact .bind rfl fun sb _ => .ok ((hw.setTypebits _).setSizebits sb)

theorem vbDects_sameOutcome (h : AgreeOn (reads .vbDects s) s t) :
    SameOutcome s t (vbDectsResult s) (vbDectsResult t) := by
  obtain ⟨htb, h⟩ := h.cons
  have htb : s.typebits = t.typebits := eq_of_setWidth_eq htb
  refine .require (by rw [htb]) fun hok => ?_
  have hsb : s.sizebits = t.sizebits := eq_of_setWidth_eq (h.onlyIf hok).cons.1
  rw [htb, hsb]
  exact .require rfl fun _ => .ok ((hw.setOutType _).setSizelen _)

theorem addrEncraw_sameOutcome (hi : s.Inv) {nopfx : Bool} (h : AgreeOn (reads (.addrEncraw nopfx) s) s t) :
    SameOutcome s t (addrEncrawResult nopfx s) (addrEncrawResult nopfx t) := by
  obtain ⟨hl, h⟩ := h.len (b := .hash) rfl
  refine .require (State.lengthOk_congr hl) fun hok => .require hw.netValid fun hv => ?_
  refine .bind ?_ fun str _ => .ok (hw.setSeq rfl str)
  obtain ⟨htb, h⟩ := (h.onlyIf (Bool.and_eq_true_iff.mpr ⟨hok, hv⟩)).cons
  obtain ⟨hsb, h⟩ := h.cons
  obtain ⟨hnl, h⟩ := h.len (b := .net) rfl
  have htb : s.typebits = t.typebits := eq_of_setWidth_eq htb
  have hsb : s.sizebits = t.sizebits := eq_of_setWidth_eq hsb
  rw [← htb, ← hsb]
  refine addrEncRaw_congr _ fun hcodes => ?_
  obtain ⟨hhash, hnet⟩ := (h.onlyIf hcodes).append
  exact ⟨hnet.whole hnl (hi.net_lengthOk hv), hhash.whole hl hok⟩

theorem addrEnc_sameOutcome (hi : s.Inv) {nopfx : Bool} (h : AgreeOn (reads (.addrEnc nopfx) s) s t) :
    SameOutcome s t (addrEncResult nopfx s) (addrEncResult nopfx t) := by
  obtain ⟨hl, h⟩ := h.len (b := .hash) rfl
  refine .require (State.lengthOk_congr hl) fun hok => .require hw.netValid fun hv => ?_
  obtain ⟨hty, h⟩ := (h.onlyIf (Bool.and_eq_true_iff.mpr ⟨hok, hv⟩)).cons
  have hty : s.outType = t.outType := eq_of_setWidth_eq hty
  refine .require (by rw [hty]) fun hk => .bind (congrArg hashSizeCode hl) fun sb hsb => ?_
  obtain ⟨hhash, h⟩ := (h.onlyIf (by rw [hk, hashSizeCode_eq_ok.mp hsb]; rfl)).append
  obtain ⟨hnl, hnet⟩ := h.len (b := .net) rfl
  rw [hty, hhash.whole hl hok, hnet.whole hnl (hi.net_lengthOk hv)]
  exact .bind rfl fun str _ => .ok (hw.setSeq rfl str)

theorem addrDecraw_sameOutcome (hi : s.Inv) (h : AgreeOn (reads .addrDecraw s) s t) :
    SameOutcome s t (addrDecrawResult s) (addrDecrawResult t) := by
  obtain ⟨hl, hr⟩ := addrDecReads_inputs hi h
  exact .require (State.lengthOk_congr hl) fun hok => .require hw.netValid fun hv => .bind (hr hok hv) fun r _ =>
    .require rfl fun _ => .ok (((hw.setTypebits r.tb).setSizebits r.sb).setSeq rfl r.hash)

theorem addrDec_sameOutcome (hi : s.Inv) (h : AgreeOn (reads .addrDec s) s t) :
    SameOutcome s t (addrDecResult s) (addrDecResult t) := by
  obtain ⟨hl, hr⟩ := addrDecReads_inputs hi h
  exact .require (State.lengthOk_congr hl) fun hok => .require hw.netValid fun hv => .bind (hr hok hv) fun r _ =>
    .require rfl fun _ => .require rfl fun _ => .require rfl fun _ => .ok ((hw.setOutType r.tb).setSeq rfl r.hash)

/-- Two runs of one command from states that agree on what it reads end alike. -/
theorem exec_endsAlike {i : Instr} {s' t' : State} (hi : s.Inv) (h : AgreeOn (reads i s) s t)
    (hs : exec i s = .next s') (ht : exec i t = .next t') : EndsAlike s t s' t' := by
  cases i with
  | cfgNet => exact cfgNet_endsAlike hw h hs ht
  | chrEnc => exact (chrEnc_sameOutcome hw h).endsAlike hw hs ht
  | chrDec => exact (chrDec_sameOutcome hw h).endsAlike hw hs ht
  | cvt8to5 => exact (cvt8to5_sameOutcome hw h).endsAlike hw hs ht
  | cvt5to8 => exact (cvt5to8_sameOutcome hw h).endsAlike hw hs ht
  | accInit => exact (SameOutcome.ok (hw.setAcc 1)).endsAlike hw hs ht
  | polyStep => exact (polyStep_sameOutcome hw h).endsAlike hw hs ht
  | polyFeedw => exact (polyFeedw_sameOutcome hw h).endsAlike hw hs ht
  | polyFeedc => exact (polyFeedc_sameOutcome hw h).endsAlike hw hs ht
  | polyFinal => exact (polyFinal_sameOutcome hw h).endsAlike hw hs ht
  | checksum => exact (checksum_sameOutcome hw h).endsAlike hw hs ht
  | frmEnc nopfx => exact (frmEnc_sameOutcome hw h).endsAlike hw hs ht
  | frmDec => exact (frmDec_sameOutcome hw h).endsAlike hw hs ht
  | vbPack => exact (vbPack_sameOutcome hw h).endsAlike hw hs ht
  | vbUnpack => exact (vbUnpack_sameOutcome hw h).endsAlike hw hs ht
  | vbEncts => exact (vbEncts_sameOutcome hw h).endsAlike hw hs ht
  | vbDects => exact (vbDects_sameOutcome hw h).endsAlike hw hs ht
  | addrEncraw nopfx => exact (addrEncraw_sameOutcome hw hi h).endsAlike hw hs ht
  | addrEnc nopfx => exact (addrEnc_sameOutcome hw hi h).endsAlike hw hs ht
  | addrDecraw => exact (addrDecraw_sameOutcome hw hi h).endsAlike hw hs ht
  | addrDec => exact (addrDec_sameOutcome hw hi h).endsAlike hw hs ht

end

/-- Settles O26: both runs make the same checks on what they read, then write the same values at the same places. -/
theorem resultDependsOnlyOnWhatIsRead : Obligations.ResultDependsOnlyOnWhatIsRead := by
  intro i s t s' t' hsi hti hr hn hs ht
  exact exec_endsAlike (.refl hsi hti hn) hsi hr hs ht

end Sys2Proof.Machine
end

section
/-! PROOFS (10_state.md). O9, O11, O13, O14, O18: the words the host reads, what a host write stores and what it leaves
alone, the reset state, and the UNWRITTEN mark. The mark rests on one equation, `step_unwrittenUse`: whichever agent
moves, a step adds to the mark exactly whether the spec's model enters UNWRITTEN there. -/

namespace Sys2Proof.Machine

/-! ### The host's write to one register or element -/

/-- A datum stored in `n` bits reads back as its low `n` bits (10_state.md R21). -/
theorem setWidth_setWidth_datum (d : Datum) {n : Nat} (hn : n ≤ 32) :
    (d.setWidth n).setWidth 32 = d &&& BitVec.ofNat 32 (2 ^ n - 1) := by
  apply BitVec.eq_of_toNat_eq
  have hle : 2 ^ n ≤ 2 ^ 32 := Nat.pow_le_pow_right (by decide) hn
  have hpos : 0 < 2 ^ n := Nat.two_pow_pos n
  have hlt : d.toNat % 2 ^ n < 2 ^ 32 := Nat.lt_of_lt_of_le (Nat.mod_lt _ hpos) hle
  rw [BitVec.toNat_and, BitVec.toNat_ofNat, Nat.mod_eq_of_lt (by omega), Nat.and_two_pow_sub_one_eq_mod,
    BitVec.toNat_setWidth, BitVec.toNat_setWidth, Nat.mod_eq_of_lt hlt]

theorem setWidth_byte_datum (d : Datum) : (d.setWidth 8).setWidth 32 = d &&& 0xFF :=
  setWidth_setWidth_datum d (by decide)

theorem setWidth_length_datum (d : Datum) : (d.setWidth 16).setWidth 32 = d &&& 0xFFFF :=
  setWidth_setWidth_datum d (by decide)

/-- A data register reads back as the bits of the datum it uses (10_state.md R21, R40). -/
theorem State.regValue_storeReg_same (s : State) {r : Reg} (hr : r.isData = true) (d : Datum) :
    (s.storeReg r d).regValue r = d &&& (Slot.reg r).usedBits := by
  cases r with
  | id | cmd | status | errcode => cases hr
  | accLo => exact BitVec.extractLsb'_append_eq_right.trans (BitVec.and_allOnes (w := 32)).symm
  | accHi => exact (congrArg (BitVec.setWidth 32) BitVec.extractLsb'_append_eq_left).trans (setWidth_byte_datum d)
  | operand | typebits | sizebits | vbyte | outType | sizelen => exact setWidth_byte_datum d
  | pfxLen | netLen | hashLen | byteLen | wordLen | strLen => exact setWidth_length_datum d

/-- A state that differs in one register, which then counts as written. -/
theorem Frame.of_reg {s u : State} {r : Reg} (hreg : ∀ q, q ≠ r → u.regValue q = s.regValue q) (hm : u.mem = s.mem)
    (hw : u.written = s.written.insert r.offset) (ho : OutsideKept s u) : Frame [r] [] s u :=
  ⟨fun q _ hq => hreg q (by simpa using hq), fun _ _ => by rw [hm], fun a => by simp [hw, or_comm], ho⟩

/-- A write to a data register changes that register alone; one half of ACC leaves the other (10_state.md R26). -/
theorem Frame.storeReg (s : State) {r : Reg} (hr : r.isData = true) (d : Datum) : Frame [r] [] s (s.storeReg r d) := by
  cases r with
  | id | cmd | status | errcode => cases hr
  | accLo =>
    refine .of_reg (fun q hq => ?_) rfl rfl ⟨rfl, rfl, rfl, rfl, rfl⟩
    cases q with
    | accLo => exact absurd rfl hq
    | accHi => exact congrArg (BitVec.setWidth 32) BitVec.extractLsb'_append_eq_left
    | _ => rfl
  | accHi =>
    refine .of_reg (fun q hq => ?_) rfl rfl ⟨rfl, rfl, rfl, rfl, rfl⟩
    cases q with
    | accHi => exact absurd rfl hq
    | accLo => exact BitVec.extractLsb'_append_eq_right
    | _ => rfl
  | operand =>
    refine .of_reg (fun q hq => ?_) rfl rfl ⟨rfl, rfl, rfl, rfl, rfl⟩
    cases q with
    | operand => exact absurd rfl hq
    | _ => rfl
  | typebits => exact .setTypebits s _
  | sizebits => exact .setSizebits s _
  | vbyte => exact .setVbyte s _
  | outType => exact .setOutType s _
  | sizelen => exact .setSizelen s _
  | pfxLen => exact .setLen s (b := .pfx) rfl _
  | netLen => exact .setLen s (b := .net) rfl _
  | hashLen => exact .setLen s (b := .hash) rfl _
  | byteLen => exact .setLen s (b := .bytes) rfl _
  | wordLen => exact .setLen s (b := .words) rfl _
  | strLen => exact .setLen s (b := .str) rfl _

theorem Frame.setElem (s : State) (b : Buf) (i : Nat) (v : Byte) : Frame [] [b.slot i] s (s.setElem b i v) := by
  refine ⟨fun r _ _ => by cases r <;> rfl, fun a ha => ?_, fun a => ?_, rfl, rfl, rfl, rfl, rfl⟩
  · exact Memory.read_write_other s.mem v (by simpa using ha)
  · simp [or_comm]

theorem State.elem_setElem_same {s : State} (hm : s.mem.wf = true) (b : Buf) (i : Nat) (v : Byte) :
    (s.setElem b i v).elem b i = v :=
  Memory.read_write_same hm _ v

/-! ### The host's write to a slot while nothing is pending -/

/-- The register a write to the slot stores in. -/
def Slot.regs : Slot → List Reg
  | .reg r => [r]
  | .elem _ _ => []

/-- The offset of the byte a write to the slot stores. -/
def Slot.bytes : Slot → List Nat
  | .reg _ => []
  | .elem b i => [b.slot i]

/-- What a host write stores in a slot; NET_VALID is no part of it. -/
def State.storeSlot (s : State) (slot : Slot) (d : Datum) : State :=
  match slot with
  | .reg r => s.storeReg r d
  | .elem b i => s.setElem b i (d.setWidth 8)

/-- The registers a host write stores in are the data and length registers (10_state.md R21, R39). -/
theorem Reg.isData_of_writable {r : Reg} (hc : Slot.reg r ≠ .reg .cmd) (hr : (Slot.reg r).readOnly = false) :
    r.isData = true := by
  cases r with
  | id | status | errcode => cases hr
  | cmd => exact absurd rfl hc
  | _ => rfl

/-- Writes to ID, STATUS, ERRCODE, CKW and EXP are ignored (10_state.md R39). -/
theorem State.writeIdle_readOnly (s : State) {slot : Slot} (h : slot.readOnly = true) (d : Datum) :
    s.writeIdle slot d = s := by
  cases slot with
  | reg r =>
    cases r with
    | id | status | errcode => rfl
    | _ => cases h
  | elem b i =>
    cases b with
    | ckw | exp => rfl
    | _ => cases h

section
variable (s : State) {slot : Slot} (hc : slot ≠ .reg .cmd) (hr : slot.readOnly = false) (d : Datum)
include hc hr

/-- A write to any other slot but CMD stores, and clears NET_VALID if the slot is NET_LEN or in NET (10_state.md R24). -/
theorem State.writeIdle_writable :
    s.writeIdle slot d = { s.storeSlot slot d with netValid := s.netValid && !slot.isNet } := by
  cases slot with
  | reg r =>
    cases r with
    | id | status | errcode => cases hr
    | cmd => exact absurd rfl hc
    | netLen => simp only [Slot.isNet, Bool.not_true, Bool.and_false]; rfl
    | _ => simp only [Slot.isNet, Bool.not_false, Bool.and_true]; rfl
  | elem b i =>
    cases b with
    | ckw | exp => cases hr
    | net => simp only [Slot.isNet, Bool.not_true, Bool.and_false]; rfl
    | _ => simp only [Slot.isNet, Bool.not_false, Bool.and_true]; rfl

theorem State.slotValue_storeSlot_same (hm : s.mem.wf = true) :
    (s.storeSlot slot d).slotValue slot = d &&& slot.usedBits := by
  cases slot with
  | reg r => exact s.regValue_storeReg_same (Reg.isData_of_writable hc hr) d
  | elem b i => exact (congrArg (BitVec.setWidth 32) (State.elem_setElem_same hm b i _)).trans (setWidth_byte_datum d)

theorem Frame.storeSlot : Frame slot.regs slot.bytes s (s.storeSlot slot d) := by
  cases slot with
  | reg r => exact .storeReg s (Reg.isData_of_writable hc hr) d
  | elem b i => exact .setElem s b i _

end

/-- What counts as written after a write to one slot (10_state.md R50). -/
theorem Frame.mem_written {s u : State} {slot : Slot} (hf : Frame slot.regs slot.bytes s u) (o : Nat) :
    o ∈ u.written ↔ o ∈ s.written ∨ o = slot.offset := by
  obtain ⟨_, _, hw, _⟩ := hf
  cases slot <;> simpa [Slot.regs, Slot.bytes, Slot.offset] using hw o

/-- A write to one slot leaves every other slot's value but STATUS, which shows NET_VALID. -/
theorem Frame.slotValue_other {s u : State} {slot other : Slot} (hf : Frame slot.regs slot.bytes s u)
    (he : u.errcode = s.errcode) (hm : slot.mapped = true) (ho : other.mapped = true) (hne : other ≠ slot)
    (hst : other ≠ .reg .status) : u.slotValue other = s.slotValue other := by
  obtain ⟨hreg, hmem, _, _⟩ := hf
  cases other with
  | reg q =>
    have hq : q ∉ slot.regs := by
      cases slot with
      | reg r => exact fun h => hne (congrArg Slot.reg (List.mem_singleton.mp h))
      | elem b i => exact List.not_mem_nil
    cases q with
    | id | cmd => rfl
    | status => exact absurd rfl hst
    | errcode => exact congrArg (BitVec.setWidth 32) he
    | _ => exact hreg _ rfl hq
  | elem c j =>
    refine congrArg (BitVec.setWidth 32) (hmem _ fun hj => ?_)
    cases slot with
    | reg r => cases hj
    | elem b i => exact hne (Slot.offset_inj ho hm (List.mem_singleton.mp hj))

section
variable (s : State) (slot : Slot) (d : Datum)

@[simp] theorem State.storeSlot_pend : (s.storeSlot slot d).pend = s.pend := by cases slot <;> simp [State.storeSlot]
@[simp] theorem State.storeSlot_done : (s.storeSlot slot d).done = s.done := by cases slot <;> simp [State.storeSlot]
@[simp] theorem State.storeSlot_err : (s.storeSlot slot d).err = s.err := by cases slot <;> simp [State.storeSlot]
@[simp] theorem State.storeSlot_errcode : (s.storeSlot slot d).errcode = s.errcode := by
  cases slot <;> simp [State.storeSlot]

end

/-- NET_VALID shows in STATUS only (10_state.md R24). -/
theorem State.slotValue_withNetValid (s : State) (v : Bool) {slot : Slot} (h : slot ≠ .reg .status) :
    State.slotValue { s with netValid := v } slot = s.slotValue slot := by
  cases slot with
  | reg r =>
    cases r with
    | status => exact absurd rfl h
    | _ => rfl
  | elem b i => rfl

/-- A 32-bit host write to a mapped offset while nothing is pending, as a step. -/
theorem step_hostWrite_idle {s : State} {off : Offset} {d : Datum} {rest : List HostStmt} {slot : Slot}
    (hp : s.pend = none) (hh : s.host = .wr .w32 off d :: rest) (hs : slotAt off.toNat = some slot) :
    step s = .next (State.writeIdle { s with host := rest } slot d) := by
  have hn : HostNext s := fun p h => by simp [hp] at h
  have ha : s.advance rest = { s with host := rest } := by simp [State.advance, State.tick, hp]
  simp [step_of_hostNext hn, hostStep, hh, busWrite, accessSlot, hs, ha, State.writeSlot, State.busy, hp]

/-- Settles O9: the step is `State.writeIdle`, which ignores a read-only slot and otherwise stores in one slot. -/
theorem hostWritesStoreTheUsedBits : Obligations.HostWritesStoreTheUsedBits := by
  intro s off d rest slot hp hmem hh hs hc
  obtain ⟨hm, -⟩ := slotAt_spec hs
  have hstep := step_hostWrite_idle hp hh hs
  cases hr : slot.readOnly with
  | true =>
    rw [State.writeIdle_readOnly _ hr] at hstep
    exact ⟨_, hstep, rfl, fun _ => rfl, nofun⟩
  | false =>
    have hf := Frame.storeSlot { s with host := rest } hc hr d
    have ⟨_, _, _, hovr, hhost, hlog, hdraws, huse⟩ := hf
    rw [State.writeIdle_writable _ hc hr] at hstep
    have hst : slot ≠ .reg .status := by rintro rfl; cases hr
    refine ⟨_, hstep, hhost, nofun, fun _ =>
      ⟨?_, fun other ho hne hos => ?_, hf.mem_written, rfl, ?_⟩⟩
    · rw [State.slotValue_withNetValid _ _ hst]
      exact State.slotValue_storeSlot_same _ hc hr d hmem
    · rw [State.slotValue_withNetValid _ _ hos, hf.slotValue_other (State.storeSlot_errcode ..) hm ho hne hos]
      rfl
    · exact ⟨by simp [hp], by simp, by simp, by simp, hovr, hdraws, hlog, huse⟩

/-! ### STATUS and the reset state -/

/-- STATUS's five bits, from the lowest (10_state.md R24). -/
theorem statusBits_toNat (ovr net err done busy : Bool) :
    ((0 : BitVec 27) ++ (BitVec.ofBool ovr ++ (BitVec.ofBool net ++ (BitVec.ofBool err ++
      (BitVec.ofBool done ++ BitVec.ofBool busy))))).toNat =
    (if busy then 1 else 0) + (if done then 2 else 0) + (if err then 4 else 0) + (if net then 8 else 0) +
      (if ovr then 16 else 0) := by
  revert ovr net err done busy
  decide

/-- BUSY is 1 exactly when a command is pending (10_state.md R38). -/
theorem State.busy_iff {s : State} : s.busy = true ↔ s.pend ≠ none := Option.isSome_iff_ne_none

/-- Settles O11: the five flags are STATUS's bits 0 to 4, BUSY taken from PEND. -/
theorem statusWordLayout : Obligations.StatusWordLayout := by
  intro s
  have hb : (if s.pend = none then 0 else 1) = if s.busy then 1 else 0 := by simp [State.busy_iff]
  rw [hb]
  exact statusBits_toNat s.ovr s.netValid s.err s.done s.busy

/-- Settles O13: each value stands in `State.reset`. -/
theorem resetStateValues : Obligations.ResetStateValues :=
  ⟨by decide, by decide, rfl, rfl, rfl⟩

/-- Settles O14: nothing is listed or written, the flags and ERRCODE are clear, and every CKW element reads as 0. -/
theorem resetMeetsTheInvariant : Obligations.ResetMeetsTheInvariant where
  memWf := rfl
  writtenWf := rfl
  memMapped _ hc := by cases hc
  writtenMapped _ ho := by cases ho
  netLower hv := by cases hv
  errcodeBound := by decide
  busyClears hp := by cases hp
  errNeedsDone he := by cases he
  errMatchesCode hd := by cases hd
  ckwWords _ _ := rfl

/-! ### The UNWRITTEN mark -/

/-- A completion leaves what no command touches: OVR, the host, its log, the draw counter and the mark. -/
theorem exec_outsideKept {i : Instr} {s t : State} (h : exec i s = .next t) : OutsideKept s t := by
  rcases exec_cases h with ⟨u, hw, rfl⟩ | ⟨e, he, rfl⟩
  · exact hw.outside
  · obtain ⟨_, _, _, ho⟩ := Frame.raise_onError i s he
    exact ho

/-- A host write leaves the mark. -/
theorem State.writeSlot_unwrittenUse (s : State) (slot : Slot) (d : Datum) :
    (s.writeSlot slot d).unwrittenUse = s.unwrittenUse := by
  unfold State.writeSlot
  split
  · split <;> rfl
  · by_cases hc : slot = .reg .cmd
    · subst hc; rfl
    · cases hr : slot.readOnly with
      | true => rw [State.writeIdle_readOnly s hr]
      | false =>
        obtain ⟨_, _, _, _, _, _, _, huse⟩ := Frame.storeSlot s hc hr d
        rw [State.writeIdle_writable s hc hr]
        exact huse

/-- A host statement leaves the mark, a reset included (10_state.md R50). -/
theorem hostStep_unwrittenUse {s t : State} (h : hostStep s = .next t) : t.unwrittenUse = s.unwrittenUse := by
  rcases hostStep_cases h with ⟨-, rfl⟩ | ⟨off, rest, slot, -, -, rfl⟩ | ⟨off, d, rest, slot, -, -, rfl⟩ |
    ⟨rest, -, rfl⟩ | ⟨rest, -, rfl⟩
  · rfl
  · unfold State.readSlot
    split <;> rfl
  · exact State.writeSlot_unwrittenUse _ slot d
  · unfold State.poll
    dsimp only
    split <;> rfl
  · rfl

theorem EngineNext.due {s : State} {p : Pending} (h : EngineNext s p) : (p.delay == 0 || s.host.isEmpty) = true := by
  simpa using h.2

/-- An illegal word completes without reading anything (60_exceptions.md R244). -/
theorem EngineNext.entersUnwritten_illegal {s : State} {p : Pending} {e : Illegal} (h : EngineNext s p)
    (hd : decode p.word = .error e) : entersUnwritten s = false := by
  simp [entersUnwritten, h.1, h.due, hd]

theorem EngineNext.entersUnwritten_legal {s : State} {p : Pending} {i : Instr} (h : EngineNext s p)
    (hd : decode p.word = .ok i) : entersUnwritten s = readsUnwritten i s := by
  simp [entersUnwritten, h.1, h.due, hd]

theorem HostNext.entersUnwritten {s : State} (h : HostNext s) : entersUnwritten s = false := by
  refine Bool.eq_false_iff.mpr fun he => ?_
  obtain ⟨p, _, hp, _⟩ := entersUnwritten_iff.mp he
  exact hp.not_hostNext h

/-- Whichever agent moves, the mark is set after a step exactly when it was set before or the spec's model enters
UNWRITTEN there (10_state.md R50, 60_exceptions.md R261). -/
theorem step_unwrittenUse {s t : State} (h : step s = .next t) :
    t.unwrittenUse = (s.unwrittenUse || entersUnwritten s) := by
  rcases step_cases h with ⟨p, hp, h⟩ | ⟨hn, h⟩
  · rcases completeCommand_cases h with ⟨e, hd, rfl⟩ | ⟨i, hd, hx⟩
    · rw [hp.entersUnwritten_illegal hd, Bool.or_false]
      rfl
    · obtain ⟨_, _, _, _, huse⟩ := exec_outsideKept hx
      rw [hp.entersUnwritten_legal hd, huse, State.noteReads_unwrittenUse]
  · rw [hn.entersUnwritten, Bool.or_false, hostStep_unwrittenUse h]

/-- Settles O18: the mark's equation `step_unwrittenUse`, and the two answers of the spec's model. -/
theorem unwrittenMarkIsExactAndNeverCleared : Obligations.UnwrittenMarkIsExactAndNeverCleared := by
  refine ⟨fun s t p i hp hd h => ?_, fun s t h hn => ?_, fun s t h hs => ?_, fun s => ?_, fun s t => ?_⟩
  · rw [step_unwrittenUse h, hp.entersUnwritten_legal hd, Bool.or_eq_true, readsUnwritten_iff]
  · rw [step_unwrittenUse h, hn.entersUnwritten, Bool.or_false]
  · rw [step_unwrittenUse h, hs, Bool.true_or]
  · rw [modelStep_unwritten_iff, entersUnwritten_iff]
  · rw [modelStep_next_iff]
    constructor
    · rintro ⟨hs, he, h⟩
      exact ⟨h, by rw [step_unwrittenUse h, hs, he]; rfl⟩
    · rintro ⟨h, ht⟩
      rw [step_unwrittenUse h, Bool.or_eq_false_iff] at ht
      exact ⟨ht.1, ht.2, h⟩

end Sys2Proof.Machine
end

section
/-! PROOFS (20_memory.md). O8: which offsets of the window are mapped, and that a host access stops with BUSERR exactly
where it reaches no slot. The map's own laws (`slotAt_spec`, `slotAt_offset`) reduce it to which slots exist; what is left
is the arithmetic of the two ways a slot can exist, as a register or as a buffer element. -/

namespace Sys2Proof.Machine

/-! ### The mapped offsets (20_memory.md R62) -/

/-- The four ranges of the window in which nothing is mapped (20_memory.md R62). -/
def Unmapped (o : Nat) : Prop :=
  (0x048 ≤ o ∧ o ≤ 0x0FF) ∨ (0x540 ≤ o ∧ o ≤ 0x5FF) ∨ (0xC20 ≤ o ∧ o ≤ 0xC3F) ∨ 0xC60 ≤ o

/-- An offset is that of a slot exactly when the slot exists there. -/
theorem slotAt_ne_none_iff {o : Nat} : slotAt o ≠ none ↔ ∃ slot : Slot, slot.mapped = true ∧ slot.offset = o := by
  constructor
  · intro h
    obtain ⟨slot, hs⟩ := Option.ne_none_iff_exists'.mp h
    exact ⟨slot, slotAt_spec hs⟩
  · rintro ⟨slot, hm, rfl⟩
    rw [slotAt_offset hm]
    exact Option.some_ne_none slot

/-- The registers fill the aligned offsets from 0x000 to 0x044 (10_state.md R21). -/
theorem Reg.exists_offset_iff {o : Nat} : (∃ r : Reg, r.offset = o) ↔ o % 4 = 0 ∧ o < 0x048 := by
  constructor
  · rintro ⟨r, rfl⟩
    cases r <;> decide
  · rintro ⟨h4, hlt⟩
    have hall : ∀ k < 18, ∃ r ∈ Reg.all, r.offset = 4 * k := by decide
    obtain ⟨r, -, hr⟩ := hall (o / 4) (by omega)
    exact ⟨r, by omega⟩

/-- A buffer's elements fill the aligned offsets of its range (10_state.md R34). -/
theorem Buf.exists_slot_iff (b : Buf) {o : Nat} :
    (∃ i, i < b.cap ∧ b.slot i = o) ↔ o % 4 = 0 ∧ b.base ≤ o ∧ o < b.base + 4 * b.cap := by
  have hbase : b.base % 4 = 0 := by cases b <;> rfl
  unfold Buf.slot
  constructor
  · rintro ⟨i, hi, rfl⟩
    omega
  · rintro ⟨h4, hle, hlt⟩
    exact ⟨(o - b.base) / 4, by omega, by omega⟩

theorem Buf.exists_iff {p : Buf → Prop} :
    (∃ b, p b) ↔ p .pfx ∨ p .net ∨ p .hash ∨ p .bytes ∨ p .words ∨ p .str ∨ p .ckw ∨ p .exp := by
  constructor
  · rintro ⟨b, hb⟩
    cases b <;> simp [hb]
  · rintro (h | h | h | h | h | h | h | h) <;> exact ⟨_, h⟩

/-- PFX to BYTES, WORDS to CKW, and EXP are the three runs of offsets the buffers' ranges make up (10_state.md R34). -/
theorem Buf.exists_range_iff {o : Nat} : (∃ b : Buf, b.base ≤ o ∧ o < b.base + 4 * b.cap) ↔
    (0x100 ≤ o ∧ o < 0x540) ∨ (0x600 ≤ o ∧ o < 0xC20) ∨ (0xC40 ≤ o ∧ o < 0xC60) := by
  simp only [Buf.exists_iff, Buf.base, Buf.cap, Config.capPfx, Config.capNet, Config.capHash, Config.capBytes,
    Config.capWords, Config.capStr, Config.nCk]
  omega

/-- A slot is a register or an existing element. -/
theorem Slot.exists_mapped_iff {o : Nat} : (∃ slot : Slot, slot.mapped = true ∧ slot.offset = o) ↔
    (∃ r : Reg, r.offset = o) ∨ ∃ b : Buf, ∃ i, i < b.cap ∧ b.slot i = o := by
  constructor
  · rintro ⟨slot, hm, ho⟩
    cases slot with
    | reg r => exact .inl ⟨r, ho⟩
    | elem b i => exact .inr ⟨b, i, of_decide_eq_true hm, ho⟩
  · rintro (⟨r, ho⟩ | ⟨b, i, hi, ho⟩)
    · exact ⟨.reg r, rfl, ho⟩
    · exact ⟨.elem b i, decide_eq_true hi, ho⟩

/-- No slot stands at an offset exactly when it is misaligned or lies in an unmapped range (20_memory.md R61, R62). -/
theorem slotAt_eq_none_iff {o : Nat} : slotAt o = none ↔ o % 4 ≠ 0 ∨ Unmapped o := by
  have hsome : slotAt o ≠ none ↔ o % 4 = 0 ∧ ¬ Unmapped o := by
    simp only [slotAt_ne_none_iff, Slot.exists_mapped_iff, Reg.exists_offset_iff, Buf.exists_slot_iff,
      exists_and_left, Buf.exists_range_iff, Unmapped]
    omega
  rw [← not_iff_not, not_or, Decidable.not_not]
  exact hsome

/-! ### The host's access -/

theorem accessSlot_eq_none_iff {width : Width} {off : Offset} :
    accessSlot width off = none ↔ width ≠ .w32 ∨ off.toNat % 4 ≠ 0 ∨ Unmapped off.toNat := by
  rw [← slotAt_eq_none_iff, accessSlot]
  by_cases hw : width = .w32 <;> simp [hw]

/-- An access that reaches no slot is a bus error, whether it reads or writes (20_memory.md R61). -/
theorem step_hostAccess_none {s : State} {width : Width} {off : Offset} {rest : List HostStmt} (hn : HostNext s)
    (hh : s.host = .rd width off :: rest ∨ ∃ d, s.host = .wr width off d :: rest) (ha : accessSlot width off = none) :
    step s = .fault .busErr := by
  rw [step_of_hostNext hn]
  rcases hh with hh | ⟨d, hh⟩
  · simp only [hostStep, hh, busRead, ha]
  · simp only [hostStep, hh, busWrite, ha]

/-- An access that reaches a slot is answered, whether it reads or writes. -/
theorem step_hostAccess_some {s : State} {width : Width} {off : Offset} {rest : List HostStmt} {slot : Slot}
    (hn : HostNext s) (hh : s.host = .rd width off :: rest ∨ ∃ d, s.host = .wr width off d :: rest)
    (ha : accessSlot width off = some slot) : ∃ t, step s = .next t := by
  rw [step_of_hostNext hn]
  rcases hh with hh | ⟨d, hh⟩
  · exact ⟨(s.advance rest).readSlot off slot, by simp only [hostStep, hh, busRead, ha]⟩
  · exact ⟨(s.advance rest).writeSlot slot d, by simp only [hostStep, hh, busWrite, ha]⟩

/-- Settles O8: the refused accesses are those that reach no slot. -/
theorem busErrorsAreExactlyTheRefusedAccesses : Obligations.BusErrorsAreExactlyTheRefusedAccesses := by
  intro s width off rest hn hh
  refine ⟨fun hr => step_hostAccess_none hn hh (accessSlot_eq_none_iff.mpr hr), fun hr => ?_⟩
  obtain ⟨slot, hs⟩ := Option.ne_none_iff_exists'.mp (mt accessSlot_eq_none_iff.mp hr)
  exact step_hostAccess_some hn hh hs

end Sys2Proof.Machine
end

section
/-! PROOFS (30_encoding.md). O1, O2, O3, O10, O22. A word is its three fields (`eq_of_fields_eq`), and decoding is a
condition on each of them (`decode_eq_ok_iff`): whether a word is legal, and which command it is, both follow. What a
completion may write is one lemma over all commands, `exec_frame`. -/

namespace Sys2Proof.Machine

/-! ### The fields of a command word (30_encoding.md R80) -/

theorem opcOf_toNat (w : Datum) : (opcOf w).toNat = w.toNat % 256 := by
  simp [opcOf, BitVec.extractLsb'_toNat]

theorem nopfxOf_iff {w : Datum} : nopfxOf w = true ↔ w.toNat / 256 % 2 = 1 := by
  simp [nopfxOf, BitVec.getLsbD, Nat.testBit_eq_decide_div_mod_eq]

theorem rsvOf_toNat (w : Datum) : (rsvOf w).toNat = w.toNat / 512 := by
  simp only [rsvOf, BitVec.extractLsb'_toNat, Nat.shiftRight_eq_div_pow]
  omega

theorem rsvOf_eq_zero_iff {w : Datum} : rsvOf w = 0 ↔ w.toNat / 512 = 0 := by
  rw [← rsvOf_toNat, BitVec.toNat_eq]
  rfl

/-- The three fields are the whole word. -/
theorem eq_of_fields_eq {v w : Datum} (hr : rsvOf v = rsvOf w) (hn : nopfxOf v = nopfxOf w) (ho : opcOf v = opcOf w) :
    v = w := by
  have hrsv := congrArg BitVec.toNat hr
  have hopc := congrArg BitVec.toNat ho
  have hnopfx : nopfxOf v = true ↔ nopfxOf w = true := by rw [hn]
  rw [rsvOf_toNat, rsvOf_toNat] at hrsv
  rw [opcOf_toNat, opcOf_toNat] at hopc
  rw [nopfxOf_iff, nopfxOf_iff] at hnopfx
  exact BitVec.eq_of_toNat_eq (by omega)

@[simp] theorem rsvOf_encode (i : Instr) : rsvOf (encode i) = 0 := BitVec.extractLsb'_append_eq_left

@[simp] theorem nopfxOf_encode (i : Instr) : nopfxOf (encode i) = nopfxBit i := by
  cases i with
  | frmEnc n | addrEncraw n | addrEnc n => cases n <;> rfl
  | _ => rfl

@[simp] theorem opcOf_encode (i : Instr) : opcOf (encode i) = opcode i := by
  cases i with
  | frmEnc n | addrEncraw n | addrEnc n => cases n <;> rfl
  | _ => rfl

theorem eq_encode_iff {w : Datum} {i : Instr} :
    w = encode i ↔ rsvOf w = 0 ∧ nopfxOf w = nopfxBit i ∧ opcOf w = opcode i := by
  constructor
  · rintro rfl
    simp
  · rintro ⟨hr, hn, ho⟩
    exact eq_of_fields_eq (by simp [hr]) (by simp [hn]) (by simp [ho])

/-! ### The opcode map and decoding (R83 to R85) -/

/-- A command stands in the map at its own code only. -/
theorem eq_opcode_of_opcodeMap {opc : BitVec 8} {nopfx : Bool} {i : Instr} (h : opcodeMap opc nopfx = some i) :
    opc = opcode i := by
  unfold opcodeMap at h
  split at h <;> cases h <;> exact BitVec.eq_of_toNat_eq ‹_›

/-- At its code a command is found, and passes R84's check on NOPFX, exactly with its own NOPFX bit. -/
theorem opcodeMap_opcode_iff (i : Instr) (nopfx : Bool) :
    opcodeMap (opcode i) nopfx = some i ∧ (nopfx = true → nopfxLegal (opcode i) = true) ↔ nopfx = nopfxBit i := by
  cases i with
  | frmEnc n | addrEncraw n | addrEnc n => simp [opcodeMap, opcode, nopfxBit, nopfxLegal]
  | _ => simp [opcodeMap, opcode, nopfxBit, nopfxLegal]

/-- The three checks of R85. -/
theorem decode_eq_ok_iff {w : Datum} {i : Instr} : decode w = .ok i ↔
    rsvOf w = 0 ∧ opcodeMap (opcOf w) (nopfxOf w) = some i ∧ (nopfxOf w = true → nopfxLegal (opcOf w) = true) := by
  unfold decode
  by_cases hr : rsvOf w = 0
  · cases opcodeMap (opcOf w) (nopfxOf w) with
    | none => simp [hr]
    | some j => cases nopfxOf w <;> cases nopfxLegal (opcOf w) <;> simp [hr]
  · simp only [bne_iff_ne, ne_eq, hr, not_false_eq_true, if_true, reduceCtorEq, false_and]

/-- Settles O1: the checks of R85 say of each field that it is the command's. -/
theorem decodeExactlyInvertsEncode : Obligations.DecodeExactlyInvertsEncode := by
  intro w i
  rw [decode_eq_ok_iff, eq_encode_iff]
  constructor
  · rintro ⟨hr, hm, hl⟩
    have ho := eq_opcode_of_opcodeMap hm
    rw [ho] at hm hl
    exact ⟨hr, (opcodeMap_opcode_iff i _).mp ⟨hm, hl⟩, ho⟩
  · rintro ⟨hr, hn, ho⟩
    rw [ho]
    exact ⟨hr, (opcodeMap_opcode_iff i _).mpr hn⟩

theorem decode_encode (i : Instr) : decode (encode i) = .ok i := (decodeExactlyInvertsEncode _ i).mpr rfl

/-- Settles O3: each word is its command's. -/
theorem sampleWordsDecode : Obligations.SampleWordsDecode :=
  ⟨decode_encode .cfgNet, decode_encode .chrEnc, decode_encode .cvt5to8, decode_encode .polyFeedw,
    decode_encode (.frmEnc true), decode_encode .vbEncts, decode_encode (.addrEnc false), decode_encode .addrDecraw⟩

/-! ### Illegal words (R84, 60_exceptions.md R244) -/

/-- The 21 command codes (R83). -/
def opcodes : List Nat :=
  [0x01, 0x10, 0x11, 0x18, 0x19, 0x20, 0x21, 0x22, 0x23, 0x24, 0x28, 0x30, 0x31, 0x38, 0x39, 0x3A, 0x3B, 0x40, 0x41,
    0x42, 0x43]

theorem opcodeMap_eq_none_iff {opc : BitVec 8} {nopfx : Bool} :
    opcodeMap opc nopfx = none ↔ opc.toNat ∉ opcodes := by
  unfold opcodeMap
  split <;> simp_all [opcodes]

theorem nopfxLegal_iff {opc : BitVec 8} : nopfxLegal opc = true ↔ opc.toNat ∈ [0x30, 0x40, 0x41] := by
  simp [nopfxLegal, ← BitVec.toNat_inj, or_assoc]

/-- A word is illegal when one of R85's checks fails. -/
theorem decode_eq_error_iff {w : Datum} : (∃ e, decode w = .error e) ↔
    opcodeMap (opcOf w) (nopfxOf w) = none ∨ (nopfxOf w = true ∧ ¬ nopfxLegal (opcOf w) = true) ∨ ¬ rsvOf w = 0 := by
  have hnot : (∃ e, decode w = .error e) ↔ ¬ ∃ i, decode w = .ok i := by cases decode w <;> simp
  rw [hnot]
  simp only [decode_eq_ok_iff, exists_and_left, exists_and_right, ← Option.ne_none_iff_exists']
  tauto

/-- The completion of an illegal word (R84). -/
theorem step_of_illegal {s : State} {p : Pending} {e : Illegal} (h : EngineNext s p) (hd : decode p.word = .error e) :
    step s = .next (s.raise .illegalCommand) := by
  rw [step_of_engineNext h, completeCommand, hd]

/-- Settles O2: R85's checks in numbers; the CMD write is accepted whatever its word; the completion is an error. -/
theorem illegalWordsEndInIllegalCommand : Obligations.IllegalWordsEndInIllegalCommand := by
  refine ⟨fun w => ?_, fun s w rest hp hh => ?_, fun s p hp ⟨e, hd⟩ => ?_⟩
  · rw [decode_eq_error_iff, opcodeMap_eq_none_iff, nopfxOf_iff, nopfxLegal_iff, rsvOf_eq_zero_iff, opcOf_toNat]
    rfl
  · exact ⟨_, _, step_hostWrite_idle hp hh (slot := .reg .cmd) rfl, rfl⟩
  · exact ⟨_, step_of_illegal hp hd, .raise s _, .raise s _, State.raise_netValid s _⟩

/-! ### A command's outputs (R83) -/

/-- A completion writes at most the command's output registers and buffers, EXP on ChecksumMismatch, and NET_VALID only
in CFG.NET. -/
theorem exec_frame {i : Instr} {s t : State} (hi : s.Inv) (h : exec i s = .next t) :
    ∃ regs slots, Frame regs slots s t ∧ regs ⊆ outputRegs i ∧
      Fits (outputBufs i ++ if t.errcode = 10 then [.exp] else []) slots ∧
      (i ≠ .cfgNet → t.netValid = s.netValid) := by
  rcases exec_cases h with ⟨u, hw, rfl⟩ | ⟨e, he, rfl⟩
  · obtain ⟨slots, hu, hs, hn⟩ := hw.frame hi
    have hf := hu.trans (Frame.complete u 0)
    rw [List.append_nil, List.append_nil] at hf
    refine ⟨_, _, hf, List.Subset.refl _, hs.mono (by simp), fun hc => ?_⟩
    rw [State.finish_netValid, hn, if_neg hc]
  · refine ⟨_, _, Frame.raise_onError i s he, List.nil_subset _, ?_, fun hc => ?_⟩
    · rw [State.raise_errcode]
      split
      · exact (fits_slots (b := .exp) (Nat.le_refl 8)).mono (by simp)
      · exact .nil _
    · rw [State.raise_netValid, onError_netValid, if_neg hc]

/-- Settles O22: what lies outside the frame of `exec_frame` is kept. -/
theorem commandsWriteOnlyTheirOutputs : Obligations.CommandsWriteOnlyTheirOutputs := by
  intro i s t hi h
  obtain ⟨regs, slots, hf, hregs, hs, hn⟩ := exec_frame hi h
  have ⟨hreg, _, _, ho⟩ := hf
  refine ⟨fun r hd hr => hreg r hd fun hm => hr (hregs hm), fun b k hk hb he => hf.elem_kept hs ?_ hk, hn, ho⟩
  rw [List.mem_append, not_or]
  refine ⟨hb, ?_⟩
  split
  · next hc => exact fun hm => he (List.mem_singleton.mp hm) hc
  · exact List.not_mem_nil

/-! ### WAIT (R87) -/

@[simp] theorem State.tick_busy (s : State) : s.tick.busy = s.busy := by simp [State.busy]

@[simp] theorem State.tick_status (s : State) : s.tick.status = s.status := by simp [State.status]

/-- A poll logs STATUS, and takes the statement off the queue when BUSY = 0. -/
theorem State.poll_eq (s : State) (rest : List HostStmt) : s.poll rest =
    { s with host := if s.busy then s.host else rest,
             readLog := { off := 0x008, value := s.status } :: s.readLog } := by
  cases hb : s.busy <;> simp only [State.poll, hb] <;> rfl

/-- Settles O10: a turn of WAIT is one poll, and the host with no statement left idles. -/
theorem waitPollsUntilIdleAndIdleHolds : Obligations.WaitPollsUntilIdleAndIdleHolds := by
  refine ⟨fun s rest hn hh => ?_, fun s hp hh => HostNext.idle (fun p h => by simp [hp] at h) hh⟩
  rw [step_of_hostNext hn, hostStep, hh]
  simp only [State.poll_eq, State.tick_busy, State.tick_status, ← hh]
  rfl

end Sys2Proof.Machine
end

section
/-! PROOFS (41_charset.md). O23, O27, O28, O29, O30. The table is read through two facts: the character of a word in
range stands at the word's position (`charset_getElem?`), and `CharIndex` fails exactly outside the table
(`charIndex_eq_none_iff`). For O23 every command is a composition of writes that each keep the range of WORDS
(`KeepsWordRange`). -/

namespace Sys2Proof.Machine

/-! ### The table (R100, R103) -/

theorem charset_length : charset.length = 32 := rfl

/-- The character of a word in range stands at the word's position. -/
theorem charset_getElem? {w : Byte} (h : wordOk w = true) : charset[w.toNat]? = some (charAt w) := by
  have hw := (wordOk_iff w).mp h
  have hl : w.toNat < charset.length := by rw [charset_length]; omega
  rw [charAt, List.getD_eq_getElem _ _ hl, List.getElem?_eq_getElem hl]

theorem charIndex_eq_none_iff {c : Byte} : charIndex c = none ↔ c ∉ charset := by
  simp only [charIndex, Option.map_eq_none_iff, List.findIdx?_eq_none_iff, beq_eq_false_iff_ne]
  exact ⟨fun h hc => h c hc rfl, fun h x hx he => h (he ▸ hx)⟩

/-- Settles O27: the table and the text are compared, and a word in range is read at its position. -/
theorem charsetIsTheAlphabet : Obligations.CharsetIsTheAlphabet :=
  ⟨charset_length, by decide, fun w hw => charset_getElem? ((wordOk_iff w).mpr hw)⟩

/-! ### The codec (R101, R104, R106) -/

/-- Characters of the alphabet decode (R104). -/
theorem charDec_ok {cs : List Byte} (h : ∀ c ∈ cs, c ∈ charset) : ∃ ws, charDec cs = .ok ws := by
  induction cs with
  | nil => exact ⟨[], rfl⟩
  | cons c cs ih =>
    rw [List.forall_mem_cons] at h
    obtain ⟨hc, hcs⟩ := h
    obtain ⟨w, hw⟩ := Option.ne_none_iff_exists'.mp fun hn => charIndex_eq_none_iff.mp hn hc
    obtain ⟨ws, hws⟩ := ih hcs
    exact ⟨w :: ws, by simp only [charDec, hw, hws]; rfl⟩

/-- Settles O28: on words in range, and on alphabet characters, each map undoes the other. -/
theorem charsetCodecIsABijection : Obligations.CharsetCodecIsABijection := by
  refine ⟨fun ws hws => ?_, fun str hstr => ?_⟩
  · have hok : ∀ w ∈ ws, wordOk w = true := fun w hw => (wordOk_iff w).mpr (hws w hw)
    exact ⟨_, charEnc_ok hok, charDec_map_charAt hok⟩
  · obtain ⟨ws, hd⟩ := charDec_ok hstr
    obtain ⟨hmap, hok⟩ := charDec_eq_ok hd
    exact ⟨ws, hd, hmap ▸ charEnc_ok hok⟩

/-! ### A command whose one output is a sequence -/

/-- A command that ends by storing a sequence writes its elements and its length register, and nothing else. -/
theorem succeeds_setSeq {i : Instr} {s : State} {r : Except Err State} {b : Buf} {reg : Reg} {vs : List Byte}
    (he : exec i s = conclude s r) (hr : r = .ok (s.setSeq b vs)) (hb : b.lenReg = some reg) :
    Succeeds i s [reg] (slotsOf b vs.length) (s.setSeq b vs).finish :=
  succeeds_of_result he hr (Frame.setSeq s hb vs) (by simp [State.setSeq])

@[simp] theorem State.setSeq_elem (s : State) (b c : Buf) (vs : List Byte) (k : Nat) :
    (s.setSeq b vs).elem c k = (s.setElems b vs).elem c k := State.setLen_elem _ _ _ _ _

/-! ### CHR.ENC (R102) -/

section
variable {s : State}

theorem chrEncResult_of_long (hl : 128 < s.wordLen.toNat) : chrEncResult s = .error .lengthExceeded := by
  have hlen : ¬ s.lengthOk .words = true := fun h => Nat.not_le.mpr hl (State.lengthOk_iff.mp h)
  rw [chrEncResult, require_bind, if_neg hlen]

/-- With the length in range `CharEnc` decides. -/
theorem chrEncResult_of_fits (hl : s.wordLen.toNat ≤ 128) :
    chrEncResult s = charEnc (s.input .words) >>= fun str => pure (s.setSeq .str str) := by
  have hlen : s.lengthOk .words = true := State.lengthOk_iff.mpr hl
  rw [chrEncResult, require_bind, if_pos hlen]

theorem failsWith_chrEnc {e : Err} (hr : chrEncResult s = .error e) (he : e.code ≠ 10) :
    ∃ t, FailsWith .chrEnc s e.code.toNat t := failsWith_of_result rfl hr he

end

/-- Settles O29: the length check, then what `CharEnc` does with words in range and out of range. -/
theorem chrEncMapsWordsToCharacters : Obligations.ChrEncMapsWordsToCharacters := by
  refine ⟨decode_encode .chrEnc, fun s hm => ⟨fun hl => ?_, fun hl hbad => ?_, fun hl hok => ?_⟩⟩
  · exact failsWith_chrEnc (chrEncResult_of_long hl) (by decide)
  · have hw : ∃ w ∈ s.input .words, wordOk w = false :=
      State.exists_mem_seq (P := fun w => wordOk w = false) (by simpa [wordOk, State.len] using hbad)
    exact failsWith_chrEnc (by rw [chrEncResult_of_fits hl, charEnc_error hw, error_bind]) (by decide)
  · have hw : ∀ k < s.wordLen.toNat, wordOk (s.elem .words k) = true := fun k hk => (wordOk_iff _).mpr (hok k hk)
    have hlen : ((s.input .words).map charAt).length = s.wordLen.toNat := by simp [State.len]
    have hin : ∀ w ∈ s.input .words, wordOk w = true := State.forall_mem_seq hw
    have hr : chrEncResult s = .ok (s.setSeq .str ((s.input .words).map charAt)) := by
      rw [chrEncResult_of_fits hl, charEnc_ok hin, ok_bind, pure_eq_ok]
    have hs := succeeds_setSeq (i := .chrEnc) (b := .str) rfl hr rfl
    rw [hlen] at hs
    refine ⟨_, hs, (State.len_setSeq s (b := .str) rfl _ (by omega)).trans hlen, fun k hk => ?_⟩
    rw [charset_getElem? (hw k hk), State.finish_elem, State.setSeq_elem,
      State.elem_setElems_at hm _ _ _ (by omega), List.getElem_map]
    simp [State.input]

/-! ### CHR.DEC (R105) -/

section
variable {s : State}

theorem chrDecResult_of_long (hl : 256 < s.strLen.toNat) : chrDecResult s = .error .lengthExceeded := by
  have hlen : ¬ s.lengthOk .str = true := fun h => Nat.not_le.mpr hl (State.lengthOk_iff.mp h)
  rw [chrDecResult, require_bind, if_neg hlen]

/-- With the input length in range `CharDec` decides, and then whether its words fit. -/
theorem chrDecResult_of_fits (hl : s.strLen.toNat ≤ 256) : chrDecResult s = charDec (s.input .str) >>= fun ws =>
    if ws.length ≤ 128 then .ok (s.setSeq .words ws) else .error .lengthExceeded := by
  have hlen : s.lengthOk .str = true := State.lengthOk_iff.mpr hl
  rw [chrDecResult, require_bind, if_pos hlen]
  simp only [require_bind, decide_eq_true_eq]
  rfl

theorem failsWith_chrDec {e : Err} (hr : chrDecResult s = .error e) (he : e.code ≠ 10) :
    ∃ t, FailsWith .chrDec s e.code.toNat t := failsWith_of_result rfl hr he

end

/-- Settles O30: the input length, then `CharDec` on the characters, then the capacity of WORDS. -/
theorem chrDecMapsCharactersToWords : Obligations.ChrDecMapsCharactersToWords := by
  refine ⟨decode_encode .chrDec, fun s hm => ⟨fun hl => ?_, fun hl hbad => ?_, fun hl hok => ?_⟩⟩
  · exact failsWith_chrDec (chrDecResult_of_long hl) (by decide)
  · have hc : ∃ c ∈ s.input .str, charIndex c = none :=
      State.exists_mem_seq (P := fun c => charIndex c = none) (by simpa [charIndex_eq_none_iff, State.len] using hbad)
    exact failsWith_chrDec (by rw [chrDecResult_of_fits hl, charDec_error hc, error_bind]) (by decide)
  · have hmem : ∀ c ∈ s.input .str, c ∈ charset := State.forall_mem_seq hok
    obtain ⟨ws, hd⟩ := charDec_ok hmem
    obtain ⟨hmap, hw⟩ := charDec_eq_ok hd
    have hlen : ws.length = s.strLen.toNat := (charDec_length hd).trans (State.input_length s .str)
    have hr := chrDecResult_of_fits hl
    rw [hd, ok_bind, hlen] at hr
    refine ⟨fun hbig => ?_, fun hfit => ?_⟩
    · exact failsWith_chrDec (hr.trans (if_neg (by omega))) (by decide)
    · have hs := succeeds_setSeq (i := .chrDec) rfl (hr.trans (if_pos hfit)) rfl
      rw [hlen] at hs
      refine ⟨_, hs, (State.len_setSeq s (b := .words) rfl _ (by omega)).trans hlen, fun k hk => ?_⟩
      have hchar : charAt ws[k] = s.elem .str k := by
        have h := List.getElem_of_eq hmap (i := k) (by simpa [hlen] using hk)
        simpa [State.input] using h
      rw [State.finish_elem, State.setSeq_elem, State.elem_setElems_at hm _ _ _ (by omega),
        charset_getElem? (hw _ (List.getElem_mem _)), hchar]

/-! ### The range of WORDS (10_state.md R35) -/

/-- Each element of WORDS in `u` is in range or has its value of `s`. -/
def KeepsWordRange (s u : State) : Prop :=
  ∀ k < Config.capWords, wordOk (u.elem .words k) = true ∨ u.elem .words k = s.elem .words k

theorem KeepsWordRange.of_mem {s u : State} (h : u.mem = s.mem) : KeepsWordRange s u :=
  fun _ _ => .inr (State.elem_congr h _ _)

theorem KeepsWordRange.trans {s t u : State} (h : KeepsWordRange s t) (h' : KeepsWordRange t u) :
    KeepsWordRange s u := by
  intro k hk
  rcases h' k hk with hu | hu
  · exact .inl hu
  · rw [hu]
    exact h k hk

section
variable {s : State} {b : Buf} {vs : List Byte}

theorem KeepsWordRange.setSeq (h : KeepsWordRange s (s.setElems b vs)) : KeepsWordRange s (s.setSeq b vs) := by
  intro k hk
  rw [State.setSeq_elem]
  exact h k hk

/-- A sequence that fits another buffer does not reach WORDS. -/
theorem KeepsWordRange.setElems_of_fits (hb : Buf.words ≠ b) (hl : vs.length ≤ b.cap) :
    KeepsWordRange s (s.setElems b vs) :=
  fun _ hk => .inr (State.elem_setElems_other s hl hk (.inl hb))

/-- STR lies above WORDS, so a string of any length does not reach WORDS. -/
theorem KeepsWordRange.setElems_str : KeepsWordRange s (s.setElems .str vs) := by
  refine fun k hk => .inr (Memory.read_writeSlots_other _ _ _ fun j _ => ?_)
  simp only [Config.capWords] at hk
  simp only [Buf.slot, Buf.base]
  omega

/-- Words in range, however many, keep the range: each slot holds one of them or its old value. -/
theorem KeepsWordRange.setElems_words (hm : s.mem.wf = true) (hw : ∀ w ∈ vs, wordOk w = true) :
    KeepsWordRange s (s.setElems .words vs) := by
  intro k _
  by_cases hk : k < vs.length
  · left
    rw [State.elem_setElems_at hm _ _ _ hk]
    exact hw _ (List.getElem_mem _)
  · right
    refine Memory.read_writeSlots_other _ _ _ fun j hj => ?_
    simp only [Buf.slot]
    omega

end

/-- A command's outputs keep the range of WORDS; CHR.DEC, CVT.8TO5 and FRM.DEC write there (R104, 42_radix.md R121,
44_framer.md R175). -/
theorem Writes.keepsWordRange {i : Instr} {s u : State} (hm : s.mem.wf = true) (h : Writes i s u) :
    KeepsWordRange s u := by
  cases i <;> simp only [Writes] at h
  case cfgNet =>
    obtain ⟨hl, -, -, rfl⟩ := h
    refine KeepsWordRange.setElems_of_fits (b := .net) nofun ?_
    rw [lower_length, State.input_length]
    exact State.lengthOk_iff.mp hl
  case chrEnc =>
    obtain ⟨-, str, -, rfl⟩ := h
    exact .setSeq .setElems_str
  case chrDec =>
    obtain ⟨-, ws, hd, -, rfl⟩ := h
    exact .setSeq (.setElems_words hm (charDec_eq_ok hd).2)
  case cvt8to5 =>
    obtain ⟨-, rfl⟩ := h
    exact .setSeq (.setElems_words hm (b2w_words _))
  case cvt5to8 =>
    obtain ⟨hl, bs, hb, rfl⟩ := h
    refine .setSeq (.setElems_of_fits nofun ?_)
    have hwords : s.len .words ≤ 128 := State.lengthOk_iff.mp hl
    rw [w2b_length hb, State.input_length]
    show _ ≤ 80
    omega
  case accInit | polyStep =>
    subst h
    exact .of_mem rfl
  case polyFeedw | polyFeedc | vbUnpack =>
    obtain ⟨-, rfl⟩ := h
    exact .of_mem rfl
  case polyFinal =>
    subst h
    exact .setElems_of_fits (b := .ckw) nofun (ckWords_length _).le
  case checksum =>
    obtain ⟨-, -, a, -, rfl⟩ := h
    exact .setElems_of_fits (b := .ckw) nofun (ckWords_length _).le
  case frmEnc | addrEncraw =>
    obtain ⟨-, -, str, -, rfl⟩ := h
    exact .setSeq .setElems_str
  case frmDec =>
    obtain ⟨-, p, d, hd, hp, -, rfl⟩ := h
    have hw : ∀ w ∈ d, wordOk w = true := fun w hw => (frameDec_eq_ok hd).words w (List.mem_append_left _ hw)
    have hpfx : KeepsWordRange s (s.setSeq .pfx p) := .setSeq (.setElems_of_fits nofun hp)
    exact hpfx.trans (.setSeq (.setElems_words ((KeepsForms.setSeq s .pfx p).1 hm) hw))
  case vbPack | vbDects =>
    obtain ⟨-, -, rfl⟩ := h
    exact .of_mem rfl
  case vbEncts =>
    obtain ⟨-, sb, -, rfl⟩ := h
    exact .of_mem rfl
  case addrEnc =>
    obtain ⟨-, -, -, sb, str, -, -, rfl⟩ := h
    exact .setSeq .setElems_str
  case addrDecraw =>
    obtain ⟨-, -, r, -, hl, rfl⟩ := h
    have hregs : KeepsWordRange s ((s.setTypebits r.tb).setSizebits r.sb) := .of_mem rfl
    exact hregs.trans (.setSeq (.setElems_of_fits nofun hl))
  case addrDec =>
    obtain ⟨-, -, r, -, -, -, hl, rfl⟩ := h
    have hreg : KeepsWordRange s (s.setOutType r.tb) := .of_mem rfl
    exact hreg.trans (.setSeq (.setElems_of_fits nofun (hl ▸ sizeLength_le r.sb)))

/-- An error writes at most EXP (60_exceptions.md R243, R248). -/
theorem KeepsWordRange.raise_onError (i : Instr) (s : State) {e : Err} (he : e.Sound) :
    KeepsWordRange s ((onError i s).raise e) := by
  have hs : Fits [.exp] (if e.code = 10 then slotsOf .exp 8 else []) := by
    split
    · exact fits_slots (Nat.le_refl 8)
    · exact .nil _
  exact fun k hk => .inr ((Frame.raise_onError i s he).elem_kept hs (by decide) hk)

/-- Settles O23: a completion writes its outputs, or records an error. -/
theorem noCommandStoresAWordAbove31 : Obligations.NoCommandStoresAWordAbove31 := by
  intro i s t hm h k hk
  have hkeeps : KeepsWordRange s t := by
    rcases exec_cases h with ⟨u, hu, rfl⟩ | ⟨e, he, rfl⟩
    · exact (hu.keepsWordRange hm).trans (.of_mem rfl)
    · exact .raise_onError i s he
  simpa only [wordOk_iff] using hkeeps k hk

end Sys2Proof.Machine
end

section
/-! PROOFS (42_radix.md). O31 to O35. The live bits of a conversion are a bit string of their own (`lowBits`): taking in
an element appends its bits (`lowBits_shiftIn`) and cutting groups off only regroups them (`bitString_cutGroups`). So
each loop regroups one bit string (`bitString_b2wLoop`, `w2bLoop_splits`), and what it yields is determined because a
bit string determines its elements (`eq_of_bitString_eq`, `eq_of_bytes_append_eq`). -/

namespace Sys2Proof.Machine

/-! ### Bit strings (R120) -/

/-- The low `n` bits of a vector, most significant first: `bitsMsb` at any width. -/
def lowBits {m : Nat} (n : Nat) (x : BitVec m) : List Bool := (List.range n).map fun k => x.getLsbD (n - 1 - k)

theorem bitsMsb_eq_lowBits (n : Nat) (v : Byte) : bitsMsb n v = lowBits n v := rfl

@[simp] theorem lowBits_length {m : Nat} (n : Nat) (x : BitVec m) : (lowBits n x).length = n := by simp [lowBits]

theorem lowBits_eq_iff {m m' n : Nat} {x : BitVec m} {y : BitVec m'} :
    lowBits n x = lowBits n y ↔ ∀ i < n, x.getLsbD i = y.getLsbD i := by
  simp only [lowBits, List.map_inj_left, List.mem_range]
  refine ⟨fun h i hi => ?_, fun h k hk => h _ (by omega)⟩
  have hk := h (n - 1 - i) (by omega)
  rwa [show n - 1 - (n - 1 - i) = i by omega] at hk

theorem lowBits_eq_zeros_iff {m n : Nat} {x : BitVec m} :
    lowBits n x = List.replicate n false ↔ ∀ i < n, x.getLsbD i = false := by
  have hzero : lowBits n (0 : BitVec m) = List.replicate n false := by simp [lowBits]
  rw [← hzero, lowBits_eq_iff]
  simp

/-- The low bits are a high part followed by a low part. -/
theorem lowBits_add {m : Nat} (n k : Nat) (x : BitVec m) : lowBits (n + k) x = lowBits n (x >>> k) ++ lowBits k x := by
  simp only [lowBits, List.range_add, List.map_append, List.map_map]
  congr 1 <;> refine List.map_congr_left fun i hi => ?_
  · rw [BitVec.getLsbD_ushiftRight, show n + k - 1 - i = k + (n - 1 - i) by have := List.mem_range.mp hi; omega]
  · rw [Function.comp_apply, show n + k - 1 - (n + i) = k - 1 - i by omega]

@[simp] theorem bitString_nil (n : Nat) : bitString n [] = [] := rfl

@[simp] theorem bitString_cons (n : Nat) (v : Byte) (vs : List Byte) :
    bitString n (v :: vs) = lowBits n v ++ bitString n vs := by
  rw [bitString, List.flatMap_cons, bitsMsb_eq_lowBits, bitString]

@[simp] theorem bitString_append (n : Nat) (vs ws : List Byte) :
    bitString n (vs ++ ws) = bitString n vs ++ bitString n ws := List.flatMap_append

@[simp] theorem bitString_length (n : Nat) (vs : List Byte) : (bitString n vs).length = n * vs.length := by
  induction vs with
  | nil => rfl
  | cons v vs ih =>
    rw [bitString_cons, List.length_append, lowBits_length, ih, List.length_cons]
    ring

/-- Elements below `2^n` are determined by their low `n` bits. -/
theorem eq_of_lowBits_eq {n : Nat} {x y : Byte} (hx : x.toNat < 2 ^ n) (hy : y.toNat < 2 ^ n)
    (h : lowBits n x = lowBits n y) : x = y := by
  refine BitVec.eq_of_getLsbD_eq fun i _ => ?_
  by_cases hi : i < n
  · exact lowBits_eq_iff.mp h i hi
  · have hpow : 2 ^ n ≤ 2 ^ i := Nat.pow_le_pow_right (by decide) (by omega)
    rw [BitVec.getLsbD, BitVec.getLsbD, Nat.testBit_lt_two_pow (by omega), Nat.testBit_lt_two_pow (by omega)]

/-- A bit string determines its elements. -/
theorem eq_of_bitString_eq {n : Nat} {xs ys : List Byte} (hn : 0 < n) (hx : ∀ x ∈ xs, x.toNat < 2 ^ n)
    (hy : ∀ y ∈ ys, y.toNat < 2 ^ n) (h : bitString n xs = bitString n ys) : xs = ys := by
  have hl : xs.length = ys.length := by simpa [hn.ne'] using congrArg List.length h
  induction xs generalizing ys with
  | nil => exact (List.length_eq_zero_iff.mp hl.symm).symm
  | cons x xs ih =>
    cases ys with
    | nil => simp at hl
    | cons y ys =>
      rw [List.forall_mem_cons] at hx hy
      rw [bitString_cons, bitString_cons] at h
      obtain ⟨hhead, htail⟩ := List.append_inj h (by simp)
      rw [eq_of_lowBits_eq hx.1 hy.1 hhead, ih hx.2 hy.2 htail (by simpa using hl)]

/-- Whole bytes with fewer than eight bits after them can be read off a bit string in one way only. -/
theorem eq_of_bytes_append_eq {xs ys : List Byte} {r t : List Bool} (hr : r.length < 8) (ht : t.length < 8)
    (h : bitString 8 xs ++ r = bitString 8 ys ++ t) : xs = ys ∧ r = t := by
  have hl := congrArg List.length h
  simp only [List.length_append, bitString_length] at hl
  obtain ⟨hbytes, hrest⟩ := List.append_inj h (by simp only [bitString_length]; omega)
  exact ⟨eq_of_bitString_eq (by decide) (fun x _ => x.isLt) (fun y _ => y.isLt) hbytes, hrest⟩

/-! ### The live bits (R121, R126) -/

/-- Shifting an element of `n` bits in at the low end appends its bits to the live bits. -/
theorem lowBits_shiftIn (acc : RadixAcc) {bits n : Nat} (hb : bits + n ≤ 12) {v : Byte} (hv : v.toNat < 2 ^ n) :
    lowBits (bits + n) ((acc <<< n) ||| v.setWidth 12) = lowBits bits acc ++ lowBits n v := by
  rw [lowBits_add]
  congr 1 <;> refine lowBits_eq_iff.mpr fun i hi => ?_
  · have hpow : 2 ^ n ≤ 2 ^ (n + i) := Nat.pow_le_pow_right (by decide) (by omega)
    have hhigh : v.getLsbD (n + i) = false := Nat.testBit_lt_two_pow (by omega)
    rw [BitVec.getLsbD_ushiftRight, BitVec.getLsbD_or, BitVec.getLsbD_setWidth, hhigh, BitVec.getLsbD_shiftLeft]
    simp [show n + i < 12 by omega]
  · simp [hi, show i < 12 by omega]

/-- Cutting groups off regroups the live bits. -/
theorem bitString_cutGroups {width : Nat} (hw : width ≤ 8) (fuel : Nat) (acc : RadixAcc) (bits : Nat) :
    bitString width (cutGroups width fuel acc bits).1 ++ lowBits (cutGroups width fuel acc bits).2 acc =
      lowBits bits acc := by
  induction fuel generalizing bits with
  | zero => rfl
  | succ fuel ih =>
    rw [cutGroups]
    split
    · next hle =>
      have hgroup : lowBits width (((acc >>> (bits - width)).setWidth width).setWidth 8) =
          lowBits width (acc >>> (bits - width)) := by
        refine lowBits_eq_iff.mpr fun i hi => ?_
        simp [hi, show i < 8 by omega]
      rw [bitString_cons, hgroup, List.append_assoc, ih, ← lowBits_add, Nat.add_sub_cancel' hle]
    · rfl

/-! ### B2W (R121, R122) -/

/-- The last word: the live bits, completed by zeros at the low end. -/
theorem lowBits_lastWord (acc : RadixAcc) {bits : Nat} (h : bits < 5) :
    lowBits 5 (((acc <<< (5 - bits)).setWidth 5).setWidth 8) = lowBits bits acc ++ List.replicate (5 - bits) false := by
  have hadd := lowBits_add bits (5 - bits) (((acc <<< (5 - bits)).setWidth 5).setWidth 8)
  rw [show bits + (5 - bits) = 5 by omega] at hadd
  rw [hadd]
  congr 1
  · refine lowBits_eq_iff.mpr fun i hi => ?_
    simp [show 5 - bits + i < 5 by omega, show 5 - bits + i < 8 by omega]
  · refine lowBits_eq_zeros_iff.mpr fun i hi => ?_
    simp [hi]

/-- The words hold the live bits and the bytes' bits, completed by zeros. -/
theorem bitString_b2wLoop (acc : RadixAcc) {bits : Nat} (h : bits < 5) (bs : List Byte) :
    bitString 5 (b2wLoop acc bits bs) =
      lowBits bits acc ++ bitString 8 bs ++ List.replicate ((5 - (bits + 8 * bs.length) % 5) % 5) false := by
  induction bs generalizing acc bits with
  | nil =>
    rw [b2wLoop]
    split
    · rw [bitString_cons, lowBits_lastWord acc h, bitString_nil, bitString_nil, List.append_nil, List.append_nil,
        List.length_nil, show (5 - (bits + 8 * 0) % 5) % 5 = 5 - bits by omega]
    · obtain rfl : bits = 0 := by omega
      rfl
  | cons b bs ih =>
    obtain ⟨-, hcut, hlt⟩ := cutGroups_five ((acc <<< 8) ||| b.setWidth 12) (bits := bits + 8) (by omega)
    have hlen : (5 - ((cutGroups 5 2 ((acc <<< 8) ||| b.setWidth 12) (bits + 8)).2 + 8 * bs.length) % 5) % 5 =
        (5 - (bits + 8 * (b :: bs).length) % 5) % 5 := by
      rw [List.length_cons]
      omega
    rw [b2wLoop, bitString_append, ih _ hlt, hlen, ← List.append_assoc, ← List.append_assoc,
      bitString_cutGroups (by decide), lowBits_shiftIn acc (by omega) b.isLt, bitString_cons,
      List.append_assoc (lowBits bits acc)]

/-- Settles O31: the loop's bit string, with no live bits at its start. -/
theorem bytesToWordsCutsTheBitString : Obligations.BytesToWordsCutsTheBitString := by
  intro bs
  have hbits := bitString_b2wLoop 0 (bits := 0) (by decide) bs
  rw [Nat.zero_add] at hbits
  exact ⟨fun w hw => (wordOk_iff w).mp (b2w_words bs w hw), b2w_length bs, hbits⟩

/-! ### W2B (R124, R126, R127) -/

/-- The padding check on the live bits. -/
theorem and_mask_eq_zero_iff (acc : RadixAcc) {bits : Nat} (h : bits < 5) :
    acc &&& ((1 <<< bits) - 1) = 0 ↔ lowBits bits acc = List.replicate bits false := by
  have hmask : ((1 <<< bits) - 1 : RadixAcc).toNat = 2 ^ bits - 1 := by
    interval_cases bits <;> rfl
  have hbit : ∀ i, (acc &&& ((1 <<< bits) - 1)).getLsbD i = (acc.getLsbD i && decide (i < bits)) := by
    intro i
    rw [BitVec.getLsbD_and, BitVec.getLsbD, BitVec.getLsbD, hmask, Nat.testBit_two_pow_sub_one]
  rw [lowBits_eq_zeros_iff, BitVec.eq_of_getLsbD_eq_iff]
  refine ⟨fun hz i hi => ?_, fun hz i _ => ?_⟩
  · have hi' := hz i (by omega)
    rw [hbit] at hi'
    simpa [hi] using hi'
  · rw [hbit]
    by_cases hi : i < bits
    · simp [hz i hi]
    · simp [hi]

/-- Fewer than five bits, all of them zero (R124). -/
def IsPadding (r : List Bool) : Prop := ∃ pad < 5, r = List.replicate pad false

section
variable {acc : RadixAcc} {bits : Nat}

/-- The end of the words: live bits that are padding are dropped. -/
theorem w2bLoop_nil_of_padding (h : IsPadding (lowBits bits acc)) : w2bLoop acc bits [] = .ok [] := by
  obtain ⟨pad, hlt, hpad⟩ := h
  obtain rfl : bits = pad := by simpa using congrArg List.length hpad
  have hmask := (and_mask_eq_zero_iff acc hlt).mpr hpad
  rw [w2bLoop, if_neg (Nat.not_le.mpr hlt), if_neg (by rw [hmask]; decide)]

/-- The end of the words: five bits or more, or a bit that is set, are an error. -/
theorem w2bLoop_nil_of_not_padding (h : ¬ IsPadding (lowBits bits acc)) :
    w2bLoop acc bits [] = .error .invalidPadding := by
  rw [w2bLoop]
  split
  · rfl
  · next hlt =>
    have hlt : bits < 5 := Nat.not_le.mp hlt
    exact if_pos (bne_iff_ne.mpr fun hmask => h ⟨bits, hlt, (and_mask_eq_zero_iff acc hlt).mp hmask⟩)

end

theorem wordOk_lt {w : Byte} (h : wordOk w = true) : w.toNat < 2 ^ 5 := Nat.lt_succ_of_le ((wordOk_iff w).mp h)

/-- Words in range: the live bits and the words' bits are whole bytes with fewer than eight bits after them, and these
decide between the bytes and InvalidPadding. -/
theorem w2bLoop_splits (acc : RadixAcc) {bits : Nat} (h : bits < 8) {ws : List Byte}
    (hw : ∀ w ∈ ws, wordOk w = true) :
    ∃ bs r, lowBits bits acc ++ bitString 5 ws = bitString 8 bs ++ r ∧ r.length < 8 ∧
      (IsPadding r → w2bLoop acc bits ws = .ok bs) ∧
      (¬ IsPadding r → w2bLoop acc bits ws = .error .invalidPadding) := by
  induction ws generalizing acc bits with
  | nil =>
    exact ⟨[], lowBits bits acc, by simp, by simpa using h, w2bLoop_nil_of_padding, w2bLoop_nil_of_not_padding⟩
  | cons w ws ih =>
    rw [List.forall_mem_cons] at hw
    obtain ⟨hw, hws⟩ := hw
    obtain ⟨-, hcut⟩ := cutGroups_eight ((acc <<< 5) ||| w.setWidth 12) (bits := bits + 5) (by omega)
    obtain ⟨bs, r, hbits, hr, hok, herr⟩ := ih ((acc <<< 5) ||| w.setWidth 12) hcut hws
    refine ⟨(cutGroups 8 1 ((acc <<< 5) ||| w.setWidth 12) (bits + 5)).1 ++ bs, r, ?_, hr, fun hpad => ?_,
      fun hpad => ?_⟩
    · rw [bitString_append, List.append_assoc, ← hbits, ← List.append_assoc, bitString_cutGroups (by decide),
        lowBits_shiftIn acc (by omega) (wordOk_lt hw), bitString_cons, List.append_assoc]
    · simp only [w2bLoop, hw, hok hpad, if_true]
      rfl
    · simp only [w2bLoop, hw, herr hpad, if_true]
      rfl

theorem w2b_splits {ws : List Byte} (hw : ∀ w ∈ ws, wordOk w = true) :
    ∃ bs r, bitString 5 ws = bitString 8 bs ++ r ∧ r.length < 8 ∧ (IsPadding r → w2b ws = .ok bs) ∧
      (¬ IsPadding r → w2b ws = .error .invalidPadding) := w2bLoop_splits 0 (bits := 0) (by decide) hw

/-- Exactly the bit strings of whole bytes with padding after them convert. -/
theorem w2b_eq_ok_iff {ws bs : List Byte} : w2b ws = .ok bs ↔
    (∀ w ∈ ws, wordOk w = true) ∧ ∃ r, IsPadding r ∧ bitString 5 ws = bitString 8 bs ++ r := by
  refine ⟨fun h => ⟨w2b_words h, ?_⟩, fun ⟨hw, r, hpad, hbits⟩ => ?_⟩
  · obtain ⟨bs', r, hbits, -, hok, herr⟩ := w2b_splits (w2b_words h)
    by_cases hpad : IsPadding r
    · obtain rfl : bs' = bs := by simpa [hok hpad] using h
      exact ⟨r, hpad, hbits⟩
    · simp [herr hpad] at h
  · obtain ⟨bs', r', hbits', hr', hok, -⟩ := w2b_splits hw
    have hr : r.length < 8 := by
      obtain ⟨pad, hlt, rfl⟩ := hpad
      rw [List.length_replicate]
      omega
    obtain ⟨rfl, rfl⟩ := eq_of_bytes_append_eq hr hr' (hbits.symm.trans hbits')
    exact hok hpad

/-- A word out of range, and nothing else, is InvalidWord. -/
theorem w2b_eq_invalidWord_iff {ws : List Byte} : w2b ws = .error .invalidWord ↔ ∃ w ∈ ws, wordOk w = false := by
  refine ⟨fun h => ?_, w2bLoop_error 0 0⟩
  by_contra hw
  obtain ⟨bs, r, -, -, hok, herr⟩ := w2b_splits (by simpa using hw)
  by_cases hpad : IsPadding r
  · simp [hok hpad] at h
  · simp [herr hpad] at h

/-- Settles O32: words in range split in one way only, and the bits after the bytes decide. -/
theorem wordsToBytesAcceptsExactlyZeroPadding : Obligations.WordsToBytesAcceptsExactlyZeroPadding := by
  refine fun ws => ⟨fun bs => ?_, ?_, fun e he => w2bLoop_eq_error 0 0 he⟩
  · rw [w2b_eq_ok_iff]
    simp [IsPadding, wordOk_iff]
  · rw [w2b_eq_invalidWord_iff]
    simp [wordOk]

/-! ### The round trip (R128) -/

/-- Settles O33: the words of `B2W` are the bytes with padding after them; and the number of padding bits is the one
that completes the last word, so the words that convert have the bit string of `B2W`'s. -/
theorem radixConversionsRoundTrip : Obligations.RadixConversionsRoundTrip := by
  refine ⟨fun bs => ?_, fun ws bs h => ?_⟩
  · obtain ⟨-, -, hbits⟩ := bytesToWordsCutsTheBitString bs
    exact w2b_eq_ok_iff.mpr ⟨b2w_words bs, _, ⟨_, Nat.mod_lt _ (by decide), rfl⟩, hbits⟩
  · obtain ⟨-, -, hbits⟩ := bytesToWordsCutsTheBitString bs
    obtain ⟨hw, r, ⟨pad, hpad, rfl⟩, hsplit⟩ := w2b_eq_ok_iff.mp h
    have hl := congrArg List.length hsplit
    simp only [List.length_append, bitString_length, List.length_replicate] at hl
    have hpads : (5 - 8 * bs.length % 5) % 5 = pad := by omega
    refine eq_of_bitString_eq (n := 5) (by decide) (fun w h => wordOk_lt (b2w_words bs w h))
      (fun w h => wordOk_lt (hw w h)) ?_
    rw [hbits, hsplit, hpads]

/-! ### CVT.8TO5 (R123) -/

/-- `B2W` has no error, so the length check alone decides. -/
theorem cvt8to5Result_eq (s : State) : cvt8to5Result s =
    if s.byteLen.toNat ≤ 80 then .ok (s.setSeq .words (b2w (s.seq .bytes s.byteLen.toNat)))
    else .error .lengthExceeded := by
  simp only [cvt8to5Result, require_bind, State.lengthOk_iff]
  rfl

/-- Settles O34: the length check, then the words of `B2W`. -/
theorem cvt8to5ConvertsBytes : Obligations.Cvt8to5ConvertsBytes := by
  refine ⟨decode_encode .cvt8to5, fun s hm => ⟨fun hl => ?_, fun hl => ?_⟩⟩
  · exact failsWith_of_result rfl ((cvt8to5Result_eq s).trans (if_neg (Nat.not_le.mpr hl))) (by decide)
  · have hr := (cvt8to5Result_eq s).trans (if_pos hl)
    have hlen : (b2w (s.seq .bytes s.byteLen.toNat)).length = (8 * s.byteLen.toNat + 4) / 5 := by
      rw [b2w_length, State.seq_length]
    have hs := succeeds_setSeq (i := .cvt8to5) (b := .words) rfl hr rfl
    rw [hlen] at hs
    exact ⟨_, hs, (State.len_setSeq s (b := .words) rfl _ (by omega)).trans hlen,
      State.input_setSeq hm (b := .words) rfl _ (by omega)⟩

/-! ### CVT.5TO8 (R129) -/

/-- The length check, then `W2B`. -/
theorem cvt5to8Result_eq (s : State) : cvt5to8Result s =
    if s.wordLen.toNat ≤ 128 then
      w2b (s.seq .words s.wordLen.toNat) >>= fun bs => .ok (s.setSeq .bytes bs)
    else .error .lengthExceeded := by
  simp only [cvt5to8Result, require_bind, State.lengthOk_iff]
  rfl

/-- Words of these numbers leave five bits or more after the bytes (R125). -/
theorem w2b_error_of_length {ws : List Byte} (hw : ∀ w ∈ ws, wordOk w = true) (hl : ws.length % 8 ∈ [1, 3, 6]) :
    w2b ws = .error .invalidPadding := by
  obtain ⟨bs, r, hbits, hr, -, herr⟩ := w2b_splits hw
  refine herr fun ⟨pad, hlt, hpad⟩ => ?_
  have h := congrArg List.length hbits
  simp only [List.length_append, bitString_length, hpad, List.length_replicate] at h
  simp only [List.mem_cons, List.not_mem_nil, or_false] at hl
  omega

/-- Settles O35: the length check, then what `W2B` does with words out of range and in range. -/
theorem cvt5to8ConvertsWords : Obligations.Cvt5to8ConvertsWords := by
  refine ⟨decode_encode .cvt5to8, fun s hm => ⟨fun hl => ?_, fun hl hbad => ?_, fun hl hok => ?_⟩⟩
  · exact failsWith_of_result rfl ((cvt5to8Result_eq s).trans (if_neg (Nat.not_le.mpr hl))) (by decide)
  · have hr := (cvt5to8Result_eq s).trans (if_pos hl)
    have hw : ∃ w ∈ s.seq .words s.wordLen.toNat, wordOk w = false :=
      State.exists_mem_seq (P := fun w => wordOk w = false) (by simpa [wordOk] using hbad)
    rw [w2b_eq_invalidWord_iff.mpr hw, error_bind] at hr
    exact failsWith_of_result rfl hr (by decide)
  · have hr := (cvt5to8Result_eq s).trans (if_pos hl)
    have hw : ∀ w ∈ s.seq .words s.wordLen.toNat, wordOk w = true :=
      State.forall_mem_seq fun k hk => (wordOk_iff _).mpr (hok k hk)
    have hfail : w2b (s.seq .words s.wordLen.toNat) = .error .invalidPadding →
        ∃ t, FailsWith .cvt5to8 s 4 t := by
      intro he
      rw [he, error_bind] at hr
      exact failsWith_of_result rfl hr (by decide)
    refine ⟨fun hmod => hfail (w2b_error_of_length hw ?_), hfail, fun bs hbs => ?_⟩
    · rwa [State.seq_length]
    · have hlen : bs.length = 5 * s.wordLen.toNat / 8 := by rw [w2b_length hbs, State.seq_length]
      rw [hbs, ok_bind] at hr
      have hs := succeeds_setSeq (i := .cvt5to8) (b := .bytes) rfl hr rfl
      rw [hlen] at hs
      exact ⟨_, hs, (State.len_setSeq s (b := .bytes) rfl _ (by omega)).trans hlen,
        State.input_setSeq hm (b := .bytes) rfl _ (by omega)⟩

end Sys2Proof.Machine
end

section
/-! PROOFS (43_checksum.md). O36 to O45. `Step` is a shift and a sum of selected generators (`polyStep_eq`), linear in
the bits that select (`genSum_xor`), and the generators' low bits make it one-to-one (`stepInv_polyStep`). R150 is a
simulation: a command that maps ACC, put before a sequence that finishes (`Finishes.cons`). For R153 no injective step
undoes a replaced word (`checksumValue_set_ne`), so the replaced frame's checksum words are wrong
(`exists_mismatch_of_set`). -/

namespace Sys2Proof.Machine

/-! ### The step function (R140, R142) -/

/-- A generator, if its bit is set. -/
def pickGen (i : Nat) (b : Bool) : Acc := if b then gen i else 0

theorem pickGen_getLsbD (i : Nat) (b : Bool) (k : Nat) : (pickGen i b).getLsbD k = (b && (gen i).getLsbD k) := by
  cases b <;> simp [pickGen]

theorem pickGen_xor (i : Nat) (b c : Bool) : pickGen i (b ^^ c) = pickGen i b ^^^ pickGen i c := by
  cases b <;> cases c <;> simp [pickGen]

/-- The generators that five bits select, XORed together. -/
def genSum (b : Nat → Bool) : Acc :=
  pickGen 0 (b 0) ^^^ pickGen 1 (b 1) ^^^ pickGen 2 (b 2) ^^^ pickGen 3 (b 3) ^^^ pickGen 4 (b 4)

theorem genSum_congr {b c : Nat → Bool} (h : ∀ i < 5, b i = c i) : genSum b = genSum c := by
  simp only [genSum, h 0 (by decide), h 1 (by decide), h 2 (by decide), h 3 (by decide), h 4 (by decide)]

theorem genSum_xor (b c : Nat → Bool) : genSum (fun i => b i ^^ c i) = genSum b ^^^ genSum c := by
  simp only [genSum, pickGen_xor]
  ac_rfl

theorem genSum_getLsbD (b : Nat → Bool) (k : Nat) :
    (genSum b).getLsbD k = ((b 0 && (gen 0).getLsbD k) ^^ (b 1 && (gen 1).getLsbD k) ^^ (b 2 && (gen 2).getLsbD k) ^^
      (b 3 && (gen 3).getLsbD k) ^^ (b 4 && (gen 4).getLsbD k)) := by
  simp only [genSum, BitVec.getLsbD_xor, pickGen_getLsbD]

/-- The low 5 bits of the generators are the five single bits (R152). -/
theorem genSum_getLsbD_low (b : Nat → Bool) {k : Nat} (hk : k < 5) : (genSum b).getLsbD k = b k := by
  rw [genSum_getLsbD]
  interval_cases k <;> simp [gen]

/-- `Step` is a shift and the generators that the top 5 bits select. -/
theorem polyStep_eq (a : Acc) : polyStep a = a <<< 5 ^^^ genSum fun i => a.getLsbD (35 + i) := by
  have hshift : (a.extractLsb' 0 35).setWidth 40 <<< 5 = a <<< 5 := by
    refine BitVec.eq_of_getLsbD_eq fun k hk => ?_
    simp [show k - 5 < 40 by omega, show k - 5 < 35 by omega]
  rw [polyStep, hshift]
  simp only [genSum, pickGen, genTerm]
  ac_rfl

theorem polyStep_xor (a c : Acc) : polyStep (a ^^^ c) = polyStep a ^^^ polyStep c := by
  simp only [polyStep_eq, BitVec.shiftLeft_xor_distrib, BitVec.getLsbD_xor, genSum_xor]
  ac_rfl

/-- Settles O36: bit by bit, the shifted input and the selected generators. -/
theorem stepIsLinear : Obligations.StepIsLinear := by
  refine ⟨rfl, polyStep_xor, fun a k hk => ?_⟩
  have hlow : (!decide (k < 5)) = decide (5 ≤ k) := by simp [← decide_not]
  rw [polyStep_eq, BitVec.getLsbD_xor, genSum_getLsbD, BitVec.getLsbD_shiftLeft, hlow]
  simp only [hk, decide_true, Bool.true_and, Bool.xor_assoc]
  rfl

/-! ### The inverse of the step (R152) -/

theorem polyStep_getLsbD_low (a : Acc) {k : Nat} (hk : k < 5) : (polyStep a).getLsbD k = a.getLsbD (35 + k) := by
  rw [polyStep_eq, BitVec.getLsbD_xor, genSum_getLsbD_low _ hk]
  simp [hk]

theorem polyStep_low (a : Acc) : (polyStep a).extractLsb' 0 5 = a.extractLsb' 35 5 := by
  refine BitVec.eq_of_getLsbD_eq fun k hk => ?_
  simp [hk, polyStep_getLsbD_low]

theorem stepInv_eq (r : Acc) :
    stepInv r = (r.extractLsb' 0 5).setWidth 40 <<< 35 ||| (r ^^^ genSum r.getLsbD) >>> 5 := by
  rw [genSum, ← BitVec.xor_assoc, ← BitVec.xor_assoc, ← BitVec.xor_assoc, ← BitVec.xor_assoc]
  rfl

theorem stepInv_polyStep (a : Acc) : stepInv (polyStep a) = a := by
  have hsum : genSum (polyStep a).getLsbD = genSum fun i => a.getLsbD (35 + i) :=
    genSum_congr fun i hi => polyStep_getLsbD_low a hi
  have hshift : polyStep a ^^^ genSum (polyStep a).getLsbD = a <<< 5 := by
    rw [hsum, polyStep_eq, BitVec.xor_assoc, BitVec.xor_self, BitVec.xor_zero]
  rw [stepInv_eq, hshift, polyStep_low]
  refine BitVec.eq_of_getLsbD_eq fun k hk => ?_
  by_cases h : k < 35
  · simp [h, hk, show 5 + k < 40 by omega]
  · simp [h, hk, show ¬ 5 + k < 40 by omega, show k - 35 < 5 by omega,
      show 35 + (k - 35) = k by omega]

theorem polyStep_injective : Function.Injective polyStep := Function.LeftInverse.injective stepInv_polyStep

/-- A one-to-one function on finitely many values is onto, so the left inverse is the right inverse too. -/
theorem polyStep_stepInv (a : Acc) : polyStep (stepInv a) = a := by
  have : Finite Acc := Finite.of_injective BitVec.toFin fun _ _ => BitVec.toFin_inj.mp
  have hsurj : Function.Surjective polyStep := Finite.injective_iff_surjective.mp polyStep_injective
  exact Function.LeftInverse.rightInverse_of_surjective stepInv_polyStep hsurj a

theorem polySteps_injective (n : Nat) : Function.Injective (polySteps n) := by
  induction n with
  | zero => exact Function.injective_id
  | succ n ih => exact ih.comp polyStep_injective

theorem polySteps_zero (n : Nat) : polySteps n 0 = 0 := by
  induction n with
  | zero => rfl
  | succ n ih => exact ih

/-- Settles O37: the inverse gives injectivity, and steps fix zero. -/
theorem stepIsABijection : Obligations.StepIsABijection := by
  refine ⟨fun a => ⟨stepInv_polyStep a, polyStep_stepInv a⟩, polyStep_low, fun _ _ h => polyStep_injective h, ?_⟩
  intro k e he hz
  exact he (polySteps_injective k (hz.trans (polySteps_zero k).symm))


/-! ### Commands that write ACC (R143, R144, R146, R148) -/

/-- A command whose only output is ACC. -/
theorem succeeds_setAcc {i : Instr} {s : State} {r : Except Err State} {a : Acc} (he : exec i s = conclude s r)
    (hr : r = .ok (s.setAcc a)) : ∃ t, Succeeds i s [.accLo, .accHi] [] t ∧ t.acc = a :=
  ⟨_, succeeds_of_result he hr (Frame.setAcc s a) rfl, rfl⟩

/-- Settles O38: neither command has a check, and the examples are single steps. -/
theorem accInitAndPolyStepWriteAcc : Obligations.AccInitAndPolyStepWriteAcc :=
  ⟨decode_encode .accInit, decode_encode .polyStep, fun _ => succeeds_setAcc rfl rfl, fun _ => succeeds_setAcc rfl rfl,
    by decide, by decide, by decide, by decide⟩

theorem polyFeedwResult_eq (s : State) : polyFeedwResult s =
    if wordOk s.operand then .ok (s.setAcc (absorbWord s.acc s.operand)) else .error .invalidWord :=
  require_bind _ _ _

/-- Settles O40: the check on OPERAND decides. -/
theorem polyFeedwAbsorbsAWord : Obligations.PolyFeedwAbsorbsAWord := by
  refine ⟨decode_encode .polyFeedw, fun s => ⟨fun hbad => ?_, fun hok => ?_⟩⟩
  · have hw : ¬ wordOk s.operand = true := fun h => Nat.not_le.mpr hbad ((wordOk_iff _).mp h)
    exact failsWith_of_result rfl ((polyFeedwResult_eq s).trans (if_neg hw)) (by decide)
  · exact succeeds_setAcc rfl ((polyFeedwResult_eq s).trans (if_pos ((wordOk_iff _).mpr hok)))

theorem prefixCharOk_iff (c : Byte) : prefixCharOk c = true ↔
    33 ≤ c.toNat ∧ c.toNat ≤ 126 ∧ (c.toNat < 0x41 ∨ 0x5A < c.toNat) := by
  simp only [prefixCharOk, isUpper, Bool.and_eq_true, Bool.not_eq_true', decide_eq_true_eq, Bool.and_eq_false_iff,
    decide_eq_false_iff_not]
  omega

/-- Only the low 5 bits of a prefix character are absorbed. -/
theorem absorbChar_eq (a : Acc) (c : Byte) : absorbChar a c = polyStep a ^^^ BitVec.ofNat 40 (c.toNat % 32) := by
  have hlow : (c &&& 0x1F).setWidth 40 = BitVec.ofNat 40 (c.toNat % 32) := by
    refine BitVec.eq_of_toNat_eq ?_
    rw [BitVec.toNat_setWidth, BitVec.toNat_and, BitVec.toNat_ofNat]
    exact congrArg (· % 2 ^ 40) (Nat.and_two_pow_sub_one_eq_mod c.toNat 5)
  rw [absorbChar, hlow]

theorem polyFeedcResult_eq (s : State) : polyFeedcResult s =
    if prefixCharOk s.operand then .ok (s.setAcc (absorbChar s.acc s.operand)) else .error .invalidPrefixChar :=
  require_bind _ _ _

/-- Settles O41: the check on OPERAND decides. -/
theorem polyFeedcAbsorbsACharacter : Obligations.PolyFeedcAbsorbsACharacter := by
  refine ⟨decode_encode .polyFeedc, fun s => ⟨fun hbad => ?_, fun hlo hhi hup => ?_⟩⟩
  · have hc : ¬ prefixCharOk s.operand = true := by
      rw [prefixCharOk_iff]
      omega
    exact failsWith_of_result rfl ((polyFeedcResult_eq s).trans (if_neg hc)) (by decide)
  · have hr := (polyFeedcResult_eq s).trans (if_pos ((prefixCharOk_iff _).mpr ⟨hlo, hhi, hup⟩))
    rw [absorbChar_eq] at hr
    exact succeeds_setAcc rfl hr

/-! ### Commands that finish a checksum (R145, R149) -/

theorem ckDigit_toNat (a : Acc) (i : Nat) : (ckDigit a i).toNat = a.toNat / 2 ^ (35 - 5 * i) % 32 := by
  rw [ckDigit, BitVec.toNat_setWidth, BitVec.extractLsb'_toNat, Nat.shiftRight_eq_div_pow]
  omega

theorem State.setChecksum_ckw {s : State} (hm : s.mem.wf = true) (a : Acc) {i : Nat} (hi : i < 8) :
    (s.setChecksum a).elem .ckw i = ckDigit a i := by
  have hm' : (s.setAcc a).mem.wf = true := hm
  rw [State.setChecksum, State.elem_setElems_at hm' _ _ _ (by simpa using hi)]
  simp [ckWords]

/-- A command whose outputs are ACC and its words in CKW. -/
theorem succeeds_setChecksum {i : Instr} {s : State} {r : Except Err State} {a : Acc} (hm : s.mem.wf = true)
    (he : exec i s = conclude s r) (hr : r = .ok (s.setChecksum a)) :
    ∃ t, Succeeds i s [.accLo, .accHi] (slotsOf .ckw 8) t ∧ t.acc = a ∧
      ∀ k < 8, (t.elem .ckw k).toNat = t.acc.toNat / 2 ^ (35 - 5 * k) % 32 := by
  refine ⟨_, succeeds_of_result he hr (Frame.setChecksum s a) rfl, rfl, fun k hk => ?_⟩
  rw [State.finish_elem, State.setChecksum_ckw hm a hk]
  exact ckDigit_toNat a k

/-- Settles O39: the command has no check. -/
theorem polyFinalSplitsTheAccumulator : Obligations.PolyFinalSplitsTheAccumulator :=
  ⟨decode_encode .polyFinal, fun _ hm => succeeds_setChecksum hm rfl rfl⟩

theorem checksumResult_of_long {s : State} (hl : 64 < s.pfxLen.toNat ∨ 128 < s.wordLen.toNat) :
    checksumResult s = .error .lengthExceeded := by
  have hlen : ¬ (s.lengthOk .pfx && s.lengthOk .words) = true := by
    rw [Bool.and_eq_true, State.lengthOk_iff, State.lengthOk_iff]
    show ¬ (s.pfxLen.toNat ≤ 64 ∧ s.wordLen.toNat ≤ 128)
    omega
  rw [checksumResult, require_bind, if_neg hlen]

/-- With the lengths in range `Checksum` decides. -/
theorem checksumResult_of_fits {s : State} (hp : s.pfxLen.toNat ≤ 64) (hw : s.wordLen.toNat ≤ 128) :
    checksumResult s = checksumAcc (s.input .pfx) (s.input .words) >>= fun a => .ok (s.setChecksum a) := by
  have hlen : (s.lengthOk .pfx && s.lengthOk .words) = true :=
    Bool.and_eq_true_iff.mpr ⟨State.lengthOk_iff.mpr hp, State.lengthOk_iff.mpr hw⟩
  rw [checksumResult, require_bind, if_pos hlen]
  rfl

/-- On a legal prefix and words in range CHECKSUM writes their checksum. -/
theorem checksumResult_ok {s : State} (hp : s.pfxLen.toNat ≤ 64) (hw : s.wordLen.toNat ≤ 128)
    (hc : ∀ c ∈ s.input .pfx, prefixCharOk c = true) (hd : ∀ w ∈ s.input .words, wordOk w = true) :
    checksumResult s = .ok (s.setChecksum (checksumValue (s.input .pfx) (s.input .words))) := by
  rw [checksumResult_of_fits hp hw, checksumAcc_ok hc hd, ok_bind]

/-- Settles O42: the lengths, then the prefix, then the words. -/
theorem checksumCommandComputesTheChecksum : Obligations.ChecksumCommandComputesTheChecksum := by
  have hfail {s : State} {e : Err} (hr : checksumResult s = .error e) (he : e.code ≠ 10) :
      ∃ t, FailsWith .checksum s e.code.toNat t := failsWith_of_result rfl hr he
  refine ⟨decode_encode .checksum, fun s hm => ⟨fun hl => ?_, fun hp hw => ⟨fun hbad => ?_, fun hchars =>
    ⟨fun hbad => ?_, fun hwords => ?_⟩⟩⟩⟩
  · exact hfail (checksumResult_of_long hl) (by decide)
  · have hc : ∃ c ∈ s.input .pfx, prefixCharOk c = false :=
      State.exists_mem_seq (P := fun c => prefixCharOk c = false) hbad
    exact hfail (by rw [checksumResult_of_fits hp hw, checksumAcc_prefix_error _ hc, error_bind]) (by decide)
  · have hc : ∀ c ∈ s.input .pfx, prefixCharOk c = true := State.forall_mem_seq hchars
    have hd : ∃ w ∈ s.input .words, wordOk w = false :=
      State.exists_mem_seq (P := fun w => wordOk w = false) (by simpa [wordOk, State.len] using hbad)
    exact hfail (by rw [checksumResult_of_fits hp hw, checksumAcc_word_error hc hd, error_bind]) (by decide)
  · have hc : ∀ c ∈ s.input .pfx, prefixCharOk c = true := State.forall_mem_seq hchars
    have hd : ∀ w ∈ s.input .words, wordOk w = true :=
      State.forall_mem_seq fun k hk => (wordOk_iff _).mpr (hwords k hk)
    exact succeeds_setChecksum hm rfl (checksumResult_ok hp hw hc hd)

/-! ### The primitive commands run in order (R150) -/

@[simp] theorem Primitive.prepare_acc (c : Primitive) (s : State) : (c.prepare s).acc = s.acc := by
  rcases c with ⟨_ | v, i⟩ <;> rfl

@[simp] theorem Primitive.prepare_mem (c : Primitive) (s : State) : (c.prepare s).mem = s.mem := by
  rcases c with ⟨_ | v, i⟩ <;> rfl

/-- The host's write puts the byte into OPERAND. -/
theorem Primitive.prepare_operand (v : Byte) (i : Instr) (s : State) :
    (Primitive.prepare { operand := some v, command := i } s).operand = v := by
  show (v.setWidth 32).setWidth 8 = v
  simp

/-- The command completes without error, and all it does is to take ACC through `f`. -/
def Primitive.Maps (c : Primitive) (f : Acc → Acc) : Prop :=
  ∀ s : State, exec c.command (c.prepare s) = .next ((c.prepare s).setAcc (f s.acc)).finish

theorem maps_accInit : Primitive.Maps { operand := none, command := .accInit } fun _ => 1 := fun _ => rfl

theorem maps_polyStep : Primitive.Maps { operand := none, command := .polyStep } polyStep := fun _ => rfl

theorem maps_polyFeedw {w : Byte} (hw : wordOk w = true) :
    Primitive.Maps { operand := some w, command := .polyFeedw } (absorbWord · w) := by
  intro s
  have ho := Primitive.prepare_operand w .polyFeedw s
  have hr := (polyFeedwResult_eq _).trans (if_pos (ho ▸ hw))
  rw [ho, Primitive.prepare_acc] at hr
  exact congrArg (conclude _) hr

theorem maps_polyFeedc {c : Byte} (hc : prefixCharOk c = true) :
    Primitive.Maps { operand := some c, command := .polyFeedc } (absorbChar · c) := by
  intro s
  have ho := Primitive.prepare_operand c .polyFeedc s
  have hr := (polyFeedcResult_eq _).trans (if_pos (ho ▸ hc))
  rw [ho, Primitive.prepare_acc] at hr
  exact congrArg (conclude _) hr

/-- Run one after another from any state, the commands all complete without error, and the last leaves `f` of the first
state's ACC in ACC and its words in CKW. -/
def Finishes (cs : List Primitive) (f : Acc → Acc) : Prop :=
  ∀ s : State, s.mem.wf = true → ∃ ts t, completions cs s = some ts ∧ (∀ r ∈ ts, r.errcode = 0) ∧
    ts.getLast? = some t ∧ t.acc = f s.acc ∧ ∀ i < 8, t.elem .ckw i = ckDigit (f s.acc) i

theorem finishes_polyFinal : Finishes [{ operand := none, command := .polyFinal }] (· ^^^ 1) :=
  fun s hm => ⟨[(s.setChecksum (s.acc ^^^ 1)).finish], _, rfl, by simp, rfl, rfl,
    fun _ hi => State.setChecksum_ckw hm _ hi⟩

section
variable {cs : List Primitive} {g : Acc → Acc}

/-- A command put before a sequence: it keeps the buffers' contents. -/
theorem Finishes.cons {c : Primitive} {f : Acc → Acc} (hc : c.Maps f) (h : Finishes cs g) :
    Finishes (c :: cs) fun a => g (f a) := by
  intro s hm
  obtain ⟨ts, t, hrun, hcode, hlast, hend⟩ := h ((c.prepare s).setAcc (f s.acc)).finish (by simpa using hm)
  refine ⟨((c.prepare s).setAcc (f s.acc)).finish :: ts, t, ?_, ?_, by simp [List.getLast?_cons, hlast], hend⟩
  · rw [completions, hc s]
    simp only [hrun, Option.map_some]
  · exact List.forall_mem_cons.mpr ⟨rfl, hcode⟩

/-- One command per element put before a sequence: a fold over the elements. -/
theorem Finishes.map_append {mk : Byte → Primitive} {f : Acc → Byte → Acc} {vs : List Byte}
    (hc : ∀ v ∈ vs, (mk v).Maps (f · v)) (h : Finishes cs g) :
    Finishes (vs.map mk ++ cs) fun a => g (vs.foldl f a) := by
  induction vs with
  | nil => exact h
  | cons v vs ih =>
    rw [List.forall_mem_cons] at hc
    exact Finishes.cons (f := (f · v)) hc.1 (ih hc.2)

theorem Finishes.steps_append (n : Nat) (h : Finishes cs g) :
    Finishes (List.replicate n { operand := none, command := .polyStep } ++ cs) fun a => g (polySteps n a) := by
  induction n with
  | zero => exact h
  | succ n ih => exact Finishes.cons (f := polyStep) maps_polyStep ih

end

theorem finishes_primitiveProgram {p ws : List Byte} (hp : ∀ c ∈ p, prefixCharOk c = true)
    (hw : ∀ w ∈ ws, wordOk w = true) : Finishes (primitiveProgram p ws) fun _ => checksumValue p ws := by
  have hsteps := finishes_polyFinal.steps_append 8
  have hwords := hsteps.map_append fun w h => maps_polyFeedw (hw w h)
  have hprefix := (hwords.cons maps_polyStep).map_append fun c h => maps_polyFeedc (hp c h)
  have hall := hprefix.cons maps_accInit
  exact hall

/-- Settles O43: both leave the checksum value in ACC and its words in CKW. -/
theorem primitivesComputeTheChecksum : Obligations.PrimitivesComputeTheChecksum := by
  intro s hm hp hw hchars hwords
  have hc : ∀ c ∈ s.input .pfx, prefixCharOk c = true := State.forall_mem_seq hchars
  have hd : ∀ w ∈ s.input .words, wordOk w = true :=
    State.forall_mem_seq fun k hk => (wordOk_iff _).mpr (hwords k hk)
  obtain ⟨ts, t, hrun, hcode, hlast, hacc, hckw⟩ := finishes_primitiveProgram hc hd s hm
  have hcmd : exec .checksum s = _ := congrArg (conclude s) (checksumResult_ok hp hw hc hd)
  refine ⟨ts, t, _, hrun, hcode, hlast, hcmd, rfl, hacc, fun i hi => ?_⟩
  rw [hckw i hi, State.finish_elem, State.setChecksum_ckw hm _ hi]

/-! ### Prefixes that agree in their low 5 bits (R151) -/

/-- The prefix is absorbed through its characters' low 5 bits. -/
theorem foldl_absorbChar_eq (a : Acc) (p : List Byte) : p.foldl absorbChar a =
    (p.map fun c => c.toNat % 32).foldl (fun a n => polyStep a ^^^ BitVec.ofNat 40 n) a := by
  simp only [List.foldl_map, ← absorbChar_eq]

theorem checksumAcc_congr_prefix {p q : List Byte} (ws : List Byte) (hp : ∀ c ∈ p, prefixCharOk c = true)
    (hq : ∀ c ∈ q, prefixCharOk c = true) (h : p.map (fun c => c.toNat % 32) = q.map fun c => c.toNat % 32) :
    checksumAcc p ws = checksumAcc q ws := by
  have hfold : p.foldl absorbChar 1 = q.foldl absorbChar 1 := by rw [foldl_absorbChar_eq, h, foldl_absorbChar_eq]
  have hprefix : absorbPrefix 1 p = absorbPrefix 1 q := by
    rw [absorbPrefix_ok 1 hp, absorbPrefix_ok 1 hq, hfold]
  rw [checksumAcc, checksumAcc, hprefix]

/-- Settles O44: the low 5 bits decide, and the rule's pair agrees in them. -/
theorem checksumSeesOnlyFiveBitsOfThePrefix : Obligations.ChecksumSeesOnlyFiveBitsOfThePrefix := by
  refine ⟨fun p q ws _ hok h => ?_, checksumAcc_congr_prefix [] (by decide) (by decide) (by decide)⟩
  rw [List.forall_mem_append] at hok
  exact checksumAcc_congr_prefix ws hok.1 hok.2 h

/-! ### One replaced payload character (R153) -/

theorem absorbWord_injective (w : Byte) : Function.Injective (absorbWord · w) := fun _ _ h =>
  polyStep_injective ((BitVec.xor_left_inj _).mp h)

theorem foldl_absorbWord_injective (ws : List Byte) : Function.Injective fun a => ws.foldl absorbWord a := by
  induction ws with
  | nil => exact Function.injective_id
  | cons w ws ih => exact ih.comp (absorbWord_injective w)

theorem eq_of_absorbWord_eq {a : Acc} {v w : Byte} (h : absorbWord a v = absorbWord a w) : v = w := by
  have hwide : v.setWidth 40 = w.setWidth 40 := (BitVec.xor_right_inj _).mp h
  have hnat := congrArg BitVec.toNat hwide
  rw [BitVec.toNat_setWidth_of_le (by decide), BitVec.toNat_setWidth_of_le (by decide)] at hnat
  exact BitVec.eq_of_toNat_eq hnat

/-- The words after a replaced word cannot undo its change. -/
theorem checksumValue_set_ne {p ws : List Byte} {i : Nat} {w : Byte} (hi : i < ws.length) (hw : w ≠ ws[i]) :
    checksumValue p (ws.set i w) ≠ checksumValue p ws := by
  intro h
  have hfold := polySteps_injective 8 ((BitVec.xor_left_inj _).mp h)
  have hws : ws = ws.take i ++ ws[i] :: ws.drop (i + 1) := by simp
  rw [List.set_eq_take_append_cons_drop, if_pos hi, List.foldl_append] at hfold
  conv_rhs at hfold => rw [hws, List.foldl_append]
  exact hw (eq_of_absorbWord_eq (foldl_absorbWord_injective _ hfold))

/-- The 8 words hold all 40 bits. -/
theorem ckWords_injective : Function.Injective ckWords := by
  intro a b h
  refine BitVec.eq_of_getLsbD_eq fun k hk => ?_
  have hbit (x : Acc) : (ckDigit x (7 - k / 5)).getLsbD (k % 5) = x.getLsbD k := by
    have hlt : k % 5 < 5 := Nat.mod_lt _ (by decide)
    simp [ckDigit, hlt, show k % 5 < 8 by omega, show 35 - 5 * (7 - k / 5) + k % 5 = k by omega]
  have hdigit := List.map_inj_left.mp h (7 - k / 5) (List.mem_range.mpr (by simp only [Config.nCk]; omega))
  rw [← hbit a, ← hbit b, hdigit]

theorem lastSep_lower (s : List Byte) : lastSep (lower s) = lastSep s := by
  induction s with
  | nil => rfl
  | cons c s ih =>
    have hcons : lower (c :: s) = lowerC c :: lower s := rfl
    simp only [hcons, lastSep, ih, lowerC_eq_sep]

/-- A word sequence with its checksum words, one word of it replaced: its last 8 words are no longer the checksum words
of the words before them. -/
theorem exists_mismatch_of_set {p ws : List Byte} {i : Nat} {w : Byte} {v : List Byte}
    (hv : v = ws ++ ckWords (checksumValue p ws)) (hi : i < v.length) (hw : w ≠ v[i]) :
    ∃ ws' c, v.set i w = ws' ++ c ∧ c.length = 8 ∧ ckWords (checksumValue p ws') ≠ c := by
  subst hv
  by_cases hdata : i < ws.length
  · rw [List.getElem_append_left hdata] at hw
    exact ⟨ws.set i w, _, List.set_append_left _ _ hdata, ckWords_length _,
      fun h => checksumValue_set_ne hdata hw (ckWords_injective h)⟩
  · rw [List.getElem_append_right (Nat.not_lt.mp hdata)] at hw
    refine ⟨ws, _, List.set_append_right _ _ (Nat.not_lt.mp hdata), by simp, fun h => ?_⟩
    have hget := List.getElem_of_eq h (i := i - ws.length) (by rw [List.length_append] at hi; omega)
    rw [List.getElem_set_self] at hget
    exact hw hget.symm

theorem exists_charAt_eq {c : Byte} (h : c ∈ charset) : ∃ w, wordOk w = true ∧ charAt w = c := by
  obtain ⟨w, hw⟩ := Option.ne_none_iff_exists'.mp fun hn => charIndex_eq_none_iff.mp hn h
  obtain ⟨hchar, hok⟩ := charAt_charIndex c w hw
  exact ⟨w, hok, hchar⟩

theorem lower_set (s : List Byte) (j : Nat) (c : Byte) : lower (s.set j c) = (lower s).set j (lowerC c) := List.map_set

theorem sep_not_mem_map_charAt {v : List Byte} (h : ∀ w ∈ v, wordOk w = true) : sep ∉ v.map charAt := by
  intro hm
  obtain ⟨w, hw, he⟩ := List.mem_map.mp hm
  exact (charAt_not_upper (h w hw)).2 he

section
variable {str p ws c : List Byte} (hf : Framed str p ws c)
include hf

theorem Framed.lastSep_eq : lastSep str = some p.length := by
  rw [← lastSep_lower, hf.shape]
  exact lastSep_eq_some.mpr ⟨p, _, rfl, rfl, sep_not_mem_map_charAt hf.words⟩

/-- A payload character, lowercased, is the character of its word. -/
theorem Framed.charAt_eq {i : Nat} {ch : Byte} (hch : str[p.length + 1 + i]? = some ch) :
    ∃ h : i < (ws ++ c).length, charAt (ws ++ c)[i] = lowerC ch := by
  have hlow : (lower str)[p.length + 1 + i]? = some (lowerC ch) := by rw [lower, List.getElem?_map, hch]; rfl
  rw [hf.shape, List.getElem?_append_right (by omega), Nat.add_assoc, Nat.add_sub_cancel_left, Nat.add_comm 1 i,
    List.getElem?_cons_succ, List.getElem?_map, Option.map_eq_some_iff] at hlow
  obtain ⟨w, hget, hw⟩ := hlow
  obtain ⟨hi, rfl⟩ := List.getElem?_eq_some_iff.mp hget
  exact ⟨hi, hw⟩

/-- Replacing a payload character replaces its word. -/
theorem Framed.set {i : Nat} {ch w : Byte} {ws' c' : List Byte} (hm : mixed (str.set (p.length + 1 + i) ch) = false)
    (hch : charAt w = lowerC ch) (hw : wordOk w = true) (hset : (ws ++ c).set i w = ws' ++ c') (h8 : c'.length = 8) :
    Framed (str.set (p.length + 1 + i) ch) p ws' c' where
  unmixed := hm
  shape := by
    rw [lower_set, hf.shape, List.set_append_right _ _ (by omega), Nat.add_assoc, Nat.add_sub_cancel_left,
      Nat.add_comm 1 i, List.set_cons_succ, ← hset, List.map_set, hch]
  nonempty := hf.nonempty
  chars := hf.chars
  words := by
    intro x hx
    rw [← hset] at hx
    rcases List.mem_or_eq_of_mem_set hx with h | rfl
    · exact hf.words x h
    · exact hw
  eight := h8

end

/-- Settles O45: the replaced string is again a frame in form, and its last 8 words are not its checksum. -/
theorem singleSubstitutionIsDetected : Obligations.SingleSubstitutionIsDetected := by
  intro str p d k j c c' hdec hsep hkj hget hmem hne hmix
  have hf := frameDec_eq_ok hdec
  obtain rfl : p.length = k := Option.some.inj (hf.lastSep_eq.symm.trans hsep)
  obtain ⟨i, rfl⟩ := Nat.exists_eq_add_of_lt hkj
  rw [Nat.add_right_comm] at hget hmix ⊢
  obtain ⟨w, hw, hch⟩ := exists_charAt_eq hmem
  obtain ⟨hi, hold⟩ := hf.charAt_eq hget
  have hchange : w ≠ (d ++ ckWords (checksumValue p d))[i] := by
    rintro rfl
    exact hne (hch.symm.trans hold)
  obtain ⟨ws, ck, hset, h8, hck⟩ := exists_mismatch_of_set rfl hi hchange
  exact ⟨_, (frameDec_framed (hf.set hmix hch hw hset h8)).trans (if_neg hck)⟩

end Sys2Proof.Machine
end

section
/-! PROOFS (44_framer.md). O46 to O50. The text that FrameEnc yields is a valid frame of the lowercased prefix
(`frameText_valid`), and a valid frame's lowercased string is that text (`ValidFrame.frameText_eq`); the round trips are
these two. FrameDec sees a string through its lowercase form and whether it is mixed (`frameDec_congr`). Each error of
R175 has one lemma, in the order of the rule; past the last of them the string is a frame in form (`exists_framed`). -/

namespace Sys2Proof.Machine

/-! ### Round trips (R177) -/

theorem lower_not_upper (s : List Byte) : ∀ c ∈ lower s, isUpper c = false :=
  List.forall_mem_map.mpr fun c _ => lowerC_not_upper c

theorem frameText_of_prefix (p ws : List Byte) :
    frameText p ws true = lower p ++ sep :: (ws ++ ckWords (checksumValue (lower p) ws)).map charAt := rfl

theorem frameText_not_upper {p ws : List Byte}
    (hw : ∀ w ∈ ws ++ ckWords (checksumValue (lower p) ws), wordOk w = true) :
    ∀ c ∈ frameText p ws true, isUpper c = false := by
  rw [frameText_of_prefix, List.forall_mem_append, List.forall_mem_cons, List.forall_mem_map]
  exact ⟨lower_not_upper p, by decide, fun w h => (charAt_not_upper (hw w h)).1⟩

/-- What FrameEnc yields is a valid frame of the lowercased prefix. -/
theorem frameText_valid {p ws : List Byte} (h0 : p ≠ []) (hp : ∀ c ∈ lower p, prefixCharOk c = true)
    (hw : ∀ w ∈ ws, wordOk w = true) : ValidFrame (frameText p ws true) (lower p) ws := by
  have hall : ∀ w ∈ ws ++ ckWords (checksumValue (lower p) ws), wordOk w = true :=
    List.forall_mem_append.mpr ⟨hw, ckWords_ok _⟩
  have hup := frameText_not_upper hall
  exact {
    unmixed := mixed_of_not_upper hup
    shape := lower_of_not_upper hup
    nonempty := by simpa [lower] using h0
    chars := hp
    words := hall
    eight := ckWords_length _ }

theorem Framed.lower_prefix {str p ws c : List Byte} (hf : Framed str p ws c) : lower p = p :=
  lower_of_not_upper fun ch h => prefixCharOk_not_upper (hf.chars ch h)

/-- A valid frame, lowercased, is what FrameEnc yields for its prefix and words. -/
theorem ValidFrame.frameText_eq {str p ws : List Byte} (hf : ValidFrame str p ws) :
    frameText p ws true = lower str := by
  rw [frameText_of_prefix, Framed.lower_prefix hf]
  exact hf.shape.symm

/-- Settles O49: what FrameEnc yields is a valid frame, and a valid frame is what FrameEnc yields. -/
theorem framesRoundTrip : Obligations.FramesRoundTrip := by
  refine ⟨fun p ws str henc => ?_, fun str p d hdec => ?_⟩
  · obtain ⟨h0, hp, hw, rfl⟩ := frameEnc_eq_ok henc
    exact (frameDec_framed (frameText_valid h0 hp hw)).trans (if_pos rfl)
  · have hf := frameDec_eq_ok hdec
    have hp : ∀ c ∈ lower p, prefixCharOk c = true := hf.lower_prefix.symm ▸ hf.chars
    have hw : ∀ w ∈ d, wordOk w = true := fun w h => hf.words w (List.mem_append_left _ h)
    rw [frameEnc_ok true hf.nonempty hp hw, hf.frameText_eq]

/-! ### Case (R178) -/

theorem lowerC_upperC (c : Byte) : lowerC (upperC c) = lowerC c := by
  simpa using forall_byte (fun c => lowerC (upperC c) == lowerC c) (by decide +kernel) c

theorem upperC_not_lower (c : Byte) : isLowerLetter (upperC c) = false := by
  simpa using forall_byte (fun c => !isLowerLetter (upperC c)) (by decide +kernel) c

theorem lower_lower (s : List Byte) : lower (lower s) = lower s := lower_of_not_upper (lower_not_upper s)

theorem lower_map_upperC (s : List Byte) : lower (s.map upperC) = lower s := by
  rw [lower, List.map_map]
  exact List.map_congr_left fun c _ => lowerC_upperC c

theorem mixed_map_upperC (s : List Byte) : mixed (s.map upperC) = false := by
  have hlow : (s.map upperC).any isLowerLetter = false :=
    List.any_eq_false.mpr (List.forall_mem_map.mpr fun c _ => by simp [upperC_not_lower])
  rw [mixed, hlow, Bool.and_false]

/-- FrameDec sees a string through its lowercase form and whether it is mixed (R175). -/
theorem frameDec_congr {s t : List Byte} (hm : mixed s = mixed t) (hl : lower s = lower t) :
    frameDec s = frameDec t := by
  rw [frameDec, frameDec, hm, hl]

/-- Settles O50: neither case form is mixed, and both have the string's lowercase form. -/
theorem frameDecIgnoresCase : Obligations.FrameDecIgnoresCase := fun str hm =>
  ⟨frameDec_congr ((mixed_map_upperC str).trans hm.symm) (lower_map_upperC str),
    frameDec_congr ((mixed_of_not_upper (lower_not_upper str)).trans hm.symm) (lower_lower str)⟩

/-! ### The errors of FrameDec (R173 to R175) -/

theorem frameDec_mixed {str : List Byte} (hm : mixed str = true) : frameDec str = .error .mixedCase := by
  rw [frameDec, if_pos hm]

theorem frameDec_no_sep {str : List Byte} (hm : mixed str = false) (hs : sep ∉ str) :
    frameDec str = .error .missingSeparator := by
  rw [frameDec, hm, lastSep_lower, lastSep_eq_none.mpr hs]
  rfl

/-- An unmixed string that passes every check before the checksum is a frame in form. -/
theorem exists_framed {str p q : List Byte} (hm : mixed str = false) (hs : lower str = p ++ sep :: q) (hp : p ≠ [])
    (h8 : 8 ≤ q.length) (hq : ∀ c ∈ q, c ∈ charset) (hc : ∀ c ∈ p, prefixCharOk c = true) :
    ∃ ws c, Framed str p ws c := by
  obtain ⟨v, hv⟩ := charDec_ok hq
  obtain ⟨hmap, hok⟩ := charDec_eq_ok hv
  have hlen := charDec_length hv
  have hsplit : v.take (v.length - 8) ++ v.drop (v.length - 8) = v := List.take_append_drop _ v
  refine ⟨_, _, hm, ?_, hp, hc, hsplit.symm ▸ hok, ?_⟩
  · rw [hsplit, hmap, hs]
  · rw [List.length_drop]
    omega

/-- Settles O48: each check of R175 fails in its turn, and past them the string is a frame in form. -/
theorem frameDecErrorOrder : Obligations.FrameDecErrorOrder := by
  refine fun str => ⟨frameDec_mixed, frameDec_no_sep, fun p q hm hs hq => ?_⟩
  have hdec := (frameDec_split hm hs hq).trans (frameDecAt_eq p q)
  rw [require_bind, require_bind] at hdec
  simp only [bne_iff_ne, ne_eq, List.length_eq_zero_iff, decide_eq_true_eq] at hdec
  refine ⟨fun hp => ?_, fun hp h8 => ?_, fun hp h8 hbad => ?_, fun hp h8 hok hbad => ?_, fun hp h8 hok hc => ?_⟩
  · rw [hdec, if_neg (not_not.mpr hp)]
  · rw [hdec, if_pos hp, if_neg (Nat.not_le.mpr h8)]
  · have hchar : ∃ c ∈ q, charIndex c = none := by simpa only [charIndex_eq_none_iff] using hbad
    rw [hdec, if_pos hp, if_pos h8, charDec_error hchar, error_bind]
  · obtain ⟨v, hv⟩ := charDec_ok hok
    rw [hdec, if_pos hp, if_pos h8, hv, ok_bind, checksumAcc_prefix_error _ hbad, error_bind]
  · obtain ⟨ws, c, hf⟩ := exists_framed hm hs hp h8 hok hc
    have hframe := frameDec_framed hf
    split at hframe
    · exact .inl ⟨ws, hframe⟩
    · exact .inr ⟨_, hframe⟩

/-! ### FRM.ENC (R171) -/

/-- The length checks, then FrameEnc. -/
theorem frmEncResult_eq (nopfx : Bool) (s : State) : frmEncResult nopfx s =
    if s.pfxLen.toNat ≤ 64 ∧ s.wordLen.toNat ≤ 128 then
      frameEnc (s.input .pfx) (s.input .words) (!nopfx) >>= fun str => .ok (s.setSeq .str str)
    else .error .lengthExceeded := by
  simp only [frmEncResult, require_bind, Bool.and_eq_true, State.lengthOk_iff]
  rfl

theorem frameText_eq (p ws : List Byte) (nopfx : Bool) : frameText p ws (!nopfx) =
    (if nopfx then [] else lower p ++ [sep]) ++ (ws ++ ckWords (checksumValue (lower p) ws)).map charAt := by
  cases nopfx <;> simp [frameText]

section
variable {s : State} {vs : List Byte}

/-- A command whose one output is a string leaves it in STR, as long as STR_LEN can tell. -/
theorem succeeds_setSeq_str {i : Instr} {r : Except Err State} (hm : s.mem.wf = true) (he : exec i s = conclude s r)
    (hr : r = .ok (s.setSeq .str vs)) (hl : vs.length < 65536) :
    ∃ t, Succeeds i s [.strLen] (slotsOf .str t.strLen.toNat) t ∧ t.strLen.toNat = vs.length ∧
      t.seq .str t.strLen.toNat = vs := by
  have hs := succeeds_setSeq (b := .str) he hr rfl
  have hlen : (s.setSeq .str vs).finish.strLen.toNat = vs.length := State.len_setSeq s (b := .str) rfl vs hl
  rw [← hlen] at hs
  exact ⟨_, hs, hlen, State.input_setSeq hm (b := .str) rfl vs hl⟩

theorem input_pfx_ne_nil (h0 : s.pfxLen ≠ 0) : s.input .pfx ≠ [] := by
  rw [ne_eq, ← List.length_eq_zero_iff, State.input_length]
  exact fun h => h0 (BitVec.eq_of_toNat_eq h)

theorem input_pfx_eq_nil (h0 : s.pfxLen = 0) : s.input .pfx = [] := by
  rw [← List.length_eq_zero_iff, State.input_length, State.len, h0]
  rfl

end

/-- Settles O46: the lengths, then the errors of FrameEnc in their order, and its text. -/
theorem frmEncFramesPrefixAndWords : Obligations.FrmEncFramesPrefixAndWords := by
  refine ⟨decode_encode (.frmEnc false), decode_encode (.frmEnc true), fun nopfx s hm => ?_⟩
  have hres := frmEncResult_eq nopfx s
  have hfail {e : Err} (hr : frmEncResult nopfx s = .error e) (he : e.code ≠ 10) :
      ∃ t, FailsWith (.frmEnc nopfx) s e.code.toNat t := failsWith_of_result rfl hr he
  refine ⟨fun hl => hfail (hres.trans (if_neg (by omega))) (by decide), fun hp hw => ?_⟩
  rw [if_pos ⟨hp, hw⟩] at hres
  refine ⟨fun h0 => ?_, fun h0 hbad => ?_, fun h0 hchars => ?_⟩
  · rw [input_pfx_eq_nil h0, frameEnc_empty, error_bind] at hres
    exact hfail hres (by decide)
  · obtain ⟨c, hmem, hbad⟩ := State.exists_mem_seq (P := fun c => prefixCharOk (lowerC c) = false) hbad
    have hc : ∃ c ∈ lower (s.input .pfx), prefixCharOk c = false := ⟨_, List.mem_map_of_mem hmem, hbad⟩
    rw [frameEnc_prefix_error _ _ (input_pfx_ne_nil h0) hc, error_bind] at hres
    exact hfail hres (by decide)
  have hc : ∀ c ∈ lower (s.input .pfx), prefixCharOk c = true :=
    List.forall_mem_map.mpr (State.forall_mem_seq (P := fun c => prefixCharOk (lowerC c) = true) hchars)
  refine ⟨fun hbad => ?_, fun hwords => ?_⟩
  · have hd : ∃ w ∈ s.input .words, wordOk w = false :=
      State.exists_mem_seq (P := fun w => wordOk w = false) (by simpa [wordOk, State.len] using hbad)
    rw [frameEnc_word_error _ (input_pfx_ne_nil h0) hc hd, error_bind] at hres
    exact hfail hres (by decide)
  · have hd : ∀ w ∈ s.input .words, wordOk w = true :=
      State.forall_mem_seq fun k hk => (wordOk_iff _).mpr (hwords k hk)
    have hlen : (frameText (s.input .pfx) (s.input .words) (!nopfx)).length =
        (if nopfx then 0 else s.pfxLen.toNat + 1) + s.wordLen.toNat + 8 := by
      rw [frameText_length, State.input_length, State.input_length]
      cases nopfx <;> rfl
    rw [frameEnc_ok _ (input_pfx_ne_nil h0) hc hd, ok_bind] at hres
    obtain ⟨t, hs, hl, hseq⟩ := succeeds_setSeq_str (i := .frmEnc nopfx) hm rfl hres (by rw [hlen]; split <;> omega)
    exact ⟨t, hs, hl.trans hlen, hseq.trans (frameText_eq _ _ _)⟩

/-! ### FRM.DEC (R176) -/

/-- The input length, then FrameDec, then whether its result fits. -/
theorem frmDecResult_eq (s : State) : frmDecResult s =
    if s.strLen.toNat ≤ 256 then
      frameDec (s.input .str) >>= fun r =>
        if r.1.length ≤ 64 ∧ r.2.length ≤ 128 then .ok ((s.setSeq .pfx r.1).setSeq .words r.2)
        else .error .lengthExceeded
    else .error .lengthExceeded := by
  simp only [frmDecResult, require_bind, Bool.and_eq_true, State.lengthOk_iff, decide_eq_true_eq]
  rfl

theorem State.seq_setSeq_same {s : State} (hm : s.mem.wf = true) (b : Buf) (vs : List Byte) :
    (s.setSeq b vs).seq b vs.length = vs := by
  rw [State.setSeq, State.setLen_seq, State.seq_setElems hm]

/-- A sequence that fits its buffer leaves every other buffer's elements alone. -/
theorem State.seq_setSeq_other (s : State) {b c : Buf} {vs : List Byte} {n : Nat} (hvs : vs.length ≤ b.cap)
    (hn : n ≤ c.cap) (h : c ≠ b) : (s.setSeq b vs).seq c n = s.seq c n := by
  refine List.map_congr_left fun k hk => ?_
  rw [State.setSeq_elem, State.elem_setElems_other s hvs ((List.mem_range.mp hk).trans_le hn) (.inl h)]

/-- Prefix and words are written one after the other, and both stand in the end. -/
theorem succeeds_setSeq_pfx_words {i : Instr} {s : State} {r : Except Err State} {p ws : List Byte}
    (hm : s.mem.wf = true) (he : exec i s = conclude s r) (hr : r = .ok ((s.setSeq .pfx p).setSeq .words ws))
    (hp : p.length ≤ 64) (hw : ws.length ≤ 128) :
    ∃ t, Succeeds i s [.pfxLen, .wordLen] (slotsOf .pfx p.length ++ slotsOf .words ws.length) t ∧
      t.pfxLen.toNat = p.length ∧ t.wordLen.toNat = ws.length ∧ t.seq .pfx p.length = p ∧
      t.seq .words ws.length = ws := by
  have hf := (Frame.setSeq s (b := .pfx) rfl p).trans (Frame.setSeq (s.setSeq .pfx p) (b := .words) rfl ws)
  have hm' : (s.setSeq .pfx p).mem.wf = true := (KeepsForms.setSeq s .pfx p).1 hm
  refine ⟨_, succeeds_of_result he hr hf (by simp [State.setSeq]), ?_, ?_, ?_, ?_⟩
  · exact State.len_setSeq s (b := .pfx) rfl p (by omega)
  · exact State.len_setSeq (s.setSeq .pfx p) (b := .words) rfl ws (by omega)
  · rw [State.finish_seq, State.seq_setSeq_other _ hw hp (by decide), State.seq_setSeq_same hm]
  · rw [State.finish_seq, State.seq_setSeq_same hm']

/-- Settles O47: the input length, an error of FrameDec passed on, and on a frame in form what FrameDec answers. -/
theorem frmDecReadsFrames : Obligations.FrmDecReadsFrames := by
  have hfail {s : State} {e : Err} (hr : frmDecResult s = .error e) (he : e.code ≠ 10) :
      ∃ t, FailsWith .frmDec s e.code.toNat t := failsWith_of_result rfl hr he
  refine ⟨decode_encode .frmDec, fun s hl => ?_, fun s e hl hdec he => ?_, fun s p ws c hm hl hf => ?_⟩
  · exact hfail ((frmDecResult_eq s).trans (if_neg (Nat.not_le.mpr hl))) (by decide)
  · exact hfail (by rw [frmDecResult_eq, if_pos hl, hdec, error_bind]) he
  have hres := frmDecResult_eq s
  rw [if_pos hl, frameDec_framed hf] at hres
  refine ⟨fun hne => ?_, fun hc hbig => ?_, fun hc hp hw => ?_⟩
  · rw [if_neg (Ne.symm hne), error_bind] at hres
    exact failsWithExpected_of_result rfl hres (by simp) hm
  · have hlong : ¬ (p.length ≤ 64 ∧ ws.length ≤ 128) := by omega
    rw [if_pos hc.symm, ok_bind, if_neg hlong] at hres
    exact hfail hres (by decide)
  · rw [if_pos hc.symm, ok_bind, if_pos ⟨hp, hw⟩] at hres
    exact succeeds_setSeq_pfx_words hm rfl hres hp hw

end Sys2Proof.Machine
end

section
/-! PROOFS (45_version_byte.md). O51, O52, O53. Each command is its checks in order and then its writes
(`vbPackResult_eq` and the three like it). What it writes is read as arithmetic on the fields of the version byte (R190,
`versionByte_toNat`) and as positions in `sizes` (R191, `sizes_getElem?`). The round trips of R196 follow from the four
successes alone (`succeeds_vbPack` and the three like it), as the spec infers them. -/

namespace Sys2Proof.Machine

/-! ### The fields of the version byte (R190) -/

theorem typebitsOk_iff (tb : Byte) : typebitsOk tb = true ↔ tb.toNat ≤ 15 := decide_eq_true_iff

theorem sizebitsOk_iff (sb : Byte) : sizebitsOk sb = true ↔ sb.toNat ≤ 7 := decide_eq_true_iff

theorem typeKnown_iff (t : Byte) : typeKnown t = true ↔ t.toNat ≤ 1 := by
  simp only [typeKnown, Bool.or_eq_true, beq_iff_eq, BitVec.toNat_eq, BitVec.reduceToNat]
  omega

/-- With both codes in range the fields do not overlap, and no bit is lost. -/
theorem versionByte_toNat {tb sb : Byte} (ht : tb.toNat ≤ 15) (hs : sb.toNat ≤ 7) :
    (versionByte tb sb).toNat = 8 * tb.toNat + sb.toNat := by
  have hshift : (tb <<< 3).toNat = tb.toNat <<< 3 := by
    rw [BitVec.toNat_shiftLeft, Nat.shiftLeft_eq]
    omega
  rw [versionByte, BitVec.toNat_or, hshift, ← Nat.shiftLeft_add_eq_or_of_lt (by omega), Nat.shiftLeft_eq]
  omega

theorem vbType_toNat (vb : Byte) : (vbType vb).toNat = vb.toNat / 8 := by
  rw [vbType, BitVec.toNat_ushiftRight, Nat.shiftRight_eq_div_pow]

theorem vbSize_toNat (vb : Byte) : (vbSize vb).toNat = vb.toNat % 8 :=
  (BitVec.toNat_and ..).trans (Nat.and_two_pow_sub_one_eq_mod vb.toNat 3)

/-! ### Positions in the table of sizes (R191) -/

theorem sizes_getElem? {sb : Byte} (h : sb.toNat ≤ 7) : sizes[sb.toNat]? = some (sizeLength sb) := by
  have hlt : sb.toNat < sizes.length := Nat.lt_succ_of_le h
  rw [sizeLength, List.getD_eq_getElem _ _ hlt, List.getElem?_eq_getElem hlt]

theorem hashSizeCode_of_getElem? {k n : Nat} (hk : k < 8) (h : sizes[k]? = some n) :
    hashSizeCode n = .ok (BitVec.ofNat 8 k) := by
  have hcode : (BitVec.ofNat 8 k).toNat = k := Nat.mod_eq_of_lt (by omega)
  have hok : sizebitsOk (BitVec.ofNat 8 k) = true := (sizebitsOk_iff _).mpr (by omega)
  have hlen : some (sizeLength (BitVec.ofNat 8 k)) = some n := by rw [← sizes_getElem? (by omega), hcode, h]
  rw [hashSizeCode_eq_ok, ← Option.some.inj hlen, sizeCode_sizeLength _ hok]

theorem hashSizeCode_of_not_mem {n : Nat} (h : n ∉ sizes) : hashSizeCode n = .error .unsupportedHashSize := by
  have hnone : sizes.findIdx? (· == n) = none := by
    rw [List.findIdx?_eq_none_iff]
    exact fun x hx => beq_eq_false_iff_ne.mpr (ne_of_mem_of_not_mem hx h)
  rw [hashSizeCode, sizeCode, hnone, Option.map_none]

/-! ### VB.PACK and VB.UNPACK (R192, R193) -/

theorem vbPackResult_eq (s : State) : vbPackResult s =
    if s.typebits.toNat ≤ 15 then
      if s.sizebits.toNat ≤ 7 then .ok (s.setVbyte (versionByte s.typebits s.sizebits)) else .error .invalidSizeBits
    else .error .invalidTypeBits := by
  simp only [vbPackResult, require_bind, typebitsOk_iff, sizebitsOk_iff]
  rfl

theorem vbUnpackResult_eq (s : State) : vbUnpackResult s =
    if s.vbyte.toNat < 128 then .ok ((s.setTypebits (vbType s.vbyte)).setSizebits (vbSize s.vbyte))
    else .error .invalidTypeBits := by
  have hcheck : typebitsOk (vbType s.vbyte) = true ↔ s.vbyte.toNat < 128 := by
    rw [typebitsOk_iff, vbType_toNat]
    omega
  simp only [vbUnpackResult, require_bind, hcheck]
  rfl

/-- A command whose outputs are TYPEBITS and SIZEBITS. -/
theorem succeeds_setCodes {i : Instr} {s : State} {r : Except Err State} {tb sb : Byte} (he : exec i s = conclude s r)
    (hr : r = .ok ((s.setTypebits tb).setSizebits sb)) :
    ∃ t, Succeeds i s [.typebits, .sizebits] [] t ∧ t.typebits = tb ∧ t.sizebits = sb :=
  ⟨_, succeeds_of_result he hr ((Frame.setTypebits s tb).trans (Frame.setSizebits _ sb)) rfl, rfl, rfl⟩

section
variable {s : State}

theorem succeeds_vbPack (ht : s.typebits.toNat ≤ 15) (hs : s.sizebits.toNat ≤ 7) :
    ∃ t, Succeeds .vbPack s [.vbyte] [] t ∧ t.vbyte.toNat = 8 * s.typebits.toNat + s.sizebits.toNat := by
  have hr := vbPackResult_eq s
  rw [if_pos ht, if_pos hs] at hr
  exact ⟨_, succeeds_of_result rfl hr (Frame.setVbyte s _) rfl, versionByte_toNat ht hs⟩

theorem succeeds_vbUnpack (hv : s.vbyte.toNat < 128) :
    ∃ t, Succeeds .vbUnpack s [.typebits, .sizebits] [] t ∧ t.typebits.toNat = s.vbyte.toNat / 8 ∧
      t.sizebits.toNat = s.vbyte.toNat % 8 := by
  obtain ⟨t, h, htb, hsb⟩ := succeeds_setCodes (i := .vbUnpack) rfl ((vbUnpackResult_eq s).trans (if_pos hv))
  exact ⟨t, h, htb ▸ vbType_toNat _, hsb ▸ vbSize_toNat _⟩

end

/-- Settles O51: the checks fail in their order, and past them the fields are 8 tb + sb. -/
theorem versionBytePacksAndUnpacks : Obligations.VersionBytePacksAndUnpacks := by
  refine ⟨decode_encode .vbPack, decode_encode .vbUnpack, fun s => ?_⟩
  have hpack := vbPackResult_eq s
  have hunpack := vbUnpackResult_eq s
  refine ⟨fun ht => ?_, fun ht hs => ?_, succeeds_vbPack, fun hv => ?_, succeeds_vbUnpack⟩
  · rw [if_neg (Nat.not_le.mpr ht)] at hpack
    exact failsWith_of_result rfl hpack (by decide)
  · rw [if_pos ht, if_neg (Nat.not_le.mpr hs)] at hpack
    exact failsWith_of_result rfl hpack (by decide)
  · rw [if_neg (Nat.not_lt.mpr hv)] at hunpack
    exact failsWith_of_result rfl hunpack (by decide)

/-! ### VB.ENCTS and VB.DECTS (R194, R195) -/

theorem vbEnctsResult_eq (s : State) : vbEnctsResult s =
    if s.outType.toNat ≤ 1 then
      hashSizeCode s.hashLen.toNat >>= fun sb => .ok ((s.setTypebits s.outType).setSizebits sb)
    else .error .unknownType := by
  simp only [vbEnctsResult, require_bind, typeKnown_iff]
  rfl

theorem vbDectsResult_eq (s : State) : vbDectsResult s =
    if s.typebits.toNat ≤ 1 then
      if s.sizebits.toNat ≤ 7 then
        .ok ((s.setOutType s.typebits).setSizelen (BitVec.ofNat 8 (sizeLength s.sizebits)))
      else .error .invalidSize
    else .error .invalidType := by
  simp only [vbDectsResult, require_bind, typeKnown_iff, sizebitsOk_iff]
  rfl

section
variable {s : State}

theorem succeeds_vbEncts {k : Nat} (hk : k < 8) (ht : s.outType.toNat ≤ 1) (hn : sizes[k]? = some s.hashLen.toNat) :
    ∃ t, Succeeds .vbEncts s [.typebits, .sizebits] [] t ∧ t.typebits = s.outType ∧ t.sizebits.toNat = k := by
  have hr := vbEnctsResult_eq s
  rw [if_pos ht, hashSizeCode_of_getElem? hk hn, ok_bind] at hr
  obtain ⟨t, h, htb, hsb⟩ := succeeds_setCodes (i := .vbEncts) rfl hr
  exact ⟨t, h, htb, hsb ▸ Nat.mod_eq_of_lt (by omega)⟩

theorem succeeds_vbDects (ht : s.typebits.toNat ≤ 1) (hs : s.sizebits.toNat ≤ 7) :
    ∃ t, Succeeds .vbDects s [.outType, .sizelen] [] t ∧ t.outType = s.typebits ∧
      sizes[s.sizebits.toNat]? = some t.sizelen.toNat := by
  have hr := vbDectsResult_eq s
  rw [if_pos ht, if_pos hs] at hr
  have hle := sizeLength_le s.sizebits
  have hlen : (BitVec.ofNat 8 (sizeLength s.sizebits)).toNat = sizeLength s.sizebits := Nat.mod_eq_of_lt (by omega)
  exact ⟨_, succeeds_of_result rfl hr ((Frame.setOutType s _).trans (Frame.setSizelen _ _)) rfl, rfl,
    (sizes_getElem? hs).trans (congrArg some hlen.symm)⟩

end

/-- Settles O52: the checks fail in their order, and past them the table of sizes is read by length or by position. -/
theorem typeAndSizeCodesMap : Obligations.TypeAndSizeCodesMap := by
  refine ⟨decode_encode .vbEncts, decode_encode .vbDects, fun s => ?_⟩
  have henc := vbEnctsResult_eq s
  have hdec := vbDectsResult_eq s
  refine ⟨fun ht => ?_, fun ht hn => ?_, fun k => succeeds_vbEncts, fun ht => ?_, fun ht hs => ?_, succeeds_vbDects⟩
  · rw [if_neg (Nat.not_le.mpr ht)] at henc
    exact failsWith_of_result rfl henc (by decide)
  · rw [if_pos ht, hashSizeCode_of_not_mem hn, error_bind] at henc
    exact failsWith_of_result rfl henc (by decide)
  · rw [if_neg (Nat.not_le.mpr ht)] at hdec
    exact failsWith_of_result rfl hdec (by decide)
  · rw [if_pos ht, if_neg (Nat.not_le.mpr hs)] at hdec
    exact failsWith_of_result rfl hdec (by decide)

/-! ### Round trips (R196) -/

section
variable {i : Instr} {s t : State} {regs : List Reg} {slots : List Nat}

theorem Succeeds.exec_eq (h : Succeeds i s regs slots t) : exec i s = .next t := h.1

theorem Succeeds.errcode_eq (h : Succeeds i s regs slots t) : t.errcode = 0 := by
  obtain ⟨_, ⟨_, _, _, hcode⟩, _⟩ := h
  exact BitVec.eq_of_toNat_eq hcode

end

/-- Settles O53: the second command succeeds on what the first wrote, and what the two write is inverse. -/
theorem versionByteCommandsRoundTrip : Obligations.VersionByteCommandsRoundTrip := by
  refine fun s => ⟨fun ht hs => ?_, fun hv => ?_, fun ht hn => ?_⟩
  · obtain ⟨t, h, hvb⟩ := succeeds_vbPack ht hs
    refine ⟨t, h.exec_eq, h.errcode_eq, fun v hv => ?_⟩
    rw [← hv] at hvb
    obtain ⟨u, h', htb, hsb⟩ := succeeds_vbUnpack (s := v) (by omega)
    exact ⟨u, h'.exec_eq, h'.errcode_eq, BitVec.eq_of_toNat_eq (by omega), BitVec.eq_of_toNat_eq (by omega)⟩
  · obtain ⟨t, h, htb, hsb⟩ := succeeds_vbUnpack hv
    refine ⟨t, h.exec_eq, h.errcode_eq, fun v hvt hvs => ?_⟩
    rw [← hvt] at htb
    rw [← hvs] at hsb
    obtain ⟨u, h', hvb⟩ := succeeds_vbPack (s := v) (by omega) (by omega)
    exact ⟨u, h'.exec_eq, h'.errcode_eq, BitVec.eq_of_toNat_eq (by omega)⟩
  · obtain ⟨k, hget⟩ := List.mem_iff_getElem?.mp (show s.hashLen.toNat ∈ sizes from hn)
    obtain ⟨hlt, _⟩ := List.getElem?_eq_some_iff.mp hget
    obtain ⟨t, h, htb, hsb⟩ := succeeds_vbEncts hlt ht hget
    refine ⟨t, h.exec_eq, h.errcode_eq, fun v hvt hvs => ?_⟩
    rw [← hvt] at htb
    rw [← hvs] at hsb
    have hsize : v.sizebits.toNat ≤ 7 := hsb ▸ Nat.le_of_lt_succ hlt
    obtain ⟨u, h', htype, hlen⟩ := succeeds_vbDects (htb ▸ ht) hsize
    rw [hsb, hget] at hlen
    exact ⟨u, h'.exec_eq, h'.errcode_eq, htype.trans htb, (Option.some.inj hlen).symm⟩

end Sys2Proof.Machine
end

section
/-! PROOFS (10_state.md, 46_address.md). O15, O19. The invariant has three parts: what the flags say (`State.FlagsOk`),
what the network prefix is (`State.NetOk`), and what memory and the written set hold, which a frame within the window
keeps (`State.Inv.of_frame`). Both claims rest on `NetKept`: a host statement, and a completion of any command but
CFG.NET, sets NET_VALID in no case and leaves the prefix alone while it stays 1. -/

namespace Sys2Proof.Machine

/-! ### The parts of the invariant -/

/-- What the invariant says of the flags and ERRCODE (10_state.md R24, 60_exceptions.md R241, R254). -/
def State.FlagsOk (s : State) : Prop :=
  s.errcode.toNat ≤ 22 ∧ (s.pend.isSome = true → s.done = false ∧ s.err = false) ∧
  (s.err = true → s.done = true) ∧ (s.done = true → s.err = (s.errcode != 0))

/-- What the invariant says of the configured prefix (10_state.md R43). -/
def State.NetOk (s : State) : Prop :=
  s.netValid = true →
    1 ≤ s.netLen.toNat ∧ s.netLen.toNat ≤ Config.capNet ∧ ∀ i < s.netLen.toNat, isUpper (s.elem .net i) = false

/-- While NET_VALID is 1 in `t`, it was so in `s` and the configured prefix is the one of `s` (46_address.md R211). -/
def NetKept (s t : State) : Prop :=
  t.netValid = true → s.netValid = true ∧ t.netLen = s.netLen ∧ ∀ i < Config.capNet, t.elem .net i = s.elem .net i

/-- Memory, the written set, NET_VALID and NET_LEN are the same. -/
def SameStores (s t : State) : Prop :=
  t.mem = s.mem ∧ t.written = s.written ∧ t.netValid = s.netValid ∧ t.netLen = s.netLen

section
variable {s t : State}

theorem State.Inv.flagsOk (hi : s.Inv) : s.FlagsOk :=
  ⟨hi.errcodeBound, hi.busyClears, hi.errNeedsDone, hi.errMatchesCode⟩

/-- A completion sets the flags as its code says (60_exceptions.md R254). -/
theorem Ends.flagsOk {code : Nat} (h : Ends code t) (hc : code ≤ 22) : t.FlagsOk := by
  obtain ⟨hp, hd, he, rfl⟩ := h
  refine ⟨hc, by simp [hp], fun _ => hd, fun _ => ?_⟩
  rw [he, Bool.eq_iff_iff, decide_eq_true_eq, bne_iff_ne, ne_eq, ne_eq, BitVec.toNat_eq]
  rfl

theorem State.Inv.of_sameStores (hi : s.Inv) (h : SameStores s t) (hflags : t.FlagsOk) : t.Inv := by
  obtain ⟨hm, hw, hn, hl⟩ := h
  obtain ⟨hcode, hbusy, herr, hdone⟩ := hflags
  exact {
    memWf := hm ▸ hi.memWf
    writtenWf := hw ▸ hi.writtenWf
    memMapped := hm ▸ hi.memMapped
    writtenMapped := hw ▸ hi.writtenMapped
    netLower := by
      simp only [hn, hl, State.elem_congr hm]
      exact hi.netLower
    errcodeBound := hcode
    busyClears := hbusy
    errNeedsDone := herr
    errMatchesCode := hdone
    ckwWords := by
      simp only [State.elem_congr hm]
      exact hi.ckwWords }

theorem SameStores.netKept (h : SameStores s t) : NetKept s t := by
  obtain ⟨hm, -, hn, hl⟩ := h
  exact fun hv => ⟨hn ▸ hv, hl, fun i _ => State.elem_congr hm .net i⟩

theorem NetKept.netOk (h : NetKept s t) (hi : s.Inv) : t.NetOk := by
  intro hv
  obtain ⟨hvs, hl, he⟩ := h hv
  obtain ⟨hpos, hcap, hlow⟩ := hi.netLower hvs
  rw [hl]
  exact ⟨hpos, hcap, fun i hlt => he i (hlt.trans_le hcap) ▸ hlow i hlt⟩

/-- A change that stays within existing elements keeps the invariant, if the flags, the prefix and CKW still obey it. -/
theorem State.Inv.of_frame {regs : List Reg} {slots : List Nat} {bs : List Buf} (hi : s.Inv) (hk : KeepsForms s t)
    (hf : Frame regs slots s t) (hs : Fits bs slots) (hflags : t.FlagsOk) (hnet : t.NetOk)
    (hckw : ∀ i < Config.nCk, wordOk (t.elem .ckw i) = true) : t.Inv := by
  obtain ⟨hmem, hwritten⟩ := hf.mapped hk hi hs
  obtain ⟨hcode, hbusy, herr, hdone⟩ := hflags
  exact {
    memWf := hk.1 hi.memWf
    writtenWf := hk.2 hi.writtenWf
    memMapped := hmem
    writtenMapped := hwritten
    netLower := hnet
    errcodeBound := hcode
    busyClears := hbusy
    errNeedsDone := herr
    errMatchesCode := hdone
    ckwWords := hckw }

/-- A frame that holds neither NET_LEN nor NET leaves the prefix alone. -/
theorem Frame.netKept {regs : List Reg} {slots : List Nat} {bs : List Buf} (hf : Frame regs slots s t)
    (hs : Fits bs slots) (hv : t.netValid = true → s.netValid = true ∧ Reg.netLen ∉ regs ∧ Buf.net ∉ bs) :
    NetKept s t := by
  intro ht
  obtain ⟨hvs, hr, hb⟩ := hv ht
  exact ⟨hvs, hf.netLen_kept hr, fun i hlt => hf.elem_kept hs hb hlt⟩

end

/-! ### The host's statements -/

section
variable {s t : State}

/-- The buffer a write to the slot stores in. -/
def Slot.bufs : Slot → List Buf
  | .reg _ => []
  | .elem b _ => [b]

theorem Slot.fits_bytes {slot : Slot} (h : slot.mapped = true) : Fits slot.bufs slot.bytes := by
  cases slot with
  | reg r => exact .nil _
  | elem b i =>
    intro a ha
    exact ⟨b, List.mem_singleton_self b, i, of_decide_eq_true h, List.mem_singleton.mp ha⟩

/-- A host write is ignored, lost while a command is pending, starts a command, or stores in one slot
(10_state.md R23, R39, 70_reset_and_hazards.md R276). -/
theorem State.writeSlot_cases (s : State) (slot : Slot) (d : Datum) :
    s.writeSlot slot d = s ∨ s.writeSlot slot d = { s with ovr := true } ∨ s.writeSlot slot d = s.accept d ∨
    (s.pend = none ∧ slot ≠ .reg .cmd ∧ slot.readOnly = false ∧
      s.writeSlot slot d = { s.storeSlot slot d with netValid := s.netValid && !slot.isNet }) := by
  unfold State.writeSlot
  split
  · split
    · exact .inl rfl
    · exact .inr (.inl rfl)
  · next hb =>
    have hp : s.pend = none := by simpa [State.busy_iff] using hb
    by_cases hc : slot = .reg .cmd
    · subst hc
      exact .inr (.inr (.inl rfl))
    · cases hr : slot.readOnly with
      | true => exact .inl (State.writeIdle_readOnly s hr d)
      | false => exact .inr (.inr (.inr ⟨hp, hc, rfl, State.writeIdle_writable s hc hr d⟩))

theorem KeepsForms.storeSlot (s : State) (slot : Slot) (d : Datum) : KeepsForms s (s.storeSlot slot d) := by
  cases slot with
  | reg r => exact .storeReg s r d
  | elem b i => exact .setElem s b i _

section
variable {slot : Slot} (hm : slot.mapped = true) (hc : slot ≠ .reg .cmd) (hr : slot.readOnly = false) (d : Datum)
include hc hr

theorem Frame.storeSlot_withNetValid (s : State) (v : Bool) :
    Frame slot.regs slot.bytes s { s.storeSlot slot d with netValid := v } := by
  have hf := (Frame.storeSlot s hc hr d).trans (Frame.withNetValid _ v)
  rwa [List.append_nil, List.append_nil] at hf

include hm

/-- What a host write stores, with NET_VALID cleared by a write to NET_LEN or NET (10_state.md R24). -/
theorem netKept_storeSlot (s : State) :
    NetKept s { s.storeSlot slot d with netValid := s.netValid && !slot.isNet } := by
  refine (Frame.storeSlot_withNetValid hc hr d s _).netKept (Slot.fits_bytes hm) fun hv => ?_
  obtain ⟨hvs, hnet⟩ := Bool.and_eq_true_iff.mp hv
  refine ⟨hvs, fun hreg => ?_, fun hbuf => ?_⟩
  · cases slot with
    | reg r => cases List.mem_singleton.mp hreg; cases hnet
    | elem b i => cases hreg
  · cases slot with
    | reg r => cases hbuf
    | elem b i => cases List.mem_singleton.mp hbuf; cases hnet

theorem State.Inv.storeSlot (hi : s.Inv) :
    State.Inv { s.storeSlot slot d with netValid := s.netValid && !slot.isNet } := by
  have hf := Frame.storeSlot_withNetValid hc hr d s (s.netValid && !slot.isNet)
  have hs := Slot.fits_bytes hm
  have hnet := (netKept_storeSlot hm hc hr d s).netOk hi
  refine hi.of_frame (KeepsForms.storeSlot s slot d) hf hs ?_ hnet fun i hlt => ?_
  · simpa [State.FlagsOk] using hi.flagsOk
  · have hckw : Buf.ckw ∉ slot.bufs := by
      cases slot with
      | reg r => exact List.not_mem_nil
      | elem b j => rintro hb; cases List.mem_singleton.mp hb; cases hr
    rw [hf.elem_kept hs hckw hlt]
    exact hi.ckwWords i hlt

end

theorem State.advance_sameStores (s : State) (rest : List HostStmt) : SameStores s (s.advance rest) :=
  ⟨rfl, rfl, rfl, rfl⟩

theorem State.readSlot_sameStores (s : State) (off : Offset) (slot : Slot) : SameStores s (s.readSlot off slot) := by
  unfold State.readSlot
  split <;> exact ⟨rfl, rfl, rfl, rfl⟩

theorem State.Inv.advance (hi : s.Inv) (rest : List HostStmt) : (s.advance rest).Inv :=
  hi.of_sameStores (s.advance_sameStores rest) (by simpa [State.FlagsOk] using hi.flagsOk)

theorem State.Inv.readSlot (hi : s.Inv) (off : Offset) (slot : Slot) : (s.readSlot off slot).Inv := by
  refine hi.of_sameStores (s.readSlot_sameStores off slot) ?_
  unfold State.readSlot
  split <;> exact hi.flagsOk

theorem State.Inv.writeSlot (hi : s.Inv) {slot : Slot} (hm : slot.mapped = true) (d : Datum) :
    (s.writeSlot slot d).Inv := by
  rcases s.writeSlot_cases slot d with h | h | h | ⟨-, hc, hr, h⟩ <;> rw [h]
  · exact hi
  · exact hi.of_sameStores ⟨rfl, rfl, rfl, rfl⟩ hi.flagsOk
  · exact hi.of_sameStores ⟨rfl, rfl, rfl, rfl⟩ ⟨hi.errcodeBound, fun _ => ⟨rfl, rfl⟩, nofun, nofun⟩
  · exact hi.storeSlot hm hc hr d

/-- A host statement keeps the invariant. -/
theorem State.Inv.hostStep (hi : s.Inv) (h : hostStep s = .next t) : t.Inv := by
  rcases hostStep_cases h with ⟨-, rfl⟩ | ⟨off, rest, slot, -, -, rfl⟩ | ⟨off, d, rest, slot, -, hs, rfl⟩ |
    ⟨rest, -, rfl⟩ | ⟨rest, -, rfl⟩
  · exact hi
  · exact (hi.advance rest).readSlot off slot
  · exact (hi.advance rest).writeSlot (slotAt_spec hs).1 d
  · rw [State.poll_eq]
    exact (hi.advance rest).of_sameStores ⟨rfl, rfl, rfl, rfl⟩ (hi.advance rest).flagsOk
  · have hreset : State.reset.Inv := resetMeetsTheInvariant
    exact hreset.of_sameStores ⟨rfl, rfl, rfl, rfl⟩ hreset.flagsOk

/-- A host statement leaves NET_VALID and the prefix, or clears NET_VALID: a reset, or a write to NET_LEN or NET while
nothing is pending (46_address.md R211). -/
theorem hostStep_netKept (h : hostStep s = .next t) : NetKept s t ∧
    (t.netValid = s.netValid ∨ (∃ rest, s.host = .reset :: rest) ∨
      (s.pend = none ∧ ∃ off d rest slot, s.host = .wr .w32 off d :: rest ∧ slotAt off.toNat = some slot ∧
        slot.isNet = true)) := by
  rcases hostStep_cases h with ⟨-, rfl⟩ | ⟨off, rest, slot, -, -, rfl⟩ | ⟨off, d, rest, slot, hh, hs, rfl⟩ |
    ⟨rest, -, rfl⟩ | ⟨rest, hh, rfl⟩
  · exact ⟨SameStores.netKept ⟨rfl, rfl, rfl, rfl⟩, .inl rfl⟩
  · have hsame := (s.advance rest).readSlot_sameStores off slot
    have ⟨_, _, hn, _⟩ := hsame
    exact ⟨hsame.netKept, .inl hn⟩
  · rcases (s.advance rest).writeSlot_cases slot d with hw | hw | hw | ⟨hp, hc, hr, hw⟩ <;> rw [hw]
    · exact ⟨SameStores.netKept ⟨rfl, rfl, rfl, rfl⟩, .inl rfl⟩
    · exact ⟨SameStores.netKept ⟨rfl, rfl, rfl, rfl⟩, .inl rfl⟩
    · exact ⟨SameStores.netKept ⟨rfl, rfl, rfl, rfl⟩, .inl rfl⟩
    · refine ⟨netKept_storeSlot (slotAt_spec hs).1 hc hr d (s.advance rest), ?_⟩
      cases hnet : slot.isNet with
      | true => exact .inr (.inr ⟨by simpa using hp, off, d, rest, slot, hh, hs, hnet⟩)
      | false => exact .inl (by simp)
  · rw [State.poll_eq]
    exact ⟨SameStores.netKept ⟨rfl, rfl, rfl, rfl⟩, .inl rfl⟩
  · exact ⟨nofun, .inr (.inl ⟨rest, hh⟩)⟩

end

/-! ### The engine's completion -/

section
variable {i : Instr} {s t : State}

theorem Completed.ends (h : Completed i s t) : ∃ code ≤ 22, Ends code t := by
  rcases h with ⟨u, -, rfl⟩ | ⟨e, -, rfl⟩
  · exact ⟨0, by decide, Ends.finish u⟩
  · exact ⟨_, e.code_range.2, Ends.raise _ e⟩

theorem Completed.keepsForms (h : Completed i s t) : KeepsForms s t := by
  rcases h with ⟨u, hu, rfl⟩ | ⟨e, -, rfl⟩
  · exact hu.keepsForms
  · have hk : KeepsForms s (onError i s) := by
      unfold onError
      split <;> exact ⟨id, id⟩
    exact hk.trans (.raise _ e)

/-- A command that succeeds leaves words in CKW: its own (43_checksum.md R145), or those it found. -/
theorem Writes.ckwWords {u : State} (hi : s.Inv) (h : Writes i s u) :
    ∀ k < Config.nCk, wordOk (u.elem .ckw k) = true := by
  intro k hk
  by_cases hb : Buf.ckw ∈ outputBufs i
  · obtain ⟨a, rfl⟩ : ∃ a, u = s.setChecksum a := by
      cases i with
      | polyFinal => exact ⟨_, h.symm⟩
      | checksum =>
        obtain ⟨-, -, a, -, rfl⟩ := h
        exact ⟨a, rfl⟩
      | _ => simp [outputBufs] at hb
    rw [State.setChecksum_ckw hi.memWf a hk]
    exact ckDigit_ok a k
  · obtain ⟨slots, hf, hs, -⟩ := h.frame hi
    rw [hf.elem_kept hs hb hk]
    exact hi.ckwWords k hk

theorem Completed.ckwWords (hi : s.Inv) (h : Completed i s t) : ∀ k < Config.nCk, wordOk (t.elem .ckw k) = true := by
  rcases h with ⟨u, hu, rfl⟩ | ⟨e, he, rfl⟩
  · intro k hk
    rw [State.finish_elem]
    exact hu.ckwWords hi k hk
  · intro k hk
    have hs : Fits [.exp] (if e.code = 10 then slotsOf .exp 8 else []) := by
      split
      · exact fits_slots (Nat.le_refl 8)
      · exact .nil _
    rw [(Frame.raise_onError i s he).elem_kept hs (by decide) hk]
    exact hi.ckwWords k hk

/-- No command but CFG.NET touches the prefix or NET_VALID (10_state.md R24, 46_address.md R211). -/
theorem exec_netKept (hi : s.Inv) (h : exec i s = .next t) (hc : i ≠ .cfgNet) : NetKept s t := by
  obtain ⟨regs, slots, hf, hregs, hs, hn⟩ := exec_frame hi h
  refine hf.netKept hs fun hv => ⟨hn hc ▸ hv, fun hr => ?_, fun hb => ?_⟩
  · have hout := hregs hr
    cases i <;> simp [outputRegs] at hout
  · rcases List.mem_append.mp hb with hb | hb
    · cases i <;> simp [outputBufs] at hb hc
    · split at hb <;> simp at hb

/-- CFG.NET ends with a prefix in lower case and NET_VALID = 1, or with NET_VALID = 0 (46_address.md R210). -/
theorem execCfgNet_netOk (hm : s.mem.wf = true) (h : execCfgNet s = .next t) : t.NetOk := by
  rcases execCfgNet_completed h with ⟨u, ⟨hl, h0, -, rfl⟩, rfl⟩ | ⟨e, -, rfl⟩
  · have hpos : s.netLen.toNat ≠ 0 := fun hz => h0 (BitVec.eq_of_toNat_eq hz)
    refine fun _ => ⟨Nat.pos_of_ne_zero hpos, State.lengthOk_iff.mp hl, fun k hk => ?_⟩
    have hlt : k < (lower (s.input .net)).length := by
      rw [lower_length, State.input_length]
      exact hk
    refine (congrArg isUpper (State.elem_setElems_at hm .net _ k hlt)).trans ?_
    exact lower_not_upper _ _ (List.getElem_mem hlt)
  · intro hv
    rw [State.raise_netValid, onError_netValid, if_pos rfl] at hv
    cases hv

theorem State.Inv.exec (hi : s.Inv) (h : exec i s = .next t) : t.Inv := by
  have hcompleted := exec_cases h
  obtain ⟨regs, slots, hf, -, hs, -⟩ := exec_frame hi h
  obtain ⟨code, hcode, hends⟩ := hcompleted.ends
  refine hi.of_frame hcompleted.keepsForms hf hs (hends.flagsOk hcode) ?_ (hcompleted.ckwWords hi)
  by_cases hc : i = .cfgNet
  · subst hc
    exact execCfgNet_netOk hi.memWf h
  · exact (exec_netKept hi h hc).netOk hi

theorem State.Inv.noteReads (hi : s.Inv) (i : Instr) : (s.noteReads i).Inv :=
  hi.of_sameStores ⟨rfl, rfl, rfl, rfl⟩ hi.flagsOk

theorem State.raise_illegalCommand_sameStores (s : State) : SameStores s (s.raise .illegalCommand) :=
  ⟨rfl, rfl, rfl, rfl⟩

theorem State.Inv.completeCommand {w : Datum} (hi : s.Inv) (h : completeCommand w s = .next t) : t.Inv := by
  rcases completeCommand_cases h with ⟨-, -, rfl⟩ | ⟨i, -, hx⟩
  · exact hi.of_sameStores s.raise_illegalCommand_sameStores ((Ends.raise s .illegalCommand).flagsOk (by decide))
  · exact (hi.noteReads i).exec hx

/-- A completing CFG.NET says in ERR whether it clears NET_VALID (46_address.md R210), and leaves NET_LEN. -/
theorem execCfgNet_err (hi : s.Inv) (h : execCfgNet s = .next t) :
    t.netLen = s.netLen ∧ (t.netValid = false → t.err = true) := by
  obtain ⟨regs, slots, hf, hregs, -, -⟩ := exec_frame (i := .cfgNet) hi h
  refine ⟨hf.netLen_kept fun hr => by simpa [outputRegs] using hregs hr, fun hv => ?_⟩
  rcases execCfgNet_completed h with ⟨u, ⟨-, -, -, rfl⟩, rfl⟩ | ⟨e, -, rfl⟩
  · cases hv
  · obtain ⟨-, -, herr, -⟩ := Ends.raise (onError .cfgNet s) e
    have hpos := e.code_range.1
    rw [herr, decide_eq_true_eq]
    omega

end

/-- Settles O15: the engine's completion and every host statement keep the invariant. -/
theorem stepKeepsTheInvariant : Obligations.StepKeepsTheInvariant := by
  intro s t hi h
  rcases step_cases h with ⟨p, -, h⟩ | ⟨-, h⟩
  · exact hi.completeCommand h
  · exact hi.hostStep h

/-- Settles O19: only CFG.NET, a reset and an idle write to NET_LEN or NET do not keep the prefix. -/
theorem netValidGuardsTheConfiguredPrefix : Obligations.NetValidGuardsTheConfiguredPrefix := by
  intro s t hi hv h
  have hkept (hn : NetKept s t) : t.netValid = true →
      t.netLen = s.netLen ∧ ((∀ k < Config.capNet, t.elem .net k = s.elem .net k) ∨
        ∃ p, EngineNext s p ∧ decode p.word = .ok .cfgNet) := fun ht =>
    have ⟨_, hl, he⟩ := hn ht
    ⟨hl, .inl he⟩
  rcases step_cases h with ⟨p, hp, h⟩ | ⟨-, h⟩
  · rcases completeCommand_cases h with ⟨e, -, rfl⟩ | ⟨i, hd, hx⟩
    · exact ⟨fun hf => by simp [hv] at hf, hkept s.raise_illegalCommand_sameStores.netKept⟩
    · by_cases hc : i = .cfgNet
      · subst hc
        obtain ⟨hl, herr⟩ := execCfgNet_err (hi.noteReads .cfgNet) hx
        exact ⟨fun hf => .inr (.inl ⟨p, hp, hd, herr hf⟩), fun _ => ⟨hl, .inr ⟨p, hp, hd⟩⟩⟩
      · obtain ⟨-, -, -, -, -, hn⟩ := exec_frame (hi.noteReads i) hx
        have hnet : NetKept s t := exec_netKept (s := s.noteReads i) (hi.noteReads i) hx hc
        exact ⟨fun hf => by simp [hn hc, hv] at hf, hkept hnet⟩
  · obtain ⟨hn, hval | hreset | hwrite⟩ := hostStep_netKept h
    · exact ⟨fun hf => by simp [hval, hv] at hf, hkept hn⟩
    · exact ⟨fun _ => .inl hreset, hkept hn⟩
    · exact ⟨fun _ => .inr (.inr hwrite), hkept hn⟩

end Sys2Proof.Machine
end

section
/-! PROOFS (46_address.md). O25, O54 to O60. The two encoding commands differ in how they get the codes of the version
byte alone (`EncodesAddress`), the two decoding ones in what they do with a decoded address (`DecodesAddress`); each
check they share is proved once, for both. A configured prefix is non-empty and in lower case (10_state.md R43), so an
address is the text of FrameEnc, and with NET prepended where the prefix was left out it is a valid frame. -/

namespace Sys2Proof.Machine

/-! ### CFG.NET (R210) -/

theorem cfgNetResult_eq (s : State) : cfgNetResult s =
    if s.netLen.toNat ≤ 64 then
      if s.netLen = 0 ∨ mixed (s.input .net) = true then .error .invalidPrefix
      else .ok (s.setElems .net (lower (s.input .net)))
    else .error .lengthExceeded := by
  simp only [cfgNetResult, require_bind, State.lengthOk_iff]
  refine ite_congr rfl (fun _ => ?_) fun _ => rfl
  by_cases h0 : s.netLen = 0 <;> by_cases hx : mixed (s.input .net) = true <;> simp [h0, hx]

/-- An error of CFG.NET clears NET_VALID and writes nothing else (60_exceptions.md R248). -/
theorem cfgNet_fails {s : State} {e : Err} (hr : cfgNetResult s = .error e) (he : e.code ≠ 10) :
    ∃ t, exec .cfgNet s = .next t ∧ Ends e.code.toNat t ∧ Frame [] [] s t ∧ t.netValid = false := by
  have hsound : e.Sound := Err.sound_of_ne fun ex h => he (by rw [h]; rfl)
  have hf := Frame.raise_onError .cfgNet s hsound
  rw [if_neg he] at hf
  exact ⟨_, by rw [exec, execCfgNet, hr]; rfl, Ends.raise _ e, hf, State.raise_netValid _ e⟩

/-- Settles O54: the checks in their order, then the prefix in lower case. -/
theorem cfgNetValidatesAndLowercases : Obligations.CfgNetValidatesAndLowercases := by
  refine ⟨decode_encode .cfgNet, fun s hm => ?_⟩
  have hres := cfgNetResult_eq s
  refine ⟨fun hl => ?_, fun hbad => ?_, fun h0 hl hmix => ?_⟩
  · exact cfgNet_fails (hres.trans (if_neg (Nat.not_le.mpr hl))) (by decide)
  · have hl : s.netLen.toNat ≤ 64 := by
      rcases hbad with h0 | ⟨hl, -⟩
      · simp [h0]
      · exact hl
    rw [if_pos hl, if_pos (hbad.imp_right And.right)] at hres
    exact cfgNet_fails hres (by decide)
  · rw [if_pos hl, if_neg (not_or.mpr ⟨h0, by simp [hmix]⟩)] at hres
    have hlen : (lower (s.input .net)).length = s.netLen.toNat := by rw [lower_length, State.input_length]; rfl
    have hf := ((Frame.setElems s .net (lower (s.input .net))).trans (Frame.withNetValid _ true)).trans
      (Frame.complete _ 0)
    simp only [List.append_nil, hlen] at hf
    refine ⟨_, by rw [exec, execCfgNet, hres], Ends.finish _, hf, rfl, fun k hk => ?_⟩
    refine (State.elem_setElems_at hm .net _ k (hlen ▸ hk)).trans ?_
    simp [lower, State.input]

/-! ### The configured prefix -/

section
variable {s : State} (hi : s.Inv) (hv : s.netValid = true)
include hi hv

theorem State.Inv.input_net_ne_nil : s.input .net ≠ [] := by
  obtain ⟨hpos, -, -⟩ := hi.netLower hv
  rw [ne_eq, ← List.length_eq_zero_iff, State.input_length]
  exact Nat.ne_of_gt hpos

theorem State.Inv.lower_input_net : lower (s.input .net) = s.input .net := by
  obtain ⟨-, -, hlow⟩ := hi.netLower hv
  exact lower_of_not_upper (State.forall_mem_seq (P := fun c => isUpper c = false) hlow)

end

/-! ### The encoding commands (R216 to R218) -/

/-- The codes ADDR.ENCRAW puts into the version byte (R217). -/
def registerCodes (s : State) : Except Err (Byte × Byte) :=
  if s.typebits.toNat ≤ 15 then
    if s.sizebits.toNat ≤ 7 then .ok (s.typebits, s.sizebits) else .error .invalidSizeBits
  else .error .invalidTypeBits

/-- The codes ADDR.ENC puts into the version byte (R218). -/
def tableCodes (s : State) : Except Err (Byte × Byte) :=
  if s.outType.toNat ≤ 1 then hashSizeCode s.hashLen.toNat >>= fun sb => .ok (s.outType, sb)
  else .error .unknownType

/-- The command frames the version byte of `codes` and the hash under the configured prefix. -/
def EncodesAddress (i : Instr) (nopfx : Bool) (codes : State → Except Err (Byte × Byte)) : Prop :=
  ∀ s : State, exec i s = conclude s
    (if s.hashLen.toNat ≤ 64 then
      if s.netValid = true then
        codes s >>= fun c =>
          frameEnc (s.input .net) (b2w (versionByte c.1 c.2 :: s.input .hash)) (!nopfx) >>= fun str =>
            .ok (s.setSeq .str str)
      else .error .networkNotConfigured
    else .error .lengthExceeded)

theorem addrEncraw_encodesAddress (nopfx : Bool) : EncodesAddress (.addrEncraw nopfx) nopfx registerCodes := by
  refine fun s => congrArg (conclude s) ?_
  simp only [addrEncrawResult, addrEncRaw, require_bind, State.lengthOk_iff, typebitsOk_iff, sizebitsOk_iff]
  refine ite_congr rfl (fun _ => ite_congr rfl (fun _ => ?_) fun _ => rfl) fun _ => rfl
  by_cases ht : s.typebits.toNat ≤ 15 <;> by_cases hs : s.sizebits.toNat ≤ 7 <;> simp [registerCodes, ht, hs]

/-- The codes of ADDR.ENC pass the checks of AddrEncRaw (R218). -/
theorem addrEnc_encodesAddress (nopfx : Bool) : EncodesAddress (.addrEnc nopfx) nopfx tableCodes := by
  refine fun s => congrArg (conclude s) ?_
  simp only [addrEncResult, addrEncRaw, require_bind, State.lengthOk_iff, typeKnown_iff, typebitsOk_iff]
  refine ite_congr rfl (fun _ => ite_congr rfl (fun _ => ?_) fun _ => rfl) fun _ => rfl
  by_cases ht : s.outType.toNat ≤ 1
  · have ht15 : s.outType.toNat ≤ 15 := Nat.le_trans ht (by decide)
    cases hc : hashSizeCode s.hashLen.toNat with
    | error e => simp [tableCodes, ht, hc]
    | ok sb =>
      obtain ⟨-, hsb⟩ := sizeLength_sizeCode (hashSizeCode_eq_ok.mp hc)
      simp [tableCodes, ht, ht15, hc, hsb]
  · simp [tableCodes, ht]

theorem versionByte_eq {tb sb : Byte} (ht : tb.toNat ≤ 15) (hs : sb.toNat ≤ 7) :
    versionByte tb sb = BitVec.ofNat 8 (8 * tb.toNat + sb.toNat) := by
  rw [← versionByte_toNat ht hs, BitVec.ofNat_toNat, BitVec.setWidth_eq]

section
variable {i : Instr} {nopfx : Bool} {codes : State → Except Err (Byte × Byte)} {s : State}
  (h : EncodesAddress i nopfx codes)
include h

theorem EncodesAddress.long (hl : 64 < s.hashLen.toNat) : ∃ t, FailsWith i s 21 t :=
  failsWith_of_result (h s) (if_neg (Nat.not_le.mpr hl)) (by decide)

variable (hl : s.hashLen.toNat ≤ 64)
include hl

theorem EncodesAddress.unconfigured (hv : s.netValid = false) : ∃ t, FailsWith i s 20 t :=
  failsWith_of_result (h s) (e := .networkNotConfigured) (by rw [if_pos hl, if_neg (by simp [hv])]) (by decide)

variable (hv : s.netValid = true)
include hv

theorem EncodesAddress.codes_error {e : Err} (hc : codes s = .error e) (he : e.code ≠ 10) :
    ∃ t, FailsWith i s e.code.toNat t :=
  failsWith_of_result (h s) (by rw [if_pos hl, if_pos hv, hc, error_bind]) he

variable (hi : s.Inv) {tb sb : Byte} (hc : codes s = .ok (tb, sb))
include hi hc

/-- R213: the prefix's characters are checked last. -/
theorem EncodesAddress.prefix_error (hbad : ∃ k < s.netLen.toNat, prefixCharOk (s.elem .net k) = false) :
    ∃ t, FailsWith i s 5 t := by
  have hbad : ∃ c ∈ lower (s.input .net), prefixCharOk c = false := by
    rw [hi.lower_input_net hv]
    exact State.exists_mem_seq (P := fun c => prefixCharOk c = false) hbad
  refine failsWith_of_result (h s) ?_ (e := .invalidPrefixChar) (by decide)
  rw [if_pos hl, if_pos hv, hc, ok_bind, frameEnc_prefix_error _ _ (hi.input_net_ne_nil hv) hbad, error_bind]

/-- STR then holds the frame of the payload under the configured prefix, and it fits (R214, R215). -/
theorem EncodesAddress.succeeds {ws : List Byte} (hws : b2w (versionByte tb sb :: s.input .hash) = ws)
    (hok : ∀ k < s.netLen.toNat, prefixCharOk (s.elem .net k) = true) :
    ∃ t, Succeeds i s [.strLen] (slotsOf .str t.strLen.toNat) t ∧
      t.strLen.toNat = (if nopfx then 0 else s.netLen.toNat + 1) + ws.length + 8 ∧ t.strLen.toNat ≤ 256 ∧
      t.seq .str t.strLen.toNat = frameText (s.input .net) ws (!nopfx) := by
  have hchars : ∀ c ∈ lower (s.input .net), prefixCharOk c = true := by
    rw [hi.lower_input_net hv]
    exact State.forall_mem_seq (P := fun c => prefixCharOk c = true) hok
  have hr := frameEnc_ok (!nopfx) (hi.input_net_ne_nil hv) hchars (b2w_words (versionByte tb sb :: s.input .hash))
  have hn : (frameText (s.input .net) ws (!nopfx)).length =
      (if nopfx then 0 else s.netLen.toNat + 1) + ws.length + 8 := by
    rw [frameText_length, State.input_length]
    cases nopfx <;> rfl
  have hw : ws.length ≤ 104 := by
    have hlen : (s.input .hash).length ≤ 64 := by rw [State.input_length]; exact hl
    rw [← hws, b2w_length, List.length_cons]
    omega
  have hnet : s.netLen.toNat ≤ 64 := State.lengthOk_iff.mp (hi.net_lengthOk hv)
  have h256 : (if nopfx then 0 else s.netLen.toNat + 1) + ws.length + 8 ≤ 256 := by split <;> omega
  obtain ⟨t, hs, hlen, hseq⟩ := succeeds_setSeq_str hi.memWf (h s)
    (by rw [if_pos hl, if_pos hv, hc, ok_bind, hr, ok_bind, hws]) (by omega)
  exact ⟨t, hs, hlen.trans hn, by omega, hseq⟩

end

/-- The text of an address under a configured prefix, which is in lower case (R214). -/
theorem State.Inv.addressText_eq {s : State} (hi : s.Inv) (hv : s.netValid = true) (ws : List Byte) (nopfx : Bool) :
    frameText (s.input .net) ws (!nopfx) = (if nopfx then [] else s.input .net ++ [sep]) ++
      (ws ++ ckWords (checksumValue (s.input .net) ws)).map charAt := by
  rw [frameText_eq, hi.lower_input_net hv]

/-- Settles O55: the checks in their order, then the frame of the two codes and the hash. -/
theorem addrEncrawBuildsTheAddress : Obligations.AddrEncrawBuildsTheAddress := by
  refine ⟨decode_encode (.addrEncraw false), decode_encode (.addrEncraw true), fun nopfx s hi => ?_⟩
  have h := addrEncraw_encodesAddress nopfx
  refine ⟨h.long, h.unconfigured, fun hl hv => ⟨fun ht => ?_, fun ht hs => ?_, fun ht hs => ?_⟩⟩
  · exact h.codes_error hl hv (if_neg (Nat.not_le.mpr ht)) (by decide)
  · exact h.codes_error hl hv ((if_pos ht).trans (if_neg (Nat.not_le.mpr hs))) (by decide)
  · have hc : registerCodes s = .ok (s.typebits, s.sizebits) := (if_pos ht).trans (if_pos hs)
    refine ⟨h.prefix_error hl hv hi hc, fun hok => ?_⟩
    obtain ⟨t, hsucc, hlen, -, hseq⟩ := h.succeeds hl hv hi hc (by rw [versionByte_eq ht hs]) hok
    exact ⟨t, hsucc, hlen, hseq.trans (hi.addressText_eq hv _ nopfx)⟩

theorem tableCodes_ok {s : State} {k : Nat} (hk : k < 8) (ht : s.outType.toNat ≤ 1)
    (hn : sizes[k]? = some s.hashLen.toNat) : tableCodes s = .ok (s.outType, BitVec.ofNat 8 k) := by
  rw [tableCodes, if_pos ht, hashSizeCode_of_getElem? hk hn, ok_bind]

theorem le_of_sizes_getElem? {k n : Nat} (hn : sizes[k]? = some n) : n ≤ 64 := by
  have hall : ∀ m ∈ sizes, m ≤ 64 := by decide
  exact hall n (List.mem_of_getElem? hn)

/-- The payload lengths of R215. -/
theorem payload_length {k : Nat} {bs : List Byte} (hk : k < 8) (hn : sizes[k]? = some bs.length) (vb : Byte) :
    ∃ n, [42, 48, 55, 61, 74, 87, 100, 112][k]? = some n ∧ (b2w (vb :: bs)).length + 8 = n := by
  have htable : ∀ k < 8, [42, 48, 55, 61, 74, 87, 100, 112][k]? =
      sizes[k]?.map fun m => (8 * (m + 1) + 4) / 5 + 8 := by decide
  exact ⟨_, by rw [htable k hk, hn, Option.map_some], by rw [b2w_length, List.length_cons]⟩

/-- The frame that ADDR.ENC writes: TYPE, the size code `k` of HASH_LEN, and the hash (R218). -/
theorem succeeds_addrEnc {s : State} (nopfx : Bool) (hi : s.Inv) (hv : s.netValid = true) {k : Nat} (hk : k < 8)
    (ht : s.outType.toNat ≤ 1) (hn : sizes[k]? = some s.hashLen.toNat)
    (hok : ∀ j < s.netLen.toNat, prefixCharOk (s.elem .net j) = true) :
    ∃ t, Succeeds (.addrEnc nopfx) s [.strLen] (slotsOf .str t.strLen.toNat) t ∧
      t.strLen.toNat = (if nopfx then 0 else s.netLen.toNat + 1) +
        (b2w (BitVec.ofNat 8 (8 * s.outType.toNat + k) :: s.input .hash)).length + 8 ∧ t.strLen.toNat ≤ 256 ∧
      t.seq .str t.strLen.toNat =
        frameText (s.input .net) (b2w (BitVec.ofNat 8 (8 * s.outType.toNat + k) :: s.input .hash)) (!nopfx) := by
  have hcode : (BitVec.ofNat 8 k).toNat = k := Nat.mod_eq_of_lt (by omega)
  have hvb : versionByte s.outType (BitVec.ofNat 8 k) = BitVec.ofNat 8 (8 * s.outType.toNat + k) := by
    rw [versionByte_eq (by omega) (by omega), hcode]
  exact (addrEnc_encodesAddress nopfx).succeeds (le_of_sizes_getElem? hn) hv hi (tableCodes_ok hk ht hn)
    (by rw [hvb]) hok

/-- Settles O56: the checks in their order, then the frame of TYPE, the size code and the hash. -/
theorem addrEncBuildsTheAddress : Obligations.AddrEncBuildsTheAddress := by
  refine ⟨decode_encode (.addrEnc false), decode_encode (.addrEnc true), fun nopfx s hi => ?_⟩
  have h := addrEnc_encodesAddress nopfx
  refine ⟨h.long, h.unconfigured, fun hl hv => ⟨fun ht => ?_, fun ht hn => ?_, fun k hk ht hn => ?_⟩⟩
  · exact h.codes_error hl hv (if_neg (Nat.not_le.mpr ht)) (by decide)
  · have hc : tableCodes s = .error .unsupportedHashSize := by
      rw [tableCodes, if_pos ht, hashSizeCode_of_not_mem hn, error_bind]
    exact h.codes_error hl hv hc (by decide)
  · refine ⟨h.prefix_error hl hv hi (tableCodes_ok hk ht hn), fun hok => ?_⟩
    obtain ⟨t, hsucc, hlen, -, hseq⟩ := succeeds_addrEnc nopfx hi hv hk ht hn hok
    have hhash : sizes[k]? = some (s.input .hash).length := by rw [State.input_length]; exact hn
    obtain ⟨n, hget, hpay⟩ := payload_length hk hhash (BitVec.ofNat 8 (8 * s.outType.toNat + k))
    refine ⟨t, hsucc, ⟨n, hget, ?_⟩, hseq.trans (hi.addressText_eq hv _ nopfx)⟩
    rw [hlen, Nat.add_assoc, hpay]

/-! ### The decoding commands (R219, R222 to R224) -/

theorem addrDecRaw_eq (net str : List Byte) : addrDecRaw net str =
    frameDec (withImplicitPrefix net str) >>= fun r =>
      if r.1 = net then w2b r.2 >>= splitPayload else .error .prefixMismatch := by
  simp only [addrDecRaw, require_bind, beq_iff_eq]

theorem addrDecRaw_of_error {net str : List Byte} {e : Err} (hd : frameDec (withImplicitPrefix net str) = .error e) :
    addrDecRaw net str = .error e := by
  rw [addrDecRaw_eq, hd, error_bind]

/-- A valid frame of the network's prefix is read, one of another is not (R222). -/
theorem addrDecRaw_of_valid {net str p ws : List Byte} (hf : ValidFrame (withImplicitPrefix net str) p ws) :
    addrDecRaw net str = if p = net then w2b ws >>= splitPayload else .error .prefixMismatch := by
  rw [addrDecRaw_eq, frameDec_framed hf, if_pos rfl, ok_bind]

theorem splitPayload_of_range {vb : Byte} (hvb : vb.toNat < 128) (h : List Byte) :
    splitPayload (vb :: h) = .ok { tb := vbType vb, sb := vbSize vb, hash := h } := by
  have ht : typebitsOk (vbType vb) = true := by
    rw [typebitsOk_iff, vbType_toNat]
    omega
  exact if_pos ht

theorem splitPayload_of_reserved {vb : Byte} (hvb : 128 ≤ vb.toNat) (h : List Byte) :
    splitPayload (vb :: h) = .error .invalidTypeBits := by
  have ht : ¬ typebitsOk (vbType vb) = true := by
    rw [typebitsOk_iff, vbType_toNat]
    omega
  exact if_neg ht

/-- What ADDR.DECRAW does with a decoded address (R223). -/
def storeRaw (s : State) (r : RawAddress) : Except Err State :=
  if r.hash.length ≤ 64 then .ok (((s.setTypebits r.tb).setSizebits r.sb).setSeq .hash r.hash)
  else .error .lengthExceeded

/-- What ADDR.DEC does with a decoded address whose size code has 3 bits (R224). -/
def storeTyped (s : State) (r : RawAddress) : Except Err State :=
  if r.tb.toNat ≤ 1 then
    if r.sb.toNat ≤ 7 then
      if r.hash.length = sizeLength r.sb then .ok ((s.setOutType r.tb).setSeq .hash r.hash)
      else .error .hashLengthMismatch
    else .error .invalidSize
  else .error .invalidType

/-- The command decodes STR under the configured prefix and goes on with `store`. -/
def DecodesAddress (i : Instr) (store : State → RawAddress → Except Err State) : Prop :=
  ∀ s : State, exec i s = conclude s
    (if s.strLen.toNat ≤ 256 then
      if s.netValid = true then addrDecRaw (s.input .net) (s.input .str) >>= store s
      else .error .networkNotConfigured
    else .error .lengthExceeded)

theorem addrDecraw_decodesAddress : DecodesAddress .addrDecraw storeRaw := by
  refine fun s => congrArg (conclude s) ?_
  simp only [addrDecrawResult, require_bind, State.lengthOk_iff, decide_eq_true_eq]
  rfl

theorem addrDec_decodesAddress : DecodesAddress .addrDec storeTyped := by
  refine fun s => congrArg (conclude s) ?_
  simp only [addrDecResult, require_bind, State.lengthOk_iff, typeKnown_iff, sizebitsOk_iff, beq_iff_eq]
  rfl

section
variable {i : Instr} {store : State → RawAddress → Except Err State} {s : State} (h : DecodesAddress i store)
include h

theorem DecodesAddress.long (hl : 256 < s.strLen.toNat) : ∃ t, FailsWith i s 21 t :=
  failsWith_of_result (h s) (if_neg (Nat.not_le.mpr hl)) (by decide)

variable (hl : s.strLen.toNat ≤ 256)
include hl

theorem DecodesAddress.unconfigured (hv : s.netValid = false) : ∃ t, FailsWith i s 20 t :=
  failsWith_of_result (h s) (e := .networkNotConfigured) (by rw [if_pos hl, if_neg (by simp [hv])]) (by decide)

variable (hv : s.netValid = true)
include hv

theorem DecodesAddress.exec_eq : exec i s = conclude s (addrDecRaw (s.input .net) (s.input .str) >>= store s) := by
  rw [h s, if_pos hl, if_pos hv]

theorem DecodesAddress.frameDec_error {e : Err} (hd : frameDec s.addressInput = .error e) (he : e.code ≠ 10) :
    ∃ t, FailsWith i s e.code.toNat t :=
  failsWith_of_result (h.exec_eq hl hv) (by rw [addrDecRaw_of_error hd, error_bind]) he

/-- A frame in form with wrong checksum words (R175, 10_state.md R37). -/
theorem DecodesAddress.mismatch (hi : s.Inv) {p ws c : List Byte} (hf : Framed s.addressInput p ws c)
    (hne : c ≠ ckWords (checksumValue p ws)) :
    ∃ t, FailsWithExpected i s ((ckWords (checksumValue p ws)).map charAt) t := by
  have hd := (frameDec_framed hf).trans (if_neg (Ne.symm hne))
  exact failsWithExpected_of_result (h.exec_eq hl hv) (by rw [addrDecRaw_of_error hd, error_bind]) (by simp) hi.memWf

theorem DecodesAddress.other_prefix {p ws : List Byte} (hf : ValidFrame s.addressInput p ws)
    (hne : p ≠ s.input .net) : ∃ t, FailsWith i s 12 t := by
  have hd := (addrDecRaw_of_valid hf).trans (if_neg hne)
  exact failsWith_of_result (h.exec_eq hl hv) (e := .prefixMismatch) (by rw [hd, error_bind]) (by decide)

variable {ws : List Byte} (hf : ValidFrame s.addressInput (s.input .net) ws)
include hf

theorem DecodesAddress.exec_of_valid : exec i s = conclude s (w2b ws >>= splitPayload >>= store s) := by
  rw [h.exec_eq hl hv, addrDecRaw_of_valid hf, if_pos rfl]

theorem DecodesAddress.bad_padding (hw : w2b ws = .error .invalidPadding) : ∃ t, FailsWith i s 4 t :=
  failsWith_of_result (h.exec_of_valid hl hv hf) (e := .invalidPadding) (by rw [hw, error_bind, error_bind]) (by decide)

theorem DecodesAddress.no_byte (hw : ws = []) : ∃ t, FailsWith i s 22 t :=
  failsWith_of_result (h.exec_of_valid hl hv hf) (e := .missingVersionByte) (by subst hw; rfl) (by decide)

variable {vb : Byte} {hash : List Byte} (hw : w2b ws = .ok (vb :: hash))
include hw

theorem DecodesAddress.reserved_bit (hvb : 128 ≤ vb.toNat) : ∃ t, FailsWith i s 13 t :=
  failsWith_of_result (h.exec_of_valid hl hv hf) (e := .invalidTypeBits)
    (by rw [hw, ok_bind, splitPayload_of_reserved hvb, error_bind]) (by decide)

theorem DecodesAddress.exec_of_decoded (hvb : vb.toNat < 128) :
    exec i s = conclude s (store s { tb := vbType vb, sb := vbSize vb, hash := hash }) := by
  rw [h.exec_of_valid hl hv hf, hw, ok_bind, splitPayload_of_range hvb, ok_bind]

end

/-- What stands in HASH after it is loaded. -/
theorem hash_of_setSeq {s u : State} (hm : s.mem.wf = true) {h : List Byte} (hlen : h.length ≤ 64)
    (hu : u = (s.setSeq .hash h).finish) : u.hashLen.toNat = h.length ∧ u.seq .hash h.length = h := by
  subst hu
  exact ⟨State.len_setSeq s (b := .hash) rfl h (by omega), State.seq_setSeq_same hm .hash h⟩

/-- Settles O57: the checks in their order, then the codes and the hash of the payload's bytes. -/
theorem addrDecrawReadsAddresses : Obligations.AddrDecrawReadsAddresses := by
  have h := addrDecraw_decodesAddress
  refine ⟨decode_encode .addrDecraw, fun s => h.long, fun s => h.unconfigured, fun s e hl hv => h.frameDec_error hl hv,
    fun s p ws hi hv hl => ⟨fun c => h.mismatch hl hv hi, h.other_prefix hl hv, fun hf => ?_⟩⟩
  refine ⟨h.bad_padding hl hv hf, h.no_byte hl hv hf, fun vb hash hw => ⟨h.reserved_bit hl hv hf hw, ?_, ?_⟩⟩
  · intro hvb hlen
    exact failsWith_of_result (h.exec_of_decoded hl hv hf hw hvb) (if_neg (Nat.not_le.mpr hlen)) (by decide)
  · intro hvb hlen
    have hframe := ((Frame.setTypebits s (vbType vb)).trans (Frame.setSizebits _ (vbSize vb))).trans
      (Frame.setSeq _ (b := .hash) rfl hash)
    obtain ⟨hn, hseq⟩ := hash_of_setSeq (s := (s.setTypebits (vbType vb)).setSizebits (vbSize vb)) hi.memWf hlen rfl
    exact ⟨_, succeeds_of_result (h.exec_of_decoded hl hv hf hw hvb) (if_pos hlen) hframe (by simp [State.setSeq]),
      vbType_toNat vb, vbSize_toNat vb, hn, hseq⟩

/-- The size code of a version byte picks the hash length (R191, R193). -/
theorem sizes_getElem?_vbSize (vb : Byte) : sizes[vb.toNat % 8]? = some (sizeLength (vbSize vb)) := by
  have hmod := vbSize_toNat vb
  rw [← hmod]
  exact sizes_getElem? (by omega)

section
variable {s : State} {ws : List Byte} {vb : Byte} {hash : List Byte} (hl : s.strLen.toNat ≤ 256)
  (hv : s.netValid = true) (hf : ValidFrame s.addressInput (s.input .net) ws) (hw : w2b ws = .ok (vb :: hash))
  (hvb : vb.toNat < 16)
include hl hv hf hw hvb

/-- With a known type ADDR.DEC compares the hash with the size code. -/
theorem exec_addrDec_of_known : exec .addrDec s = conclude s
    (if sizes[vb.toNat % 8]? = some hash.length then .ok ((s.setOutType (vbType vb)).setSeq .hash hash)
      else .error .hashLengthMismatch) := by
  have ht : (vbType vb).toNat ≤ 1 := by rw [vbType_toNat]; omega
  have hs : (vbSize vb).toNat ≤ 7 := by rw [vbSize_toNat]; omega
  rw [addrDec_decodesAddress.exec_of_decoded hl hv hf hw (by omega), storeTyped, if_pos ht, if_pos hs,
    sizes_getElem?_vbSize]
  simp only [Option.some.injEq, eq_comm]

theorem succeeds_addrDec (hm : s.mem.wf = true) (hsize : sizes[vb.toNat % 8]? = some hash.length) :
    ∃ t, Succeeds .addrDec s [.outType, .hashLen] (slotsOf .hash hash.length) t ∧
      t.outType.toNat = vb.toNat / 8 ∧ t.hashLen.toNat = hash.length ∧ t.seq .hash hash.length = hash := by
  have hframe := (Frame.setOutType s (vbType vb)).trans (Frame.setSeq _ (b := .hash) rfl hash)
  obtain ⟨hn, hseq⟩ := hash_of_setSeq (s := s.setOutType (vbType vb)) hm (le_of_sizes_getElem? hsize) rfl
  exact ⟨_, succeeds_of_result (exec_addrDec_of_known hl hv hf hw hvb) (if_pos hsize) hframe (by simp [State.setSeq]),
    vbType_toNat vb, hn, hseq⟩

end

/-- Settles O58: the checks in their order, those on type and hash length last, then the type and the hash. -/
theorem addrDecReadsAddresses : Obligations.AddrDecReadsAddresses := by
  have h := addrDec_decodesAddress
  refine ⟨decode_encode .addrDec, fun s => h.long, fun s => h.unconfigured, fun s e hl hv => h.frameDec_error hl hv,
    fun s p ws hi hv hl => ⟨fun c => h.mismatch hl hv hi, h.other_prefix hl hv, fun hf => ?_⟩⟩
  refine ⟨h.bad_padding hl hv hf, h.no_byte hl hv hf, fun vb hash hw => ⟨h.reserved_bit hl hv hf hw, ?_, ?_, ?_⟩⟩
  · intro h16 hvb
    have ht : ¬ (vbType vb).toNat ≤ 1 := by rw [vbType_toNat]; omega
    exact failsWith_of_result (h.exec_of_decoded hl hv hf hw hvb) (if_neg ht) (by decide)
  · intro hvb hsize
    exact failsWith_of_result (exec_addrDec_of_known hl hv hf hw hvb) (if_neg hsize) (by decide)
  · exact fun hvb hsize => succeeds_addrDec hl hv hf hw hvb hi.memWf hsize

/-! ### All four commands (R212) and R220 -/

/-- Settles O25: the length checks pass, and NET_VALID is checked next. -/
theorem addressCommandsNeedANetwork : Obligations.AddressCommandsNeedANetwork := by
  rintro i s hi hlen hv
  rcases hi with rfl | rfl | ⟨nopfx, rfl | rfl⟩
  · exact addrDecraw_decodesAddress.unconfigured (hlen .str (List.mem_singleton_self _)) hv
  · exact addrDec_decodesAddress.unconfigured (hlen .str (List.mem_singleton_self _)) hv
  · exact (addrEncraw_encodesAddress nopfx).unconfigured (hlen .hash (List.mem_singleton_self _)) hv
  · exact (addrEnc_encodesAddress nopfx).unconfigured (hlen .hash (List.mem_singleton_self _)) hv

theorem withImplicitPrefix_of_no_sep {net str : List Byte} (h : sep ∉ str) :
    withImplicitPrefix net str = net ++ sep :: str := by simp [withImplicitPrefix, h]

theorem withImplicitPrefix_of_sep {net str : List Byte} (h : sep ∈ str) : withImplicitPrefix net str = str := by
  simp [withImplicitPrefix, h]

/-- Settles O60: with NET prepended the string is mixed, whatever its checksum. -/
theorem uppercaseWithoutPrefixFailsMixedCase : Obligations.UppercaseWithoutPrefixFailsMixedCase := by
  rintro s - hv hl hsep ⟨c, hc, hup⟩ ⟨d, hd, hlow⟩
  have hmixed : mixed s.addressInput = true := by
    rw [State.addressInput, withImplicitPrefix_of_no_sep hsep, mixed, Bool.and_eq_true, List.any_eq_true,
      List.any_eq_true]
    exact ⟨⟨c, by simp [hc], hup⟩, ⟨d, by simp [hd], hlow⟩⟩
  have hdec := frameDec_mixed hmixed
  exact ⟨addrDecraw_decodesAddress.frameDec_error hl hv hdec (by decide),
    addrDec_decodesAddress.frameDec_error hl hv hdec (by decide)⟩

/-! ### The round trip (R225) -/

/-- With or without its prefix, an address is decoded as the frame with the prefix (R219). -/
theorem withImplicitPrefix_frameText {net ws : List Byte} (hnet : lower net = net) (hw : ∀ w ∈ ws, wordOk w = true)
    (inc : Bool) : withImplicitPrefix net (frameText net ws inc) = frameText net ws true := by
  cases inc with
  | true =>
    refine withImplicitPrefix_of_sep ?_
    rw [frameText_of_prefix]
    exact List.mem_append_right _ List.mem_cons_self
  | false =>
    have hsep : sep ∉ frameText net ws false :=
      sep_not_mem_map_charAt (List.forall_mem_append.mpr ⟨hw, ckWords_ok _⟩)
    rw [withImplicitPrefix_of_no_sep hsep, frameText_of_prefix, hnet]
    simp [frameText, hnet]

theorem State.seq_congr_of_elem {s t : State} {b : Buf} {n : Nat} (h : ∀ k < n, t.elem b k = s.elem b k) :
    t.seq b n = s.seq b n :=
  List.map_congr_left fun k hk => h k (List.mem_range.mp hk)

/-- A state that holds a network's prefix and the text of an address under it holds a valid frame. -/
theorem validFrame_addressInput {v : State} {net ws : List Byte} {inc : Bool} (hn : v.input .net = net)
    (hs : v.input .str = frameText net ws inc) (h0 : net ≠ []) (hok : ∀ c ∈ net, prefixCharOk c = true)
    (hw : ∀ w ∈ ws, wordOk w = true) : ValidFrame v.addressInput (v.input .net) ws := by
  have hlow : lower net = net := lower_of_not_upper fun c hc => prefixCharOk_not_upper (hok c hc)
  rw [State.addressInput, hn, hs, withImplicitPrefix_frameText hlow hw]
  simpa only [hlow] using frameText_valid h0 (hlow.symm ▸ hok) hw

/-- A state that holds the network of `t` holds that of `s`, where only STR and STR_LEN were written in between. -/
theorem input_net_of_frame {s t v : State} (hi : s.Inv) (hv : s.netValid = true) {n : Nat} (h256 : n ≤ 256)
    (hf : Frame [.strLen] (slotsOf .str n) s t) (hl : v.netLen = t.netLen)
    (he : ∀ k < t.netLen.toNat, v.elem .net k = t.elem .net k) : v.input .net = s.input .net := by
  have hts : t.netLen = s.netLen := hf.netLen_kept (by decide)
  have hcap : s.len .net ≤ Buf.cap .net := State.lengthOk_iff.mp (hi.net_lengthOk hv)
  have hn : v.len .net = s.len .net := congrArg BitVec.toNat (hl.trans hts)
  rw [State.input, hn]
  refine State.seq_congr_of_elem fun k hk => (he k (hts.symm ▸ hk)).trans ?_
  exact hf.elem_kept (fits_slots (b := .str) h256) (b := .net) (by decide) (hk.trans_le hcap)

/-- Settles O59: what ADDR.ENC writes is a valid frame of the prefix that NET still holds, and the version byte and the
hash come back from its words. -/
theorem addressesRoundTrip : Obligations.AddressesRoundTrip := by
  intro nopfx s hi hv hok ht hn
  obtain ⟨k, hget⟩ := List.mem_iff_getElem?.mp (show s.hashLen.toNat ∈ sizes from hn)
  obtain ⟨hk, -⟩ := List.getElem?_eq_some_iff.mp hget
  have hk : k < 8 := hk
  obtain ⟨t, hsucc, -, h256, hstr⟩ := succeeds_addrEnc nopfx hi hv hk ht hget hok
  refine ⟨t, hsucc.exec_eq, hsucc.errcode_eq, fun v hm hvv hnl hsl hnet hstrv => ?_⟩
  obtain ⟨-, -, hframe, -⟩ := hsucc
  have hvnet := input_net_of_frame hi hv h256 hframe hnl hnet
  have hvstr := calc v.input .str
    _ = v.seq .str t.strLen.toNat := by rw [State.input, State.len, hsl]
    _ = t.seq .str t.strLen.toNat := State.seq_congr_of_elem hstrv
    _ = _ := hstr
  have hvalid := validFrame_addressInput hvnet hvstr (hi.input_net_ne_nil hv)
    (State.forall_mem_seq (P := fun c => prefixCharOk c = true) hok) (b2w_words _)
  obtain ⟨hbytes, -⟩ := radixConversionsRoundTrip
  have hvb : (BitVec.ofNat 8 (8 * s.outType.toNat + k)).toNat = 8 * s.outType.toNat + k :=
    Nat.mod_eq_of_lt (by omega)
  have hsize : sizes[(BitVec.ofNat 8 (8 * s.outType.toNat + k)).toNat % 8]? = some (s.input .hash).length := by
    have hmod : (8 * s.outType.toNat + k) % 8 = k := by omega
    rw [hvb, hmod, State.input_length]
    exact hget
  obtain ⟨u, hdec, htype, hlen, hseq⟩ := succeeds_addrDec (hsl ▸ h256) hvv hvalid (hbytes _) (by omega) hm hsize
  rw [State.input_length] at hlen hseq
  exact ⟨u, hdec.exec_eq, hdec.errcode_eq, BitVec.eq_of_toNat_eq (by omega), BitVec.eq_of_toNat_eq hlen, hseq⟩

end Sys2Proof.Machine
end

section
/-! PROOFS (60_exceptions.md). O4, O5, O20, O21, O24. What a completion is (`exec_cases`) gives the claims about codes and
outputs. For O24 every command is its length check and then a rest that reports LengthExceeded from an output that does
not fit, and from nothing else (`checksLengthsFirst`). -/

namespace Sys2Proof.Machine

/-! ### The two transitions of a command (R254) -/

/-- Settles O4: the completion of a legal word is its command's, on the state with the mark. -/
theorem stepRunsTheDecodedCommand : Obligations.StepRunsTheDecodedCommand := by
  intro s p i hp hd
  rw [step_of_engineNext hp, completeCommand, hd]
  rfl

/-- Settles O5: an idle host write to CMD's slot is `State.accept`. -/
theorem cmdWriteStartsTheCommand : Obligations.CmdWriteStartsTheCommand := by
  intro s w rest hp hh
  exact ⟨_, Config.latency s.draws, step_hostWrite_idle hp hh (slot := .reg .cmd) rfl, rfl, rfl⟩

/-! ### How every command ends (R240, R241, R248) -/

/-- Settles O20: outputs written end in code 0, an error in its own code. -/
theorem everyCommandCompletesWithOneCode : Obligations.EveryCommandCompletesWithOneCode := by
  intro i s
  obtain ⟨t, ht⟩ := exec_next i s
  refine ⟨t, ht, ?_⟩
  have ho := exec_outsideKept ht
  rcases exec_cases ht with ⟨u, -, rfl⟩ | ⟨e, -, rfl⟩
  · exact ⟨Nat.zero_le _, Ends.finish u, ho⟩
  · obtain ⟨-, hle⟩ := e.code_range
    exact ⟨hle, Ends.raise _ e, ho⟩

/-- Settles O21: a completion that wrote outputs has code 0; an error writes what `Frame.raise_onError` says. -/
theorem errorsLeaveEveryOutputAlone : Obligations.ErrorsLeaveEveryOutputAlone := by
  intro i s t h hcode
  rcases exec_cases h with ⟨u, -, rfl⟩ | ⟨e, he, rfl⟩
  · exact absurd rfl hcode
  · exact ⟨Frame.raise_onError i s he, by rw [State.raise_netValid, onError_netValid]⟩

/-! ### Pseudocode that never reports LengthExceeded -/

/-- LengthExceeded is none of the pseudocode's errors. -/
def NeverTooLong {α : Type} (x : Except Err α) : Prop := x ≠ .error .lengthExceeded

theorem NeverTooLong.ok {α : Type} (a : α) : NeverTooLong (.ok a : Except Err α) := nofun

theorem NeverTooLong.require (cond : Bool) {e : Err} (h : e ≠ .lengthExceeded) : NeverTooLong (require cond e) :=
  fun hr => h (require_eq_error.mp hr).2

theorem NeverTooLong.bind {α β : Type} {x : Except Err α} {f : α → Except Err β} (hx : NeverTooLong x)
    (hf : ∀ a, NeverTooLong (f a)) : NeverTooLong (x >>= f) := by
  intro h
  rcases bind_eq_error.mp h with h | ⟨a, -, h⟩
  · exact hx h
  · exact hf a h

/-- A check that the command makes for another error, and what follows it. -/
theorem NeverTooLong.check {α : Type} (cond : Bool) {e : Err} {x : Except Err α} (hx : NeverTooLong x)
    (he : e ≠ .lengthExceeded := by simp) : NeverTooLong (Machine.require cond e >>= fun _ => x) :=
  .bind (.require cond he) fun _ => hx

theorem NeverTooLong.charEnc (ws : List Byte) : NeverTooLong (charEnc ws) :=
  fun h => nomatch charEnc_eq_error h

theorem NeverTooLong.charDec (cs : List Byte) : NeverTooLong (charDec cs) :=
  fun h => nomatch charDec_eq_error h

theorem NeverTooLong.w2b (ws : List Byte) : NeverTooLong (w2b ws) := fun h => by
  rcases w2bLoop_eq_error _ _ h with h | h <;> cases h

theorem NeverTooLong.checksumAcc (p ws : List Byte) : NeverTooLong (checksumAcc p ws) := fun h => by
  rcases checksumAcc_eq_error h with h | h <;> cases h

theorem NeverTooLong.frameEnc (p ws : List Byte) (inc : Bool) : NeverTooLong (frameEnc p ws inc) := fun h => by
  rcases frameEnc_eq_error h with h | h | h <;> cases h

theorem NeverTooLong.frameDec (str : List Byte) : NeverTooLong (frameDec str) := by
  unfold Machine.frameDec
  split
  · nofun
  split
  · nofun
  exact .check _ (.check _ (.bind (.charDec _) fun _ => .bind (.checksumAcc _ _) fun _ => .check _ (.ok _)))

theorem NeverTooLong.hashSizeCode (n : Nat) : NeverTooLong (hashSizeCode n) := by
  unfold Machine.hashSizeCode
  split <;> nofun

theorem NeverTooLong.splitPayload (bs : List Byte) : NeverTooLong (splitPayload bs) := by
  unfold Machine.splitPayload
  split
  · nofun
  · split <;> nofun

theorem NeverTooLong.addrEncRaw (net : List Byte) (tb sb : Byte) (hash : List Byte) (inc : Bool) :
    NeverTooLong (addrEncRaw net tb sb hash inc) :=
  .check _ (.check _ (.frameEnc _ _ _))

theorem NeverTooLong.addrDecRaw (net str : List Byte) : NeverTooLong (addrDecRaw net str) :=
  .bind (.frameDec _) fun _ => .check _ (.bind (.w2b _) fun _ => .splitPayload _)

/-- Where the output is checked last, LengthExceeded says that the function succeeded with an output that does not fit
(R245 (b)). -/
theorem exists_too_long {α : Type} {x : Except Err α} {fits : α → Bool} {f : α → Except Err State}
    (hx : NeverTooLong x) (hf : ∀ a, NeverTooLong (f a))
    (h : (x >>= fun a => require (fits a) .lengthExceeded >>= fun _ => f a) = .error .lengthExceeded) :
    ∃ a, x = .ok a ∧ fits a = false := by
  rcases bind_eq_error.mp h with h | ⟨a, ha, h⟩
  · exact absurd h hx
  · rcases require_bind_eq_error.mp h with ⟨hfits, -⟩ | ⟨-, h⟩
    · exact ⟨a, ha, hfits⟩
    · exact absurd h (hf a)

/-! ### The length check and the rest of each command (R245, R246) -/

/-- An output of the command does not fit its buffer, the function that yields it having succeeded (R245 (b)). -/
def OutputTooLong (i : Instr) (s : State) : Prop :=
  (i = .chrDec ∧ 128 < s.strLen.toNat ∧ ∀ c ∈ s.input .str, c ∈ charset) ∨
  (i = .frmDec ∧ ∃ p d, frameDec (s.input .str) = .ok (p, d) ∧ (64 < p.length ∨ 128 < d.length)) ∨
  (i = .addrDecraw ∧ ∃ r, addrDecRaw (s.input .net) (s.input .str) = .ok r ∧ 64 < r.hash.length)

/-- The command checks its input lengths before anything else, and what is left reports LengthExceeded only from an output
that does not fit. -/
def ChecksLengthsFirst (i : Instr) (s : State) : Prop :=
  ∃ (inRange : Bool) (rest : Except Err State), (inRange = true ↔ ∀ b ∈ checkedInputs i, s.len b ≤ b.cap) ∧
    exec i s = conclude (onError i s) (require inRange .lengthExceeded >>= fun _ => rest) ∧
    (rest = .error .lengthExceeded → OutputTooLong i s)

section
variable {i : Instr} {s : State}

/-- A command with one length to check, and an output to check last. -/
theorem ChecksLengthsFirst.capped {b : Buf} {rest : Except Err State} (hb : checkedInputs i = [b])
    (he : exec i s = conclude (onError i s) (require (s.lengthOk b) .lengthExceeded >>= fun _ => rest))
    (hr : rest = .error .lengthExceeded → OutputTooLong i s) : ChecksLengthsFirst i s :=
  ⟨_, rest, by simp [hb, State.lengthOk_iff], he, hr⟩

/-- A command with one length to check. -/
theorem ChecksLengthsFirst.one {b : Buf} {rest : Except Err State} (hb : checkedInputs i = [b])
    (he : exec i s = conclude (onError i s) (require (s.lengthOk b) .lengthExceeded >>= fun _ => rest))
    (hr : NeverTooLong rest) : ChecksLengthsFirst i s :=
  .capped hb he fun h => absurd h hr

/-- A command with two lengths to check. -/
theorem ChecksLengthsFirst.two {b c : Buf} {rest : Except Err State} (hb : checkedInputs i = [b, c])
    (he : exec i s = conclude (onError i s) (require (s.lengthOk b && s.lengthOk c) .lengthExceeded >>= fun _ => rest))
    (hr : NeverTooLong rest) : ChecksLengthsFirst i s :=
  ⟨_, rest, by simp [hb, State.lengthOk_iff], he, fun h => absurd h hr⟩

/-- A command with no length to check. -/
theorem ChecksLengthsFirst.none {r : Except Err State} (hb : checkedInputs i = [])
    (he : exec i s = conclude (onError i s) r) (hr : NeverTooLong r) : ChecksLengthsFirst i s :=
  ⟨true, r, by simp [hb], he, fun h => absurd h hr⟩

end

theorem chrDec_checksLengthsFirst (s : State) : ChecksLengthsFirst .chrDec s := by
  refine .capped rfl rfl fun h => .inl ⟨rfl, ?_⟩
  obtain ⟨ws, hd, hfits⟩ := exists_too_long (.charDec _) (fun _ => .ok _) h
  obtain ⟨hmap, hok⟩ := charDec_eq_ok hd
  have hlen : Buf.cap .words < ws.length := Nat.not_le.mp (of_decide_eq_false hfits)
  rw [charDec_length hd, State.input_length] at hlen
  refine ⟨hlen, fun c hc => ?_⟩
  obtain ⟨w, hw, rfl⟩ := List.mem_map.mp (hmap ▸ hc)
  exact List.mem_of_getElem? (charset_getElem? (hok w hw))

theorem frmDec_checksLengthsFirst (s : State) : ChecksLengthsFirst .frmDec s := by
  refine .capped rfl rfl fun h => .inr (.inl ⟨rfl, ?_⟩)
  obtain ⟨⟨p, d⟩, hd, hfits⟩ := exists_too_long (.frameDec _) (fun _ => .ok _) h
  exact ⟨p, d, hd, (Bool.and_eq_false_iff.mp hfits).imp (fun h => Nat.not_le.mp (of_decide_eq_false h))
    fun h => Nat.not_le.mp (of_decide_eq_false h)⟩

theorem addrDecraw_checksLengthsFirst (s : State) : ChecksLengthsFirst .addrDecraw s := by
  refine .capped rfl rfl fun h => .inr (.inr ⟨rfl, ?_⟩)
  rcases require_bind_eq_error.mp h with ⟨-, he⟩ | ⟨-, h⟩
  · cases he
  · obtain ⟨r, hd, hfits⟩ := exists_too_long (.addrDecRaw _ _) (fun _ => .ok _) h
    exact ⟨r, hd, Nat.not_le.mp (of_decide_eq_false hfits)⟩

/-- CFG.NET concludes like the others, but for NET_VALID (R248). -/
theorem exec_cfgNet_eq (s : State) : exec .cfgNet s = conclude (onError .cfgNet s)
    (cfgNetResult s >>= fun t => .ok { t with netValid := true }) := by
  rw [exec, execCfgNet]
  cases cfgNetResult s <;> rfl

theorem cfgNet_checksLengthsFirst (s : State) : ChecksLengthsFirst .cfgNet s :=
  .one rfl ((exec_cfgNet_eq s).trans (congrArg (conclude _) (bind_assoc _ _ _)))
    (.bind (.check _ (.check _ (.ok _))) fun _ => .ok _)

/-- All commands, each past its length check. -/
theorem checksLengthsFirst (i : Instr) (s : State) : ChecksLengthsFirst i s := by
  cases i with
  | cfgNet => exact cfgNet_checksLengthsFirst s
  | chrDec => exact chrDec_checksLengthsFirst s
  | frmDec => exact frmDec_checksLengthsFirst s
  | addrDecraw => exact addrDecraw_checksLengthsFirst s
  | chrEnc => exact .one rfl rfl (.bind (.charEnc _) fun _ => .ok _)
  | cvt8to5 => exact .one rfl rfl (.ok _)
  | cvt5to8 => exact .one rfl rfl (.bind (.w2b _) fun _ => .ok _)
  | accInit | polyStep | polyFinal => exact .none rfl rfl (.ok _)
  | polyFeedw | polyFeedc | vbUnpack => exact .none rfl rfl (.check _ (.ok _))
  | vbPack | vbDects => exact .none rfl rfl (.check _ (.check _ (.ok _)))
  | vbEncts => exact .none rfl rfl (.check _ (.bind (.hashSizeCode _) fun _ => .ok _))
  | checksum => exact .two rfl rfl (.bind (.checksumAcc _ _) fun _ => .ok _)
  | frmEnc nopfx => exact .two rfl rfl (.bind (.frameEnc _ _ _) fun _ => .ok _)
  | addrEncraw nopfx => exact .one rfl rfl (.check _ (.bind (.addrEncRaw _ _ _ _ _) fun _ => .ok _))
  | addrEnc nopfx =>
    exact .one rfl rfl
      (.check _ (.check _ (.bind (.hashSizeCode _) fun _ => .bind (.addrEncRaw _ _ _ _ _) fun _ => .ok _)))
  | addrDec =>
    exact .one rfl rfl
      (.check _ (.bind (.addrDecRaw _ _) fun _ => .check _ (.check _ (.check _ (.ok _)))))

/-- Settles O24: the length check decides, and past it an error of code 21 is the rest's. -/
theorem inputLengthsAreCheckedFirst : Obligations.InputLengthsAreCheckedFirst := by
  intro i s
  obtain ⟨inRange, rest, hok, he, hrest⟩ := checksLengthsFirst i s
  rw [he]
  refine ⟨fun ⟨b, hb, hlen⟩ => ?_, fun hall t ht hcode => ?_⟩
  · have hbad : inRange = false := Bool.eq_false_iff.mpr fun h => Nat.not_le.mpr hlen (hok.mp h b hb)
    refine ⟨(onError i s).raise .lengthExceeded, by rw [hbad]; rfl, Ends.raise _ .lengthExceeded,
      Frame.raise_onError i s (Err.sound_of_ne nofun), ?_⟩
    rw [State.raise_netValid, onError_netValid]
  · rw [hok.mpr hall, require_true, ok_bind] at ht
    rcases conclude_cases ht with ⟨u, -, rfl⟩ | ⟨e, rfl, rfl⟩
    · cases hcode
    · refine hrest ?_
      cases e with
      | lengthExceeded => rfl
      | _ => cases hcode

end Sys2Proof.Machine
end

section
/-! PROOFS (70_reset_and_hazards.md). O6, O7, O12, O16, O17. A host access is one step (`step_hostRead`,
`step_hostWrite`). `step_ovr` says all that a step does to OVR, `obeysPolling_step` what becomes of BUSY and the queue
under the polling rule, and `hostStep_countdown` what becomes of the latency, on which completion is an induction. -/

namespace Sys2Proof.Machine

/-! ### A host access as a step -/

section
variable {s : State} {off : Offset} {rest : List HostStmt} {slot : Slot} (hn : HostNext s)
  (hs : slotAt off.toNat = some slot)
include hn hs

theorem step_hostRead (hh : s.host = .rd .w32 off :: rest) : step s = .next ((s.advance rest).readSlot off slot) := by
  simp [step_of_hostNext hn, hostStep, hh, busRead, accessSlot, hs]

theorem step_hostWrite {d : Datum} (hh : s.host = .wr .w32 off d :: rest) :
    step s = .next ((s.advance rest).writeSlot slot d) := by
  simp [step_of_hostNext hn, hostStep, hh, busWrite, accessSlot, hs]

end

/-! ### Reset (R270, R271) -/

/-- Settles O12: the step is `State.resetBlock`, whose control registers are those of `State.reset`. -/
theorem resetClearsControlState : Obligations.ResetClearsControlState := by
  obtain ⟨hstatus, herrcode, -⟩ := resetStateValues
  refine ⟨fun s rest hn hh => ?_, fun s => ⟨rfl, rfl⟩⟩
  have hstep : step s = .next { s.resetBlock with host := rest } := by rw [step_of_hostNext hn, hostStep, hh]
  exact ⟨_, hstep, rfl, hstatus, herrcode, rfl, rfl, rfl, rfl, rfl⟩

/-! ### Reads (R277) -/

theorem Slot.exactWhileBusy_iff {slot : Slot} :
    slot.exactWhileBusy = true ↔ slot = .reg .id ∨ slot = .reg .cmd ∨ slot = .reg .status := by
  cases slot with
  | reg r => cases r <;> decide
  | elem b i => simp [Slot.exactWhileBusy]

theorem Slot.alwaysDefined_iff {slot : Slot} :
    slot.alwaysDefined = true ↔ slot ∈ [.reg .id, .reg .cmd, .reg .status, .reg .errcode] := by
  cases slot with
  | reg r => cases r <;> decide
  | elem b i => simp [Slot.alwaysDefined]

/-- Which reads are exact (10_state.md R40, R50, R277). -/
theorem State.readExact_iff {s : State} {slot : Slot} : s.readExact slot = true ↔
    if s.busy then slot = .reg .id ∨ slot = .reg .cmd ∨ slot = .reg .status
    else slot ∈ [.reg .id, .reg .cmd, .reg .status, .reg .errcode] ∨ slot.offset ∈ s.written := by
  unfold State.readExact
  split
  · exact Slot.exactWhileBusy_iff
  · rw [Bool.or_eq_true, Slot.alwaysDefined_iff, List.contains_iff_mem]

section
variable (s : State) (off : Offset) (slot : Slot) (rest : List HostStmt)

/-- Taking a host statement changes no register that the host reads. -/
@[simp] theorem State.advance_slotValue : (s.advance rest).slotValue slot = s.slotValue slot := by
  cases slot with
  | reg r =>
    cases r with
    | status => exact s.tick_status
    | _ => rfl
  | elem b i => rfl

@[simp] theorem State.advance_readExact : (s.advance rest).readExact slot = s.readExact slot := by
  simp [State.readExact]

@[simp] theorem State.readSlot_pend : (s.readSlot off slot).pend = s.pend := by
  unfold State.readSlot
  split <;> rfl

@[simp] theorem State.readSlot_busy : (s.readSlot off slot).busy = s.busy :=
  congrArg Option.isSome (s.readSlot_pend off slot)

@[simp] theorem State.readSlot_ovr : (s.readSlot off slot).ovr = s.ovr := by
  unfold State.readSlot
  split <;> rfl

@[simp] theorem State.readSlot_host : (s.readSlot off slot).host = s.host := by
  unfold State.readSlot
  split <;> rfl

end

/-- Settles O7: the step is `State.readSlot`, whose two branches are the exact read and the draw. -/
theorem hostReadsReturnExactValuesOrDraws : Obligations.HostReadsReturnExactValuesOrDraws := by
  intro s off rest slot hn hh hs
  have hstep := step_hostRead hn hs hh
  simp only [State.readSlot, State.advance_readExact, State.readExact_iff, State.advance_slotValue] at hstep
  refine ⟨fun he => ?_, fun he => ?_⟩
  · rw [hstep, if_pos he]
    rfl
  · rw [hstep, if_neg he, State.drawRead, State.and_freeBits, State.advance_busy]
    rfl

/-! ### Writes (R276) -/

section
variable {s : State} (slot : Slot) (d : Datum)

/-- While a command is pending a write is lost, and sets OVR unless the slot is STATUS. -/
theorem State.writeSlot_busy (hb : s.busy = true) :
    s.writeSlot slot d = { s with ovr := s.ovr || decide (slot ≠ .reg .status) } := by
  rw [State.writeSlot, if_pos hb]
  split
  · next h => simp [h]
  · next h => simp [h]

theorem State.writeSlot_idle (hb : s.busy = false) : s.writeSlot slot d = s.writeIdle slot d :=
  if_neg (Bool.eq_false_iff.mp hb)

/-- A write while nothing is pending leaves OVR and the queue, and makes the block busy exactly if it is to CMD. -/
theorem State.writeIdle_control : (s.writeIdle slot d).ovr = s.ovr ∧ (s.writeIdle slot d).host = s.host ∧
    (s.writeIdle slot d).busy = (s.busy || decide (slot = .reg .cmd)) := by
  by_cases hc : slot = .reg .cmd
  · subst hc
    exact ⟨rfl, rfl, (Bool.or_true _).symm⟩
  · rw [decide_eq_false hc, Bool.or_false]
    cases hr : slot.readOnly with
    | true => simp [State.writeIdle_readOnly s hr]
    | false =>
      obtain ⟨-, -, -, hovr, hhost, -⟩ := Frame.storeSlot s hc hr d
      rw [State.writeIdle_writable s hc hr]
      exact ⟨hovr, hhost, congrArg Option.isSome (s.storeSlot_pend slot d)⟩

end

/-! ### OVR (R278) -/

/-- The host's next statement is a write to a mapped offset other than STATUS's, and a command is pending. -/
def LosesWrite (s : State) : Prop :=
  s.pend.isSome = true ∧ ∃ off d rest slot, s.host = .wr .w32 off d :: rest ∧ slotAt off.toNat = some slot ∧
    slot ≠ .reg .status

section
variable {s t : State}

/-- The engine completes the pending command and leaves OVR and the queue alone. -/
theorem completeCommand_control {w : Datum} (h : completeCommand w s = .next t) :
    t.pend = none ∧ t.ovr = s.ovr ∧ t.host = s.host := by
  rcases completeCommand_cases h with ⟨-, -, rfl⟩ | ⟨i, -, hx⟩
  · exact ⟨rfl, rfl, rfl⟩
  · obtain ⟨-, -, hp, -⟩ := (exec_cases hx).ends
    obtain ⟨hovr, hhost, -⟩ := exec_outsideKept hx
    exact ⟨hp, hovr, hhost⟩

/-- A host write leaves OVR, or is lost and sets it. -/
theorem State.advance_writeSlot_ovr {off : Offset} {d : Datum} {rest : List HostStmt} {slot : Slot}
    (hh : s.host = .wr .w32 off d :: rest) (hs : slotAt off.toNat = some slot) :
    ((s.advance rest).writeSlot slot d).ovr = s.ovr ∨
      (((s.advance rest).writeSlot slot d).ovr = true ∧ LosesWrite s) := by
  cases hb : s.busy with
  | true =>
    rw [State.writeSlot_busy slot d (by simpa using hb)]
    by_cases hst : slot = .reg .status
    · exact .inl (by simp [hst])
    · exact .inr ⟨by simp [hst], hb, off, d, rest, slot, hh, hs, hst⟩
  | false =>
    obtain ⟨hovr, -⟩ := State.writeIdle_control (s := s.advance rest) slot d
    rw [State.writeSlot_idle slot d (by simpa using hb)]
    exact .inl hovr

/-- A step leaves OVR, sets it by a lost write, or clears it by a reset. -/
theorem step_ovr (h : step s = .next t) :
    t.ovr = s.ovr ∨ (t.ovr = true ∧ LosesWrite s) ∨ (t.ovr = false ∧ ∃ rest, s.host = .reset :: rest) := by
  rcases step_cases h with ⟨p, -, h⟩ | ⟨-, h⟩
  · obtain ⟨-, hovr, -⟩ := completeCommand_control h
    exact .inl hovr
  · rcases hostStep_cases h with ⟨-, rfl⟩ | ⟨off, rest, slot, -, -, rfl⟩ | ⟨off, d, rest, slot, hh, hs, rfl⟩ |
      ⟨rest, -, rfl⟩ | ⟨rest, hh, rfl⟩
    · exact .inl rfl
    · exact .inl (by simp)
    · rcases State.advance_writeSlot_ovr hh hs with hovr | hlost
      · exact .inl hovr
      · exact .inr (.inl hlost)
    · exact .inl (by rw [State.poll_eq]; rfl)
    · exact .inr (.inr ⟨rfl, rest, hh⟩)

/-- Settles O6: the write is `State.writeSlot_busy`, and the two facts about OVR are `step_ovr`. -/
theorem busyWritesAreLostAndSetOvr : Obligations.BusyWritesAreLostAndSetOvr := by
  refine ⟨fun s off d rest slot hp hn hh hs => ?_, fun s t h hset hreset => ?_, fun s t h hclear hset => ?_⟩
  · have hb : (s.advance rest).busy = true := (s.advance_busy rest).trans hp
    rw [step_hostWrite hn hs hh, State.writeSlot_busy slot d hb]
    rfl
  · rcases step_ovr h with hovr | ⟨hovr, -⟩ | ⟨-, rest, hh⟩
    · exact hovr.trans hset
    · exact hovr
    · exact absurd hh (hreset rest)
  · rcases step_ovr h with hovr | ⟨-, hlost⟩ | ⟨hovr, -⟩
    · exact absurd (hset.symm.trans hovr) (by simp [hclear])
    · exact hlost
    · exact absurd (hset.symm.trans hovr) (by decide)

/-! ### The polling rule (R275) -/

/-- What obeys the rule with a command pending obeys it with none pending. -/
theorem obeysPolling_idle {hs : List HostStmt} (waiting : Bool) (h : obeysPolling waiting hs = true) :
    obeysPolling false hs = true := by
  induction hs with
  | nil => rfl
  | cons st rest ih =>
    cases st with
    | rd width off => exact ih (Bool.and_eq_true_iff.mp h).2
    | wr width off d => exact (Bool.and_eq_true_iff.mp h).2
    | wait => exact h
    | reset => exact h
    | inexpressible => exact ih h

/-- A host that obeys the rule loses no write. -/
theorem not_losesWrite_of_obeysPolling (h : obeysPolling s.busy s.host = true) : ¬ LosesWrite s := by
  rintro ⟨hb, off, d, rest, slot, hh, -, -⟩
  rw [hh, show s.busy = true from hb] at h
  cases h

/-- The offset of CMD is CMD's alone. -/
theorem slotAt_cmd_iff {off : Offset} {slot : Slot} (hs : slotAt off.toNat = some slot) :
    slot = .reg .cmd ↔ off.toNat = 0x004 := by
  constructor
  · rintro rfl
    exact (slotAt_spec hs).2.symm
  · intro ho
    rw [ho] at hs
    exact (Option.some.inj hs).symm

/-- A host write under the rule comes while nothing is pending, and leaves a command pending exactly if it is to CMD. -/
theorem obeysPolling_writeSlot {off : Offset} {d : Datum} {rest : List HostStmt} {slot : Slot}
    (hobey : obeysPolling s.busy (.wr .w32 off d :: rest) = true) (hs : slotAt off.toNat = some slot) :
    obeysPolling ((s.advance rest).writeSlot slot d).busy ((s.advance rest).writeSlot slot d).host = true := by
  obtain ⟨hb, hrest⟩ := Bool.and_eq_true_iff.mp hobey
  have hidle : (s.advance rest).busy = false := (s.advance_busy rest).trans (by simpa using hb)
  obtain ⟨-, hhost, hbusy⟩ := State.writeIdle_control (s := s.advance rest) slot d
  rw [State.writeSlot_idle slot d hidle, hbusy, hhost, hidle, Bool.false_or, decide_eq_decide.mpr (slotAt_cmd_iff hs)]
  exact hrest

/-- A step leaves a queue that obeys the rule from BUSY as the step leaves it. -/
theorem obeysPolling_step (hobey : obeysPolling s.busy s.host = true) (h : step s = .next t) :
    obeysPolling t.busy t.host = true := by
  rcases step_cases h with ⟨p, -, h⟩ | ⟨-, h⟩
  · obtain ⟨hp, -, hhost⟩ := completeCommand_control h
    rw [State.busy, hp, hhost]
    exact obeysPolling_idle _ hobey
  · rcases hostStep_cases h with ⟨-, rfl⟩ | ⟨off, rest, slot, hh, -, rfl⟩ | ⟨off, d, rest, slot, hh, hs, rfl⟩ |
      ⟨rest, hh, rfl⟩ | ⟨rest, hh, rfl⟩
    · exact hobey
    · rw [hh] at hobey
      rw [State.readSlot_busy, State.advance_busy, State.readSlot_host]
      exact (Bool.and_eq_true_iff.mp hobey).2
    · exact obeysPolling_writeSlot (hh ▸ hobey) hs
    · rw [State.poll_eq]
      show obeysPolling s.tick.busy (if s.tick.busy then s.host else rest) = true
      rw [State.tick_busy]
      split
      · exact hobey
      · next hb =>
        rw [hh] at hobey
        rw [Bool.eq_false_iff.mpr hb]
        exact hobey
    · rw [hh] at hobey
      exact hobey

/-- Settles O17: `step_ovr` leaves only a lost write to set OVR, and a host that obeys the rule loses none. -/
theorem pollingHostKeepsOvrClear : Obligations.PollingHostKeepsOvrClear := by
  intro s t hclear hobey h
  refine ⟨?_, obeysPolling_step hobey h⟩
  rcases step_ovr h with hovr | ⟨-, hlost⟩ | ⟨hovr, -⟩
  · exact hovr.trans hclear
  · exact absurd hlost (not_losesWrite_of_obeysPolling hobey)
  · exact hovr

/-! ### Completion within the latency (R280) -/

theorem completeCommand_next (w : Datum) (s : State) : ∃ t, completeCommand w s = .next t := by
  unfold completeCommand
  split
  · exact ⟨_, rfl⟩
  · exact exec_next _ _

/-- A well-formed access reaches a slot (20_memory.md R61, R62). -/
theorem exists_slot_of_accessOk {width : Width} {off : Offset} (h : accessOk width off = true) :
    ∃ slot, accessSlot width off = some slot := by
  obtain ⟨hw, hs⟩ := Bool.and_eq_true_iff.mp h
  rw [accessSlot, if_pos hw]
  exact Option.isSome_iff_exists.mp hs

/-- With well-formed statements left, the host's step is answered. -/
theorem hostStep_next (hwf : ∀ st ∈ s.host, st.wellFormed = true) : ∃ t, hostStep s = .next t := by
  unfold hostStep
  split
  · exact ⟨_, rfl⟩
  · next width off rest hh =>
    obtain ⟨slot, hs⟩ := exists_slot_of_accessOk (hwf (.rd width off) (by simp [hh]))
    exact ⟨(s.advance rest).readSlot off slot, by rw [busRead, hs]⟩
  · next width off d rest hh =>
    obtain ⟨slot, hs⟩ := exists_slot_of_accessOk (hwf (.wr width off d) (by simp [hh]))
    exact ⟨(s.advance rest).writeSlot slot d, by rw [busWrite, hs]⟩
  · exact ⟨_, rfl⟩
  · exact ⟨_, rfl⟩
  · next rest hh => cases hwf .inexpressible (by simp [hh])

/-- A host statement taken while a command is pending brings the command nearer to its completion, or is a reset; what
is left of the queue is its end. -/
theorem hostStep_countdown {p : Pending} (hp : s.pend = some p) (hh : s.host ≠ []) (h : hostStep s = .next t) :
    (t.pend = none ∨ t.pend = some { p with delay := p.delay - 1 }) ∧ t.host <:+ s.host := by
  have hnext (rest : List HostStmt) : (s.advance rest).pend = some { p with delay := p.delay - 1 } := by simp [hp]
  rcases hostStep_cases h with ⟨h0, -⟩ | ⟨off, rest, slot, hq, -, rfl⟩ | ⟨off, d, rest, slot, hq, -, rfl⟩ |
    ⟨rest, hq, rfl⟩ | ⟨rest, hq, rfl⟩
  · exact absurd h0 hh
  · rw [State.readSlot_pend, State.readSlot_host, hq]
    exact ⟨.inr (hnext rest), List.suffix_cons _ rest⟩
  · have hb : (s.advance rest).busy = true := congrArg Option.isSome (hnext rest)
    rw [State.writeSlot_busy slot d hb, hq]
    exact ⟨.inr (hnext rest), List.suffix_cons _ rest⟩
  · have hb : s.tick.busy = true := congrArg Option.isSome (hnext rest)
    rw [State.poll_eq, hb]
    exact ⟨.inr (hnext rest), List.suffix_refl s.host⟩
  · rw [hq]
    exact ⟨.inl rfl, List.suffix_cons _ rest⟩

end

theorem run_succ {s t : State} (h : step s = .next t) (k : Nat) :
    Host.Core.run Sys2Proof.core (k + 1) s = Host.Core.run Sys2Proof.core k t := by
  have hcore : Sys2Proof.core.step s = .next t := h
  simp only [Host.Core.run, hcore]

/-- One step is enough when the engine moves next. -/
theorem EngineNext.run_one {s : State} {p : Pending} (h : EngineNext s p) :
    ∃ t, Host.Core.run Sys2Proof.core 1 s = .next t ∧ t.pend = none := by
  obtain ⟨t, ht⟩ := completeCommand_next p.word s
  obtain ⟨hp, -⟩ := completeCommand_control ht
  exact ⟨t, run_succ ((step_of_engineNext h).trans ht) 0, hp⟩

/-- Settles O16, by induction on the latency: the host's step is a reset or leaves a shorter latency, and when the
latency has run out, or the queue has, the engine's step completes the command. -/
theorem pendingCommandCompletesWithinItsLatency : Obligations.PendingCommandCompletesWithinItsLatency := by
  intro s p hp hwf
  induction hd : p.delay generalizing s p with
  | zero =>
    obtain ⟨t, ht⟩ := EngineNext.run_one ⟨hp, .inl hd⟩
    exact ⟨1, t, by omega, ht⟩
  | succ n ih =>
    rcases engineNext_or_hostNext s with ⟨q, hq⟩ | hhost
    · obtain ⟨t, ht⟩ := hq.run_one
      exact ⟨1, t, by omega, ht⟩
    · obtain ⟨u, hu⟩ := hostStep_next hwf
      have hstep : step s = .next u := (step_of_hostNext hhost).trans hu
      obtain ⟨hnone | hnext, hsuffix⟩ := hostStep_countdown hp (hhost p hp).2 hu
      · exact ⟨1, u, by omega, run_succ hstep 0, hnone⟩
      · obtain ⟨k, t, hk, hrun, hnone⟩ :=
          ih u _ hnext (fun st hst => hwf st (hsuffix.subset hst)) (by simp [hd])
        exact ⟨k + 1, t, by omega, (run_succ hstep k).trans hrun, hnone⟩

end Sys2Proof.Machine
end
